-- ==== Sys2Proof/Word.lean ====
section
/-! DEFINITION. The block's words: a register is a byte, a command word has 40 bits (R60, R90). -/

namespace Sys2Proof

/-- Every register, register address and bus byte has 8 bits (R8 `REG_WIDTH`, `ADDR_WIDTH`; R60). -/
abbrev Byte := BitVec 8

/-- The 40-bit command word `CW40` (R90). -/
abbrev Cw40 := BitVec 40

/-- A bit index or a pin-index, 0 to 7 (R8 `PINS_PER_PORT`, R9, R92). -/
abbrev BitIx := BitVec 3

end Sys2Proof
end

