-- ==== Sys2Proof/Config.lean ====
section
/-! DEFINITION. What an implementation fixes (the parameters of R8, as one plain structure), the names
those parameters range over, and the free values: opaque constants, which no proof can evaluate. -/

namespace Sys2Proof

/-- The three ports (R8 `PORTS`). -/
inductive Port where
  | B | C | D
  deriving DecidableEq, Repr

/-- The 13 registers of the block by name (R30). -/
inductive Reg where
  | input (p : Port)
  | dir (p : Port)
  | out (p : Port)
  | twBitrate
  | twStatus
  | twData
  | twCtrl
  deriving DecidableEq, Repr

/-- What the world outside does to a pin: nothing, drive it low, drive it high (R40). -/
inductive Drive where
  | Z | L | H
  deriving DecidableEq, Repr

/-- Width of a register address inside the slave: one byte or two (R94 `rsz`). -/
inductive RegSize where
  | w8 | w16
  deriving DecidableEq, Repr

/-- An acknowledge bit on the two-wire bus (R44). -/
inductive Ack where
  | ack | nack
  deriving DecidableEq, Repr, Inhabited

/-- What the slave is asked to acknowledge: an address byte or a data byte (R211 `kind`). -/
inductive AckKind where
  | addr | data
  deriving DecidableEq, Repr

/-- Direction of a transfer: the R/W bit of the last address byte (R42 `dir`). -/
inductive Dir where
  | W | R
  deriving DecidableEq, Repr

/-- The events of the bus log (R44). -/
inductive BusEvent where
  | start
  | rstart
  | stop
  | addr (byte : Byte) (a : Ack)
  | tx (byte : Byte) (a : Ack)
  | rx (byte : Byte) (a : Ack)
  deriving DecidableEq, Repr

/-- The four control words the sequencer writes to `TW_CTRL` (R200). -/
inductive CtrlWord where
  | start | stop | xferNack | xferAck
  deriving DecidableEq, Repr

/-- How an Input-Snapshot read is answered (R8 `IN_MODEL`, R41). -/
inductive InModel where
  | instantaneous | free
  deriving DecidableEq, Repr

/-- When the bus engine takes an enabled step that the plan does not list (R213). `fair`: whenever the
sequencer waits for it (the premise "the bus engine is weakly fair"); `free`: a free value decides each
time; `stuck`: never ("a stuck peripheral or an unclocked bus"). -/
inductive EngineMode where
  | fair | free | stuck
  deriving DecidableEq, Repr

/-- The outcomes of an engine step when `BUS_FAULTS` is true (R212). -/
inductive EngineOutcome where
  | normal | arbLost | busError
  deriving DecidableEq, Repr, Inhabited

/-- The parameters of the example oracle `MEMSLAVE(s, w, MEM, acklimit)` (95_test_vectors section 3.1). -/
structure MemSlave where
  addr : BitVec 7
  ptrBytes : Nat
  mem : List (Nat × Byte)
  ackLimit : Option Nat
  deriving DecidableEq, Repr

/-- Which slave oracle answers when no answer is listed (R211): any function of the history, no slave at
all (`NOSLAVE`), or `MEMSLAVE`. -/
inductive Slave where
  | any
  | absent
  | mem (m : MemSlave)
  deriving DecidableEq, Repr

/-- The three register addresses of a port (R8 `A_IN`, `A_DIR`, `A_OUT`). -/
structure PortAddrs where
  input : Byte
  dir : Byte
  out : Byte
  deriving DecidableEq, Repr

/-- Bit positions in `TW_CTRL` (R8 `B_INT` to `B_IE`, R35). -/
structure CtrlBits where
  int : BitIx
  ea : BitIx
  sta : BitIx
  sto : BitIx
  wc : BitIx
  en : BitIx
  ie : BitIx
  deriving DecidableEq, Repr

/-- The status codes (R8 `ST_*`, R215). -/
structure StatusCodes where
  start : Byte
  rstart : Byte
  slawAck : Byte
  slawNack : Byte
  dataTxAck : Byte
  dataTxNack : Byte
  arbLost : Byte
  slarAck : Byte
  slarNack : Byte
  dataRxAck : Byte
  dataRxNack : Byte
  noinfo : Byte
  busError : Byte
  deriving DecidableEq, Repr

/-- What the block presents to a pad: output-enable, driven level, pull-up enable (R34). -/
structure PadOut where
  oe : Bool
  level : Bool
  pu : Bool
  deriving DecidableEq, Repr, Inhabited

/-- Every parameter of R8, two parameters of the step relation that R14 and R213 name (the slave oracle and the
engine's liveness), and the two pins of port C that share their pads with the two-wire bus, which R266 does not
name (log 23). No step changes one. The defaults are `Machine.defaultParams`. -/
structure Params where
  portB : PortAddrs
  portC : PortAddrs
  portD : PortAddrs
  twBitrate : Byte
  twStatus : Byte
  twData : Byte
  twCtrl : Byte
  bits : CtrlBits
  stMask : Byte
  st : StatusCodes
  resSuccess : Byte
  resError : Byte
  twOk : Byte
  bufSize : Nat
  bitopAtomic : Bool
  busFaults : Bool
  otherPresent : Bool
  inModel : InModel
  sdaPin : BitIx
  sclPin : BitIx
  slave : Slave
  engine : EngineMode
  deriving DecidableEq, Repr

/-- FREE VALUE (log 4): `SlaveAck(BUSLOG, kind, byte)` of the oracle `any` (R211). -/
opaque Config.slaveAck : List BusEvent → AckKind → Byte → Ack

/-- FREE VALUE (log 4): `SlaveData(BUSLOG)` of the oracle `any` (R211). -/
opaque Config.slaveData : List BusEvent → Byte

/-- FREE VALUE (log 5): the levels that the n-th read of an Input-Snapshot register draws for its
floating and contended pins, or for all of them when `IN_MODEL = free` (R41, U1, U2). -/
opaque Config.freeLevels : Nat → Byte

/-- FREE VALUE (log 3): whether an engine of mode `free` steps at the n-th occasion (R213, U16). -/
opaque Config.engineMoves : Nat → Bool

/-- FREE VALUE (log 6): the outcome of the n-th engine step under `BUS_FAULTS` (R212, U18). -/
opaque Config.faultOutcome : Nat → EngineOutcome

end Sys2Proof
end

