-- ==== Sys2Proof/Machine/Bits.lean ====
section
/-! DEFINITION. Bit helpers on bytes: test, one-hot mask, set, clear (R10, R71, R87). -/

namespace Sys2Proof.Machine

/-- `v[n]` (R10). -/
def testBit (v : Byte) (n : BitIx) : Bool := v.getLsbD n.toNat

/-- The mask `1 << n`, a byte with exactly one bit set (R87 (a)). -/
def oneHot (n : BitIx) : Byte := 1#8 <<< n.toNat

/-- `v OR (1 << n)` (R71). -/
def setBit (v : Byte) (n : BitIx) : Byte := v ||| oneHot n

/-- `v AND NOT (1 << n)` (R71). -/
def clearBit (v : Byte) (n : BitIx) : Byte := v &&& ~~~oneHot n

/-- `zext_8` of one bit (R11). -/
def bitByte (b : Bool) : Byte := if b then 1#8 else 0#8

/-- `1 << n` if the flag is set, else 0: one flag's share of a register byte. -/
def flagAt (b : Bool) (n : BitIx) : Byte := if b then oneHot n else 0#8

/-- The byte whose bit `n` is `f n`. -/
def byteOf (f : BitIx → Bool) : Byte :=
  flagAt (f 0) 0 ||| flagAt (f 1) 1 ||| flagAt (f 2) 2 ||| flagAt (f 3) 3 |||
  flagAt (f 4) 4 ||| flagAt (f 5) 5 ||| flagAt (f 6) 6 ||| flagAt (f 7) 7

end Sys2Proof.Machine
end

