-- ==== Sys2Proof/Machine/RegMap.lean ====
section
/-! DEFINITION. The default parameters of R8, the register map of R30 and R85, and the constraints every
choice of parameters meets. -/

namespace Sys2Proof.Machine

/-- The defaults of R8 (log 7: the addresses, bit positions and status codes are general knowledge, marked
so by R8 itself; the two bus pins are the family's, log 23). The slave is any oracle (R211) and the engine has no fairness (R213). -/
def defaultParams : Params where
  portB := { input := 0x23, dir := 0x24, out := 0x25 }
  portC := { input := 0x26, dir := 0x27, out := 0x28 }
  portD := { input := 0x29, dir := 0x2A, out := 0x2B }
  twBitrate := 0xB8
  twStatus := 0xB9
  twData := 0xBB
  twCtrl := 0xBC
  bits := { int := 7, ea := 6, sta := 5, sto := 4, wc := 3, en := 2, ie := 0 }
  stMask := 0xF8
  st :=
    { start := 0x08, rstart := 0x10, slawAck := 0x18, slawNack := 0x20, dataTxAck := 0x28,
      dataTxNack := 0x30, arbLost := 0x38, slarAck := 0x40, slarNack := 0x48, dataRxAck := 0x50,
      dataRxNack := 0x58, noinfo := 0xF8, busError := 0x00 }
  resSuccess := 0x00
  resError := 0x01
  twOk := 0x00
  bufSize := 256
  bitopAtomic := true
  busFaults := false
  otherPresent := false
  inModel := .instantaneous
  sdaPin := 4
  sclPin := 5
  slave := .any
  engine := .free

/-- The addresses of a port's three registers. -/
def portAddrs (par : Params) : Port → PortAddrs
  | .B => par.portB
  | .C => par.portC
  | .D => par.portD

/-- The address of a register (R30, R85). -/
def regAddr (par : Params) : Reg → Byte
  | .input p => (portAddrs par p).input
  | .dir p => (portAddrs par p).dir
  | .out p => (portAddrs par p).out
  | .twBitrate => par.twBitrate
  | .twStatus => par.twStatus
  | .twData => par.twData
  | .twCtrl => par.twCtrl

/-- The 13 registers in the order of R30. -/
def allRegs : List Reg :=
  [.input .B, .dir .B, .out .B, .input .C, .dir .C, .out .C, .input .D, .dir .D, .out .D,
   .twBitrate, .twStatus, .twData, .twCtrl]

/-- Address decode: the register at an address, none for every address that is not one of the 13 (R61). -/
def regAt (par : Params) (a : Byte) : Option Reg :=
  allRegs.find? fun r => regAddr par r == a

/-- The registers on which `BitSet` and `BitClear` are admitted (R71). -/
def plainStorage : Reg → Bool
  | .dir _ | .out _ | .twBitrate => true
  | .input _ | .twStatus | .twData | .twCtrl => false

/-- The bit positions of `TW_CTRL`, in the order of R8. -/
def ctrlBitList (b : CtrlBits) : List BitIx := [b.int, b.ea, b.sta, b.sto, b.wc, b.en, b.ie]

/-- The thirteen status codes, in the order of R215. -/
def statusList (c : StatusCodes) : List Byte :=
  [c.start, c.rstart, c.slawAck, c.slawNack, c.dataTxAck, c.dataTxNack, c.arbLost, c.slarAck,
   c.slarNack, c.dataRxAck, c.dataRxNack, c.noinfo, c.busError]

/-- The constraints of N2 on a choice of parameters: distinct addresses, distinct bit positions, distinct
status codes that survive `ST_MASK`, a mask whose low three bits are zero (R167, R215). -/
def paramsOk (par : Params) : Bool :=
  decide (allRegs.map (regAddr par)).Nodup
    && decide (ctrlBitList par.bits).Nodup
    && decide (statusList par.st).Nodup
    && (statusList par.st).all (fun v => v &&& par.stMask == v)
    && (par.stMask &&& 7#8 == 0#8)

end Sys2Proof.Machine
end

