-- ==== Sys2Proof/Syntax.lean ====
section
/-! DEFINITION. The abstract syntax: one constructor per row of the opcode table (R97, R200). -/

namespace Sys2Proof

/-- The commands of R97, three forms of `CFGPIN` apart, and the four control words of R200. Operands are
the fields of R92 to R96. -/
inductive Instr where
  /-- `SETBIT addr, bit` (R121). -/
  | setbit (addr : Byte) (bit : BitIx)
  /-- `CLRBIT addr, bit` (R122). -/
  | clrbit (addr : Byte) (bit : BitIx)
  /-- `TSTBIT addr, bit` (R123). -/
  | tstbit (addr : Byte) (bit : BitIx)
  /-- `CFGPIN port pin, OUT` (R132); `pu` is in the word and ignored (R93, R102). -/
  | cfgpinOut (port : Port) (pin : BitIx) (pu : Bool)
  /-- `CFGPIN port pin, INPU` (R133). -/
  | cfgpinInpu (port : Port) (pin : BitIx)
  /-- `CFGPIN port pin, IN` (R134). -/
  | cfgpinIn (port : Port) (pin : BitIx)
  /-- `WRPIN port pin, level` (R136). -/
  | wrpin (port : Port) (pin : BitIx) (level : Bool)
  /-- `TGLPIN port pin` (R137). -/
  | tglpin (port : Port) (pin : BitIx)
  /-- `RDPIN port pin` (R138). -/
  | rdpin (port : Port) (pin : BitIx)
  /-- `TWSTART` (R162). -/
  | twstart
  /-- `TWSTOP` (R163). -/
  | twstop
  /-- `TWTX byte` (R164). -/
  | twtx (byte : Byte)
  /-- `TWRX ack_more` (R165). -/
  | twrx (ackMore : Bool)
  /-- `TWREGA reg, size` (R166). -/
  | twrega (rsz : RegSize) (reg : BitVec 16)
  /-- `TWWRMEM slave, reg, size, length` (R181). -/
  | twwrmem (rsz : RegSize) (slave : BitVec 7) (length : Byte) (reg : BitVec 16)
  /-- `TWRDMEM slave, reg, size, length` (R183). -/
  | twrdmem (rsz : RegSize) (slave : BitVec 7) (length : Byte) (reg : BitVec 16)
  /-- The control word `CW_START`, written to `TW_CTRL` (R200, R201). -/
  | cwStart
  /-- The control word `CW_STOP` (R200, R201). -/
  | cwStop
  /-- The control word `CW_XFER_NACK` (R200, R201). -/
  | cwXferNack
  /-- The control word `CW_XFER_ACK` (R200, R201). -/
  | cwXferAck
  deriving DecidableEq, Repr

/-- The four pin states (R12). -/
inductive PinState where
  | outLow | outHigh | inPullupOn | inPullupOff
  deriving DecidableEq, Repr

end Sys2Proof
end

