-- ==== Sys2Proof/Decode.lean ====
section
/-! DEFINITION. The decoder of `CW40` and of the 8-bit control word, total and rejecting by name, and the
encoder written from the same tables (R90 to R102, R200, R202). -/

namespace Sys2Proof

/-- Why a word is no instruction (R99 to R101, R202, R237), or too few bytes. -/
inductive DecodeError where
  | reservedOpcode
  | reservedField
  | reservedPort
  | ctrlWordNotAdmitted
  | interruptEnableSet
  | truncated
  deriving DecidableEq, Repr

/-- Field `OP`, bits 39:32 (R90). -/
def fieldOp (w : Cw40) : Byte := w.extractLsb' 32 8
/-- Field `A`, bits 31:24 (R90). -/
def fieldA (w : Cw40) : Byte := w.extractLsb' 24 8
/-- Field `B`, bits 23:16 (R90). -/
def fieldB (w : Cw40) : Byte := w.extractLsb' 16 8
/-- Field `C`, bits 15:0 (R90). -/
def fieldC (w : Cw40) : BitVec 16 := w.extractLsb' 0 16

/-- The port codes: 0 = B, 1 = C, 2 = D, 3 reserved (R93, R101). -/
def portOf (c : BitVec 2) : Option Port :=
  if c = 0 then some .B else if c = 1 then some .C else if c = 2 then some .D else none

/-- The code of a port (R93). -/
def portCode : Port → BitVec 2
  | .B => 0
  | .C => 1
  | .D => 2

/-- `rsz`: 0 = 8-bit, 1 = 16-bit (R94). -/
def regSizeOf (b : Bool) : RegSize := if b then .w16 else .w8

/-- The bit of a register-address width (R94). -/
def regSizeBit : RegSize → Bool
  | .w8 => false
  | .w16 => true

/-- The instruction if the must-be-zero bits are zero, else `reserved_field` (R99). -/
def ifZero (mbz : Bool) (i : Instr) : Except DecodeError Instr :=
  if mbz then .ok i else .error .reservedField

/-- Format R (R91, R92): `addr = A`, `B` zero, `C[2:0] = bit`, `C[15:3]` zero. -/
def decodeR (w : Cw40) (mk : Byte → BitIx → Instr) : Except DecodeError Instr :=
  ifZero (fieldB w == 0 && (fieldC w).extractLsb' 3 13 == 0)
    (mk (fieldA w) ((fieldC w).extractLsb' 0 3))

/-- Format P (R91, R93): `A[1:0] = port`, `A[7:2]` zero, `B[2:0] = pin`, `B[7:3]` zero; `zeroC` says whether
the command's must-be-zero bits of `C` are zero. A non-zero field is named before a reserved port (log 12). -/
def decodeP (w : Cw40) (zeroC : Bool) (mk : Port → BitIx → Instr) : Except DecodeError Instr :=
  if (fieldA w).extractLsb' 2 6 == 0 && (fieldB w).extractLsb' 3 5 == 0 && zeroC then
    match portOf ((fieldA w).extractLsb' 0 2) with
    | some p => .ok (mk p ((fieldB w).extractLsb' 0 3))
    | none => .error .reservedPort
  else .error .reservedField

/-- Format M (R91, R95): `A[6:0] = slave`, `A[7] = rsz`, `length = B`, `reg = C`. -/
def decodeM (w : Cw40) (mk : RegSize → BitVec 7 → Byte → BitVec 16 → Instr) : Instr :=
  mk (regSizeOf ((fieldA w).getLsbD 7)) ((fieldA w).extractLsb' 0 7) (fieldB w) (fieldC w)

/-- The form of `CFGPIN` that `C[1:0]` chooses: `C[0] = 1` is OUT whatever `C[1]` is, 0b10 is INPU, 0b00 is
IN (R97). -/
def cfgpinForm (c : BitVec 16) (p : Port) (n : BitIx) : Instr :=
  if c.getLsbD 0 then .cfgpinOut p n (c.getLsbD 1)
  else if c.getLsbD 1 then .cfgpinInpu p n
  else .cfgpinIn p n

/-- The decoder of a command word (R97, R99 to R101). -/
def decode (w : Cw40) : Except DecodeError Instr :=
  let a := fieldA w
  let b := fieldB w
  let c := fieldC w
  if fieldOp w = 0x01 then decodeR w .setbit
  else if fieldOp w = 0x02 then decodeR w .clrbit
  else if fieldOp w = 0x03 then decodeR w .tstbit
  else if fieldOp w = 0x10 then decodeP w (c.extractLsb' 2 14 == 0) (cfgpinForm c)
  else if fieldOp w = 0x11 then
    decodeP w (c.extractLsb' 1 15 == 0) (fun p n => .wrpin p n (c.getLsbD 0))
  else if fieldOp w = 0x12 then decodeP w (c == 0) .tglpin
  else if fieldOp w = 0x13 then decodeP w (c == 0) .rdpin
  else if fieldOp w = 0x20 then ifZero (a == 0 && b == 0 && c == 0) .twstart
  else if fieldOp w = 0x21 then ifZero (a == 0 && b == 0 && c == 0) .twstop
  else if fieldOp w = 0x22 then
    ifZero (a == 0 && b == 0 && c.extractLsb' 8 8 == 0) (.twtx (c.extractLsb' 0 8))
  else if fieldOp w = 0x23 then
    ifZero (a == 0 && b == 0 && c.extractLsb' 1 15 == 0) (.twrx (c.getLsbD 0))
  else if fieldOp w = 0x24 then
    ifZero (a.extractLsb' 1 7 == 0 && b == 0) (.twrega (regSizeOf (a.getLsbD 0)) c)
  else if fieldOp w = 0x28 then .ok (decodeM w .twwrmem)
  else if fieldOp w = 0x29 then .ok (decodeM w .twrdmem)
  else .error .reservedOpcode

/-- The value of a control word: a 1 in the `INT` and `EN` positions and in the position the word is for
(R200). -/
def ctrlWordByte (b : CtrlBits) (w : CtrlWord) : Byte :=
  Machine.oneHot b.int ||| Machine.oneHot b.en |||
    match w with
    | .start => Machine.oneHot b.sta
    | .stop => Machine.oneHot b.sto
    | .xferNack => 0#8
    | .xferAck => Machine.oneHot b.ea

/-- The decoder of a byte written to `TW_CTRL`: one of the four words, else a refusal; a byte that sets the
interrupt enable has a refusal of its own (R200, R202, R237). -/
def decodeCtrlWord (b : CtrlBits) (v : Byte) : Except DecodeError CtrlWord :=
  if Machine.testBit v b.ie then .error .interruptEnableSet
  else if v = ctrlWordByte b .start then .ok .start
  else if v = ctrlWordByte b .stop then .ok .stop
  else if v = ctrlWordByte b .xferNack then .ok .xferNack
  else if v = ctrlWordByte b .xferAck then .ok .xferAck
  else .error .ctrlWordNotAdmitted

/-- A control word as an instruction of the table (R98). -/
def ctrlInstr : CtrlWord → Instr
  | .start => .cwStart
  | .stop => .cwStop
  | .xferNack => .cwXferNack
  | .xferAck => .cwXferAck

/-- The decoder of a byte written to `TW_CTRL`, as an instruction. -/
def decodeCtrl (b : CtrlBits) (v : Byte) : Except DecodeError Instr :=
  (decodeCtrlWord b v).map ctrlInstr

/-- A stored `CW40`: byte 0 is `CW40[39:32]`, most significant byte first (R73); the rest of the list comes
back. -/
def decodeBytes : List Byte → Except DecodeError (Instr × List Byte)
  | b0 :: b1 :: b2 :: b3 :: b4 :: rest => (decode (b0 ++ b1 ++ b2 ++ b3 ++ b4)).map fun i => (i, rest)
  | _ => .error .truncated

/-- The two carriers of an instruction: a command word of the program, or a byte for `TW_CTRL` (R98). -/
inductive Code where
  | cw40 (w : Cw40)
  | twcw (v : Byte)
  deriving DecidableEq, Repr

/-- `CW40 = {OP, A, B, C}` (R90). -/
def cw40 (op a b : Byte) (c : BitVec 16) : Cw40 := op ++ a ++ b ++ c

/-- `A` of format P: the port code under six zero bits (R91). -/
def encPort (p : Port) : Byte := 0#6 ++ portCode p

/-- `B` of format P: the pin-index under five zero bits (R91). -/
def encPin (n : BitIx) : Byte := 0#5 ++ n

/-- `A` of format M: `{rsz, slave}` (R91). -/
def encSlave (rsz : RegSize) (slave : BitVec 7) : Byte := BitVec.ofBool (regSizeBit rsz) ++ slave

/-- The encoder (R90 to R97, R200). -/
def encode (par : Params) : Instr → Code
  | .setbit addr bit => .cw40 (cw40 0x01 addr 0 (0#13 ++ bit))
  | .clrbit addr bit => .cw40 (cw40 0x02 addr 0 (0#13 ++ bit))
  | .tstbit addr bit => .cw40 (cw40 0x03 addr 0 (0#13 ++ bit))
  | .cfgpinOut p n pu => .cw40 (cw40 0x10 (encPort p) (encPin n) (0#14 ++ BitVec.ofBool pu ++ 1#1))
  | .cfgpinInpu p n => .cw40 (cw40 0x10 (encPort p) (encPin n) 2)
  | .cfgpinIn p n => .cw40 (cw40 0x10 (encPort p) (encPin n) 0)
  | .wrpin p n l => .cw40 (cw40 0x11 (encPort p) (encPin n) (0#15 ++ BitVec.ofBool l))
  | .tglpin p n => .cw40 (cw40 0x12 (encPort p) (encPin n) 0)
  | .rdpin p n => .cw40 (cw40 0x13 (encPort p) (encPin n) 0)
  | .twstart => .cw40 (cw40 0x20 0 0 0)
  | .twstop => .cw40 (cw40 0x21 0 0 0)
  | .twtx v => .cw40 (cw40 0x22 0 0 (0#8 ++ v))
  | .twrx more => .cw40 (cw40 0x23 0 0 (0#15 ++ BitVec.ofBool more))
  | .twrega rsz reg => .cw40 (cw40 0x24 (0#7 ++ BitVec.ofBool (regSizeBit rsz)) 0 reg)
  | .twwrmem rsz slave n reg => .cw40 (cw40 0x28 (encSlave rsz slave) n reg)
  | .twrdmem rsz slave n reg => .cw40 (cw40 0x29 (encSlave rsz slave) n reg)
  | .cwStart => .twcw (ctrlWordByte par.bits .start)
  | .cwStop => .twcw (ctrlWordByte par.bits .stop)
  | .cwXferNack => .twcw (ctrlWordByte par.bits .xferNack)
  | .cwXferAck => .twcw (ctrlWordByte par.bits .xferAck)

/-- The decoder of either carrier. -/
def decodeCode (par : Params) : Code → Except DecodeError Instr
  | .cw40 w => decode w
  | .twcw v => decodeCtrl par.bits v

/-- The bytes of an encoded instruction, most significant first (R73). -/
def codeBytes : Code → List Byte
  | .cw40 w => [w.extractLsb' 32 8, w.extractLsb' 24 8, w.extractLsb' 16 8, w.extractLsb' 8 8,
      w.extractLsb' 0 8]
  | .twcw v => [v]

/-- What this decoder reads from the opcode table's numbering of an instruction: 8 bits are a control word
under the default bit positions, more bits are a command word, whose bit 0 is `C[0]`. -/
def decodeTableWord (nbits w : Nat) : Option Instr :=
  if nbits = 8 then (decodeCtrl Machine.defaultParams.bits (BitVec.ofNat 8 w)).toOption
  else (decode (BitVec.ofNat 40 w)).toOption

/-- The mnemonic of an instruction, as the opcode table has it. -/
def mnemonic : Instr → String
  | .setbit _ _ => "SETBIT"
  | .clrbit _ _ => "CLRBIT"
  | .tstbit _ _ => "TSTBIT"
  | .cfgpinOut _ _ _ => "CFGPIN.OUT"
  | .cfgpinInpu _ _ => "CFGPIN.INPU"
  | .cfgpinIn _ _ => "CFGPIN.IN"
  | .wrpin _ _ _ => "WRPIN"
  | .tglpin _ _ => "TGLPIN"
  | .rdpin _ _ => "RDPIN"
  | .twstart => "TWSTART"
  | .twstop => "TWSTOP"
  | .twtx _ => "TWTX"
  | .twrx _ => "TWRX"
  | .twrega _ _ => "TWREGA"
  | .twwrmem _ _ _ _ => "TWWRMEM"
  | .twrdmem _ _ _ _ => "TWRDMEM"
  | .cwStart => "CW_START"
  | .cwStop => "CW_STOP"
  | .cwXferNack => "CW_XFER_NACK"
  | .cwXferAck => "CW_XFER_ACK"

/-- A row of the opcode map of R97: a word selects it when `w AND mask = match`, and, for format P, when the port
code is not 3. -/
structure OpcodeRow where
  name : String
  isP : Bool
  pattern : Cw40
  mask : Cw40
  deriving DecidableEq, Repr

/-- The opcode map, row by row as R97 prints it. -/
def opcodeRows : List OpcodeRow :=
  [⟨"SETBIT", false, 0x0100000000, 0xFF00FFFFF8⟩,
   ⟨"CLRBIT", false, 0x0200000000, 0xFF00FFFFF8⟩,
   ⟨"TSTBIT", false, 0x0300000000, 0xFF00FFFFF8⟩,
   ⟨"CFGPIN.OUT", true, 0x1000000001, 0xFFFCF8FFFD⟩,
   ⟨"CFGPIN.INPU", true, 0x1000000002, 0xFFFCF8FFFF⟩,
   ⟨"CFGPIN.IN", true, 0x1000000000, 0xFFFCF8FFFF⟩,
   ⟨"WRPIN", true, 0x1100000000, 0xFFFCF8FFFE⟩,
   ⟨"TGLPIN", true, 0x1200000000, 0xFFFCF8FFFF⟩,
   ⟨"RDPIN", true, 0x1300000000, 0xFFFCF8FFFF⟩,
   ⟨"TWSTART", false, 0x2000000000, 0xFFFFFFFFFF⟩,
   ⟨"TWSTOP", false, 0x2100000000, 0xFFFFFFFFFF⟩,
   ⟨"TWTX", false, 0x2200000000, 0xFFFFFFFF00⟩,
   ⟨"TWRX", false, 0x2300000000, 0xFFFFFFFFFE⟩,
   ⟨"TWREGA", false, 0x2400000000, 0xFFFEFF0000⟩,
   ⟨"TWWRMEM", false, 0x2800000000, 0xFF00000000⟩,
   ⟨"TWRDMEM", false, 0x2900000000, 0xFF00000000⟩]

/-- Whether a word selects a row (R97). -/
def rowSelected (w : Cw40) (row : OpcodeRow) : Bool :=
  w &&& row.mask == row.pattern && !(row.isP && (fieldA w).extractLsb' 0 2 == 3)

end Sys2Proof
end

