-- ==== Sys2Proof/Machine/State.lean ====
section
/-! DEFINITION. The state of the block as plain data (R20), the turns of the agents, the reasons a step can
stop, and the state right after reset (R261). -/

namespace Sys2Proof.Machine

/-- A port's stored registers (R31, R32) and what the world does to its pins (R40). `IN` is a view of them
and is not stored (R33). -/
structure PortRegs where
  dir : Byte
  out : Byte
  ext : Vector Drive 8
  deriving DecidableEq, Repr

/-- `TW_CTRL` by its named bits (R35); the bit positions are parameters, bit 1 is reserved and reads 0. -/
structure TwCtrl where
  int : Bool
  ea : Bool
  sta : Bool
  sto : Bool
  wc : Bool
  en : Bool
  ie : Bool
  deriving DecidableEq, Repr

/-- Where the master is in a transaction (R42, R43). -/
inductive Phase where
  | idle | startSent | addrSent | dataSent | dataReceived | stop
  deriving DecidableEq, Repr

/-- The operation the last control write launched and the engine has not yet done (R42). -/
inductive Pending where
  | none | start | stop | xfer
  deriving DecidableEq, Repr

/-- A response record `{code, data}`, 16 bits (R27). -/
structure Response where
  code : Byte
  data : Byte
  deriving DecidableEq, Repr

/-- A register-bus operation of the agent `Other` (R60, R75). -/
inductive BusOp where
  | read (a : Byte)
  | write (a : Byte) (v : Byte)
  | bitSet (a : Byte) (b : BitIx)
  | bitClear (a : Byte) (b : BitIx)
  deriving DecidableEq, Repr

/-- One turn of one agent (R13, R74): the sequencer, the bus engine, the pad environment setting a pin,
`Other`, the host writing a byte of `BUF` (R45), the reset input (R260). -/
inductive Turn where
  | seq
  | engine
  | pad (p : Port) (n : BitIx) (e : Drive)
  | other (op : BusOp)
  | host (i : Nat) (v : Byte)
  | reset
  deriving DecidableEq, Repr

/-- The state. The first group is no state of the block but what R14 makes a parameter of the step relation
(log 2 to 7): `par` and `prog` never change; `plan` says which agents move next; `acks`, `bytes`, `outcomes`
are the next answers of the environment and `draws` counts the free values taken. -/
structure State where
  par : Params
  prog : List Cw40
  plan : List Turn
  acks : List Ack
  bytes : List Byte
  outcomes : List EngineOutcome
  draws : Nat
  /-- Port registers and pads (R31, R32, R40). -/
  portB : PortRegs
  portC : PortRegs
  portD : PortRegs
  /-- `TW_CTRL` (R35). -/
  ctrl : TwCtrl
  /-- `TW_STATUS[7:3]` (R36). -/
  twCode : BitVec 5
  /-- `TW_STATUS[1:0]` (R36). -/
  ps : BitVec 2
  /-- `TW_DATA` (R37). -/
  twData : Byte
  /-- `TW_BITRATE` (R38). -/
  twBitrate : Byte
  /-- The bus engine (R42). -/
  phase : Phase
  dir : Dir
  nack : Bool
  pending : Pending
  /-- The sequencer's latches (R22), and `t` of the pseudocode (R72, R123, R138; log 11). -/
  cmd : Cw40
  snapD : Bool
  snapL : Bool
  st : Byte
  cnt : Byte
  rxb : Byte
  tmp : Byte
  /-- Index of the command being executed or next to execute (R28). -/
  pc : Nat
  /-- 0 when idle, else the number of the next line of the command's pseudocode (R29). -/
  upc : Nat
  /-- The response log, oldest first (R27). -/
  rsp : List Response
  /-- The bus event log, oldest first (R44). -/
  buslog : List BusEvent
  /-- The payload buffer: the bytes that differ from what an unlisted index reads as, by rising index (R45). -/
  buf : List Host.Cell
  deriving DecidableEq, Repr

/-- The reasons the machine stops with a fault. The block itself has none (R15, R230). -/
inductive Fault where
  /-- Raised when `upc` names no line of the command in `CMD`: a state no run reaches. Safe: the spec gives
  such a state no next step (log 19). -/
  | noSuchLine
  deriving DecidableEq, Repr

/-- The refusals of R104, by name, and the rejection of an instruction not yet modelled. A refusal is safe:
nothing can be proved of what follows it. -/
inductive Refusal where
  /-- No instruction of this model raises it: every arm of `exec` has a meaning. Safe. -/
  | notModelled (mnemonic : String)
  /-- Raised at decode: `OP` names no command (R100). Safe. -/
  | reservedOpcode
  /-- Raised at decode: a must-be-zero bit is 1 (R99). Safe. -/
  | reservedField
  /-- Raised at decode: port code 3 (R101). Safe. -/
  | reservedPort
  /-- Raised by a register-bus operation on an address that is none of the 13 (R61). Safe. -/
  | unmappedAddress
  /-- Raised by a bit operation on a register whose write has side effects (R71). Safe. -/
  | bitopOnSideEffectRegister
  /-- Raised by a write of `TW_DATA` while `INT` = 0 (R37, R68). Safe. -/
  | dataWriteWhileBusy
  /-- Raised by `TWWRMEM` and `TWRDMEM` whose payload exceeds the buffer (R86). Safe. -/
  | lengthExceedsBuffer
  /-- Raised by a write to `TW_CTRL` of a byte that is no control word (R202). Safe. -/
  | ctrlWordNotAdmitted
  /-- Raised by a control write while an operation other than a stop is pending (R201). Safe. -/
  | ctrlWriteWhilePending
  /-- Raised by the engine: a transfer after a NACK in read direction (R209). Safe. -/
  | xferAfterReadNack
  /-- Raised by a write to `TW_CTRL` that sets the interrupt enable (R237). Safe. -/
  | interruptEnableSet
  deriving DecidableEq, Repr

/-- What a port holds right after reset (R261); the pads belong to the environment, Z here (log 10). -/
def PortRegs.reset : PortRegs where
  dir := 0
  out := 0
  ext := Vector.replicate 8 .Z

/-- `TW_CTRL` right after reset, 0x00 (R261). -/
def TwCtrl.reset : TwCtrl where
  int := false
  ea := false
  sta := false
  sto := false
  wc := false
  en := false
  ie := false

/-- The state right after reset (R260, R261). No program is loaded (R262; log 17). The latches hold zeros
(log 8, 11), the buffer lists nothing (log 9), the environment's fields list nothing (log 2, 4, 6). -/
def State.reset : State where
  par := defaultParams
  prog := []
  plan := []
  acks := []
  bytes := []
  outcomes := []
  draws := 0
  portB := .reset
  portC := .reset
  portD := .reset
  ctrl := .reset
  twCode := 0
  ps := 0
  twData := 0
  twBitrate := 0
  phase := .idle
  dir := .W
  nack := false
  pending := .none
  cmd := 0
  snapD := false
  snapL := false
  st := 0
  cnt := 0
  rxb := 0
  tmp := 0
  pc := 0
  upc := 0
  rsp := []
  buslog := []
  buf := []

end Sys2Proof.Machine
end

