-- ==== Sys2Proof/Machine/Ops.lean ====
section
/-! DEFINITION. The named operations over registers, buffer, logs and free values: every read and write of a
register goes through `regRead` and `regWrite` (R60 to R70), every bit operation through `bitSetReg` and
`bitClearReg` (R71). The block has no exception (R230); the abort of R185 is code of `TwiTrans`. -/

namespace Sys2Proof.Machine

/-- What an agent's attempt at one indivisible step answers: it happened, it is held (R203, R161), or the
situation has no meaning (R104). -/
inductive Attempt where
  | done (s : State)
  | held (s : State)
  | refused (r : Refusal)
  deriving DecidableEq, Repr

/-- The refusal a decoding error is (R104). -/
def decodeRefusal : DecodeError → Refusal
  | .reservedOpcode => .reservedOpcode
  | .reservedField => .reservedField
  | .reservedPort => .reservedPort
  | .ctrlWordNotAdmitted => .ctrlWordNotAdmitted
  | .interruptEnableSet => .interruptEnableSet
  | .truncated => .reservedOpcode

/-! ### The payload buffer -/

/-- What an index of `BUF` reads as when nothing lists it (log 9). -/
def bufDefault : Byte := 0

/-- The byte a cell list holds at an index. -/
def Memory.read : List Host.Cell → Nat → Byte
  | [], _ => bufDefault
  | (b, w) :: m, a => if a = b then w else Memory.read m a

/-- The cell list with one byte changed, in the canonical form. -/
def Memory.write : List Host.Cell → Nat → Byte → List Host.Cell
  | [], a, v => if v = bufDefault then [] else [(a, v)]
  | (b, w) :: m, a, v =>
    if a < b then (if v = bufDefault then (b, w) :: m else (a, v) :: (b, w) :: m)
    else if a = b then (if v = bufDefault then m else (a, v) :: m)
    else (b, w) :: Memory.write m a v

/-- The canonical form: indexes strictly rising, no cell equal to what an unlisted index reads as. -/
def Memory.wf (m : List Host.Cell) : Bool :=
  decide (m.Pairwise fun x y => x.1 < y.1) && m.all fun c => c.2 != bufDefault

/-- `BufRead(i)` (R86); the commands that use it keep `i < length <= BUF_SIZE`. -/
def bufRead (i : Nat) (s : State) : Byte := Memory.read s.buf i

/-- `BufWrite(i, v)` (R86). -/
def bufWrite (i : Nat) (v : Byte) (s : State) : State := { s with buf := Memory.write s.buf i v }

/-! ### Ports and pads -/

/-- The registers and pads of a port. -/
def getPort (s : State) : Port → PortRegs
  | .B => s.portB
  | .C => s.portC
  | .D => s.portD

/-- The state with a port's registers and pads replaced. -/
def setPort (s : State) (p : Port) (r : PortRegs) : State :=
  match p with
  | .B => { s with portB := r }
  | .C => { s with portC := r }
  | .D => { s with portD := r }

/-- `EXT[p][n]` (R40). -/
def extAt (r : PortRegs) (n : BitIx) : Drive := r.ext[n.toNat]'(n.isLt)

/-- The pad environment sets a pin (R40). -/
def setExt (p : Port) (n : BitIx) (e : Drive) (s : State) : State :=
  let r := getPort s p
  setPort s p { r with ext := r.ext.set n.toNat e n.isLt }

/-- `PinLevel` of one pin from its Direction bit, Output-Level bit and external drive; `x` is the value
drawn for it, used where the level is open (R41). -/
def pinLevel (m : InModel) (d l : Bool) (e : Drive) (x : Bool) : Bool :=
  match m, d, e with
  | .free, _, _ => x
  | .instantaneous, true, .Z => l
  | .instantaneous, true, .L => if l then x else l
  | .instantaneous, true, .H => if l then l else x
  | .instantaneous, false, .L => false
  | .instantaneous, false, .H => true
  | .instantaneous, false, .Z => if l then true else x

/-- The byte a read of `IN[p]` returns, with the drawn levels `x` (R33, R64). -/
def inByte (m : InModel) (r : PortRegs) (x : Byte) : Byte :=
  byteOf fun n => pinLevel m (testBit r.dir n) (testBit r.out n) (extAt r n) (testBit x n)

/-! ### Views of the TWI control and status registers -/

/-- `RegRead(A_TW_CTRL)`: `{INT, EA, STA, STO, WC, EN, 0, IE}` at the parameters' positions (R69). -/
def ctrlByte (b : CtrlBits) (c : TwCtrl) : Byte :=
  flagAt c.int b.int ||| flagAt c.ea b.ea ||| flagAt c.sta b.sta ||| flagAt c.sto b.sto |||
  flagAt c.wc b.wc ||| flagAt c.en b.en ||| flagAt c.ie b.ie

/-- `RegRead(A_TW_STATUS)`: `{code[7:3], 0, PS[1:0]}` (R36, R67). -/
def statusByte (s : State) : Byte := s.twCode ++ 0#1 ++ s.ps

/-- `code <- v`: the status field takes bits 7:3 of a status code (R36). -/
def setCode (v : Byte) (s : State) : State := { s with twCode := v.extractLsb' 3 5 }

/-! ### The register bus -/

/-- `RegRead` of a register: the byte, and the state after; only a read of `IN` draws levels (R62 to R69). -/
def regRead (r : Reg) (s : State) : Byte × State :=
  match r with
  | .dir p => ((getPort s p).dir, s)
  | .out p => ((getPort s p).out, s)
  | .input p =>
    (inByte s.par.inModel (getPort s p) (Config.freeLevels s.draws), { s with draws := s.draws + 1 })
  | .twBitrate => (s.twBitrate, s)
  | .twStatus => (statusByte s, s)
  | .twData => (s.twData, s)
  | .twCtrl => (ctrlByte s.par.bits s.ctrl, s)

/-- The control write of an admitted word, in one step: held while a stop is on its way (R203), refused while
another operation is pending, else it stores the bits, clears `INT` and launches (R201). -/
def ctrlWrite (w : CtrlWord) (s : State) : Attempt :=
  if s.phase = .stop then .held s
  else if s.pending ≠ .none then .refused .ctrlWriteWhilePending
  else
    let c : TwCtrl :=
      { s.ctrl with
        int := false, ea := decide (w = .xferAck), sta := decide (w = .start),
        sto := decide (w = .stop), en := true, ie := false }
    match w with
    | .start => .done { s with ctrl := c, pending := .start }
    | .stop => .done { s with ctrl := c, pending := .stop, phase := .stop }
    | .xferNack => .done { s with ctrl := c, pending := .xfer }
    | .xferAck => .done { s with ctrl := c, pending := .xfer }

/-- `RegWrite` of a register (R62 to R70). -/
def regWrite (r : Reg) (v : Byte) (s : State) : Attempt :=
  match r with
  | .dir p => .done (setPort s p { getPort s p with dir := v })
  | .out p => .done (setPort s p { getPort s p with out := v })
  | .input p => .done (setPort s p { getPort s p with out := (getPort s p).out ^^^ v })
  | .twBitrate => .done { s with twBitrate := v }
  | .twStatus => .done { s with ps := v.extractLsb' 0 2 }
  | .twData => if s.ctrl.int then .done { s with twData := v } else .refused .dataWriteWhileBusy
  | .twCtrl =>
    match decodeCtrlWord s.par.bits v with
    | .ok w => ctrlWrite w s
    | .error e => .refused (decodeRefusal e)

/-- `BitSet` as one step (R71). -/
def bitSetReg (r : Reg) (b : BitIx) (s : State) : Attempt :=
  if plainStorage r then regWrite r (setBit (regRead r s).1 b) s
  else .refused .bitopOnSideEffectRegister

/-- `BitClear` as one step (R71). -/
def bitClearReg (r : Reg) (b : BitIx) (s : State) : Attempt :=
  if plainStorage r then regWrite r (clearBit (regRead r s).1 b) s
  else .refused .bitopOnSideEffectRegister

/-! ### Responses and bus events -/

/-- `respond(code, data)`: the record is appended, the sequencer is idle, `pc` advances by 1 (R27, R28). -/
def respond (code data : Byte) (s : State) : State :=
  { s with rsp := s.rsp ++ [{ code := code, data := data }], upc := 0, pc := s.pc + 1 }

/-- `emit e` (R11, R44). -/
def emit (e : BusEvent) (s : State) : State := { s with buslog := s.buslog ++ [e] }

/-- The reset input, in one step whatever the agents were doing (R260, R261). The parameters, the program, the
plan and the environment's answers are no state of the block, `BUF` and `EXT` are not reset (log 22). -/
def applyReset (s : State) : State :=
  { State.reset with
    par := s.par, prog := s.prog, plan := s.plan, acks := s.acks, bytes := s.bytes,
    outcomes := s.outcomes, draws := s.draws,
    portB := { PortRegs.reset with ext := s.portB.ext },
    portC := { PortRegs.reset with ext := s.portC.ext },
    portD := { PortRegs.reset with ext := s.portD.ext },
    buf := s.buf }

end Sys2Proof.Machine
end

