-- ==== Sys2Proof/Machine/Flags.lean ====
section
/-! DEFINITION. The block's flags (R24): the interrupt flag, the stop bit, and the status code that commands
compare. There are no condition codes. -/

namespace Sys2Proof.Machine

/-- `RegRead(A_TW_CTRL)[B_INT]`, what a poll reads (R161). -/
def intFlag (s : State) : Bool := testBit (regRead .twCtrl s).1 s.par.bits.int

/-- `status()`: the status register under `ST_MASK` (R167). -/
def statusCode (s : State) : Byte := (regRead .twStatus s).1 &&& s.par.stMask

/-- `INT <- 1; pending <- none`: the completion of an operation of the engine (R204, R206 to R208). -/
def complete (s : State) : State := { s with ctrl := { s.ctrl with int := true }, pending := .none }

/-- `STO <- 0`: the stop bit clears itself when the stop is done (R205). -/
def clearSto (s : State) : State := { s with ctrl := { s.ctrl with sto := false } }

end Sys2Proof.Machine
end

