-- ==== Sys2Proof/Machine/SlaveOracle.lean ====
section
/-! DEFINITION. The slave oracle (R211): the listed answers first, then the oracle the parameters name, which
is any function of the history, no slave, or the example `MEMSLAVE` of 95_test_vectors section 3.1. -/

namespace Sys2Proof.Machine

/-- The slave state `(sel, k, t, ptr, MEM)` that `MEMSLAVE` replays the log over. -/
structure SlaveState where
  sel : Option Dir
  k : Nat
  t : Nat
  ptr : Nat
  mem : List (Nat × Byte)
  deriving DecidableEq, Repr

/-- `MEM[ptr]`, 0xFF where missing. -/
def slaveMemAt (m : List (Nat × Byte)) (a : Nat) : Byte := (m.lookup a).getD 0xFF

/-- One event of the log replayed. -/
def slaveEvent (w : Nat) (q : SlaveState) : BusEvent → SlaveState
  | .start => { q with sel := none }
  | .rstart => { q with sel := none }
  | .stop => { q with sel := none }
  | .addr b a =>
    { q with
      k := 0, t := 0,
      sel := if a = .ack then some (if b.getLsbD 0 then .R else .W) else none }
  | .tx b a =>
    if q.sel = some .W ∧ a = .ack then
      if q.k < w then
        { q with t := q.t + 1, k := q.k + 1, ptr := if q.k = 0 then b.toNat else q.ptr * 256 + b.toNat }
      else
        { q with t := q.t + 1, mem := (q.ptr, b) :: q.mem, ptr := (q.ptr + 1) % 2 ^ (8 * w) }
    else { q with t := q.t + 1 }
  | .rx _ a =>
    if q.sel = some .R then
      { q with ptr := (q.ptr + 1) % 2 ^ (8 * w), sel := if a = .nack then none else q.sel }
    else q

/-- The slave state after a log. -/
def slaveReplay (m : MemSlave) (log : List BusEvent) : SlaveState :=
  log.foldl (slaveEvent m.ptrBytes) { sel := none, k := 0, t := 0, ptr := 0, mem := m.mem }

/-- `SlaveAck(BUSLOG, data, b)` of `MEMSLAVE`: selected for writing and below the limit. -/
def memSlaveDataAck (m : MemSlave) (log : List BusEvent) : Bool :=
  let q := slaveReplay m log
  decide (q.sel = some .W) &&
    match m.ackLimit with
    | none => true
    | some n => decide (q.t < n)

/-- `SlaveAck(BUSLOG, kind, byte)` of the named oracle. -/
def slaveAckOf (o : Slave) (log : List BusEvent) (k : AckKind) (b : Byte) : Ack :=
  match o, k with
  | .any, k => Config.slaveAck log k b
  | .absent, _ => .nack
  | .mem m, .addr => if b.extractLsb' 1 7 = m.addr then .ack else .nack
  | .mem m, .data => if memSlaveDataAck m log then .ack else .nack

/-- `SlaveData(BUSLOG)` of the named oracle. -/
def slaveDataOf (o : Slave) (log : List BusEvent) : Byte :=
  match o with
  | .any => Config.slaveData log
  | .absent => 0xFF
  | .mem m =>
    let q := slaveReplay m log
    if q.sel = some .R then slaveMemAt q.mem q.ptr else 0xFF

/-- `draw ack from SlaveAck(BUSLOG, k, b)`: the answer and the state after the draw (log 4). -/
def drawAck (k : AckKind) (b : Byte) (s : State) : Ack × State :=
  match s.acks with
  | a :: rest => (a, { s with acks := rest })
  | [] => (slaveAckOf s.par.slave s.buslog k b, s)

/-- `draw b from SlaveData(BUSLOG)`: the byte and the state after the draw (log 4). -/
def drawByte (s : State) : Byte × State :=
  match s.bytes with
  | b :: rest => (b, { s with bytes := rest })
  | [] => (slaveDataOf s.par.slave s.buslog, s)

/-- The outcome of an engine step under `BUS_FAULTS`, and the state after the draw (R212; log 6). -/
def drawOutcome (s : State) : EngineOutcome × State :=
  match s.outcomes with
  | o :: rest => (o, { s with outcomes := rest })
  | [] => (Config.faultOutcome s.draws, { s with draws := s.draws + 1 })

end Sys2Proof.Machine
end

