-- ==== Sys2Proof/Machine/Engine.lean ====
section
/-! DEFINITION. The TWI bus engine: what a launched operation does on the bus, each as one indivisible step
(R204 to R210), the bus faults (R212), and when the engine steps (R213). -/

namespace Sys2Proof.Machine

/-- A start or repeated start (R204). -/
def engineStart (s : State) : State :=
  let s1 :=
    if s.phase = .idle then setCode s.par.st.start (emit .start s)
    else setCode s.par.st.rstart (emit .rstart s)
  complete { s1 with phase := .startSent, nack := false }

/-- A stop; the flag is not set (R205). -/
def engineStop (s : State) : State :=
  let s1 := clearSto (emit .stop s)
  setCode s.par.st.noinfo { s1 with phase := .idle, nack := false, pending := .none }

/-- The status of an address byte from its direction and its acknowledge (R206). -/
def addressStatus (c : StatusCodes) : Dir → Ack → Byte
  | .W, .ack => c.slawAck
  | .W, .nack => c.slawNack
  | .R, .ack => c.slarAck
  | .R, .nack => c.slarNack

/-- The R/W bit of an address byte, bit 0, 1 = read (R206). -/
def byteDir (b : Byte) : Dir := if b.getLsbD 0 then .R else .W

/-- The address transfer (R206). -/
def engineAddress (s : State) : State :=
  let b := s.twData
  let (a, s1) := drawAck .addr b s
  let s2 := setCode (addressStatus s.par.st (byteDir b) a) (emit (.addr b a) s1)
  complete { s2 with dir := byteDir b, nack := decide (a = .nack), phase := .addrSent }

/-- The data transmit (R207). -/
def engineTransmit (s : State) : State :=
  let b := s.twData
  let (a, s1) := drawAck .data b s
  let s2 := setCode (if a = .ack then s.par.st.dataTxAck else s.par.st.dataTxNack) (emit (.tx b a) s1)
  complete { s2 with nack := decide (a = .nack), phase := .dataSent }

/-- The data receive; this master answers ACK or NACK by `EA` (R208). -/
def engineReceive (s : State) : State :=
  let (b, s1) := drawByte s
  let a : Ack := if s.ctrl.ea then .ack else .nack
  let s2 := setCode (if s.ctrl.ea then s.par.st.dataRxAck else s.par.st.dataRxNack) (emit (.rx b a) s1)
  complete { s2 with twData := b, nack := !s.ctrl.ea, phase := .dataReceived }

/-- Arbitration lost (R212 (a)). -/
def engineArbLost (s : State) : State :=
  complete { setCode s.par.st.arbLost s with phase := .idle, nack := false }

/-- Bus error (R212 (b)). -/
def engineBusError (s : State) : State := complete (setCode s.par.st.busError s)

/-- A completion step with the two further outcomes that `BUS_FAULTS` allows (R212). -/
def withFaults (normal : State → State) (s : State) : State :=
  if s.par.busFaults then
    match drawOutcome s with
    | (.normal, s1) => normal s1
    | (.arbLost, s1) => engineArbLost s1
    | (.busError, s1) => engineBusError s1
  else normal s

/-- The engine's step for a launched transfer: address, transmit or receive by phase and direction; no step
in IDLE (R210); refused after a NACK in read direction (R209); the combinations that cannot arise have no
step (R214; log 16). -/
def engineXfer (s : State) : Attempt :=
  match s.phase, s.dir, s.nack with
  | .idle, _, _ => .held s
  | .startSent, _, _ => .done (withFaults engineAddress s)
  | .addrSent, .W, _ => .done (withFaults engineTransmit s)
  | .dataSent, .W, _ => .done (withFaults engineTransmit s)
  | .addrSent, .R, false => .done (withFaults engineReceive s)
  | .dataReceived, .R, false => .done (withFaults engineReceive s)
  | _, .R, true => .refused .xferAfterReadNack
  | _, _, _ => .held s

/-- One step of the bus engine, held where none is enabled (R204 to R210). -/
def engineStep (s : State) : Attempt :=
  if s.ctrl.en && !s.ctrl.int then
    match s.pending with
    | .none => .held s
    | .start => .done (withFaults engineStart s)
    | .stop => .done (engineStop s)
    | .xfer => engineXfer s
  else .held s

/-- The engine's turn where the plan lists none and an agent waits for it, by the liveness parameter (R213;
log 3). -/
def engineChance (s : State) : Attempt :=
  match s.par.engine with
  | .fair => engineStep s
  | .stuck => .held s
  | .free =>
    if Config.engineMoves s.draws then engineStep { s with draws := s.draws + 1 }
    else .held { s with draws := s.draws + 1 }

/-- A control write that waits, where it is held, for the engine's stop step (R203). -/
def ctrlWriteWaiting (w : CtrlWord) (s : State) : Attempt :=
  match ctrlWrite w s with
  | .held s1 =>
    match engineChance s1 with
    | .done s2 => ctrlWrite w s2
    | .held s2 => .held s2
    | .refused r => .refused r
  | .done s1 => .done s1
  | .refused r => .refused r

end Sys2Proof.Machine
end

