-- ==== Sys2Proof/Machine/Operands.lean ====
section
/-! DEFINITION. The operand forms: the bytes assembled at execution (R96) and where a value comes from. -/

namespace Sys2Proof.Machine

/-- The TWI address byte `{slave[6:0], rw}` (R87 (c), R181, R183). -/
def addressByte (slave : BitVec 7) (d : Dir) : Byte :=
  slave ++ (match d with | .W => 0#1 | .R => 1#1)

/-- `reg[15:8]` (R166). -/
def regHigh (reg : BitVec 16) : Byte := reg.extractLsb' 8 8

/-- `reg[7:0]` (R166). -/
def regLow (reg : BitVec 16) : Byte := reg.extractLsb' 0 8

/-- Where a value of the pseudocode comes from: a constant, `BufRead(CNT)`, the latches `ST` and `RXB`, a bit
of `t` extended to a byte. It is read in the step of the line that uses it (log 29). -/
inductive Src where
  | lit (v : Byte)
  | buf
  | st
  | rxb
  | tBit (n : BitIx)
  deriving DecidableEq, Repr

/-- The value of a source. -/
def srcVal (s : State) : Src → Byte
  | .lit v => v
  | .buf => bufRead s.cnt.toNat s
  | .st => s.st
  | .rxb => s.rxb
  | .tBit n => bitByte (testBit s.tmp n)

/-- A decision of the pseudocode: on the snapshot (R131), on the status latch, on the loop index. -/
inductive Cond where
  | snapIs (d l : Bool)
  | stIsNot (v : Byte)
  | cntBelow (n : Nat)
  deriving DecidableEq, Repr

/-- Whether a decision holds; it reads latches only. -/
def condHolds (s : State) : Cond → Bool
  | .snapIs d l => s.snapD == d && s.snapL == l
  | .stIsNot v => s.st != v
  | .cntBelow n => decide (s.cnt.toNat < n)

end Sys2Proof.Machine
end

