-- ==== Sys2Proof/Machine/Micro.lean ====
section
/-! DEFINITION. The sequencer: a command is a list of pseudocode lines, `upc` numbers the next one (R29), each
line is one indivisible step (R11), and between two lines the other agents take the turns of the plan (R74). -/

namespace Sys2Proof.Machine

/-- One line of a command's pseudocode. A register-bus operation is a line of its own (R11); so are decisions,
counting, responding and the store of a received byte, which touch no register (log 13); a read of the buffer joins the
write that it feeds (log 29). -/
inductive Line where
  /-- `SNAP_D <- RegRead(A_DIR[p])[n]` (R131). -/
  | snapD (p : Port) (n : BitIx)
  /-- `SNAP_L <- RegRead(A_OUT[p])[n]` (R131). -/
  | snapL (p : Port) (n : BitIx)
  /-- `BitSet`, one step (R71). -/
  | bitSet (r : Reg) (b : BitIx)
  /-- `BitClear`, one step (R71). -/
  | bitClear (r : Reg) (b : BitIx)
  /-- `t <- RegRead(a)`, the first half of a bit operation in two steps (R72). -/
  | fetch (r : Reg)
  /-- `RegWrite(a, t OR (1 << b))`, its second half (R72). -/
  | putSet (r : Reg) (b : BitIx)
  /-- `RegWrite(a, t AND NOT (1 << b))`, its second half (R72). -/
  | putClear (r : Reg) (b : BitIx)
  /-- `t <- RegRead(a)` (R123, R138). -/
  | load (r : Reg)
  /-- `RegWrite(a, v)` (R137, R164); where `v` is `BufRead(CNT)`, the byte is read in the same step (log 29). -/
  | store (r : Reg) (v : Src)
  /-- `RegWrite(A_TW_CTRL, w)` (R200, R201). -/
  | ctrl (w : CtrlWord)
  /-- `poll()` (R161). -/
  | poll
  /-- `ST <- status()` (R167). -/
  | status
  /-- `RXB <- RegRead(A_TW_DATA)` (R165). -/
  | takeData
  /-- `BufWrite(CNT, RXB)`, inside the buffer (R86, R183). -/
  | putBuf
  /-- `CNT <- 0` (R181). -/
  | clearCnt
  /-- `CNT <- CNT + 1` (R181). -/
  | incCnt
  /-- If the decision fails, pass over the next `k` lines. -/
  | branch (c : Cond) (k : Nat)
  /-- Pass over the next `k` lines. -/
  | skip (k : Nat)
  /-- Go back `k` lines. -/
  | back (k : Nat)
  /-- `respond(code, data)` (R27). -/
  | respond (code data : Src)
  /-- `refuse(reason)` (R104). -/
  | refuse (r : Refusal)
  deriving DecidableEq, Repr

/-- A command's pseudocode. -/
abbrev Lines := List Line

/-- The next line is `k` lines further on. -/
def goto (k : Nat) (s : State) : State := { s with upc := s.upc + k }

/-- A step that a register operation decides, after which the next line follows. -/
def thenNext : Attempt → Attempt
  | .done s => .done (goto 1 s)
  | .held s => .held s
  | .refused r => .refused r

/-- One line of pseudocode as one step of the sequencer. -/
def lineStep (l : Line) (s : State) : Attempt :=
  match l with
  | .snapD p n =>
    let (v, s1) := regRead (.dir p) s
    .done (goto 1 { s1 with snapD := testBit v n })
  | .snapL p n =>
    let (v, s1) := regRead (.out p) s
    .done (goto 1 { s1 with snapL := testBit v n })
  | .bitSet r b => thenNext (bitSetReg r b s)
  | .bitClear r b => thenNext (bitClearReg r b s)
  | .fetch r =>
    if plainStorage r then
      let (v, s1) := regRead r s
      .done (goto 1 { s1 with tmp := v })
    else .refused .bitopOnSideEffectRegister
  | .putSet r b => thenNext (regWrite r (setBit s.tmp b) s)
  | .putClear r b => thenNext (regWrite r (clearBit s.tmp b) s)
  | .load r =>
    let (v, s1) := regRead r s
    .done (goto 1 { s1 with tmp := v })
  | .store r v => thenNext (regWrite r (srcVal s v) s)
  | .ctrl w => thenNext (ctrlWrite w s)
  | .poll => if intFlag s then .done (goto 1 s) else .held s
  | .status => .done (goto 1 { s with st := statusCode s })
  | .takeData => .done (goto 1 { s with rxb := (regRead .twData s).1 })
  | .putBuf =>
    if s.cnt.toNat < s.par.bufSize then .done (goto 1 (bufWrite s.cnt.toNat s.rxb s))
    else .refused .lengthExceedsBuffer
  | .clearCnt => .done (goto 1 { s with cnt := 0 })
  | .incCnt => .done (goto 1 { s with cnt := s.cnt + 1 })
  | .branch c k => .done (goto (if condHolds s c then 1 else k + 1) s)
  | .skip k => .done (goto (k + 1) s)
  | .back k => .done { s with upc := s.upc - k }
  | .respond c d => .done (respond (srcVal s c) (srcVal s d) s)
  | .refuse r => .refused r

/-- The line `upc` names: lines are numbered from 1 (R29). -/
def lineAt (code : Lines) (s : State) : Option Line := code[s.upc - 1]?

/-- An operation of `Other` on the register bus (R75); a held control write waits (R203; log 14). -/
def busOp (op : BusOp) (s : State) : Attempt :=
  match op with
  | .read a =>
    match regAt s.par a with
    | none => .refused .unmappedAddress
    | some r => .done (regRead r s).2
  | .write a v =>
    match regAt s.par a with
    | none => .refused .unmappedAddress
    | some .twCtrl =>
      match decodeCtrlWord s.par.bits v with
      | .ok w => ctrlWriteWaiting w s
      | .error e => .refused (decodeRefusal e)
    | some r => regWrite r v s
  | .bitSet a b =>
    match regAt s.par a with
    | none => .refused .unmappedAddress
    | some r => bitSetReg r b s
  | .bitClear a b =>
    match regAt s.par a with
    | none => .refused .unmappedAddress
    | some r => bitClearReg r b s

/-- A turn in which an agent that has no enabled step changes nothing (log 14). -/
def orPass : Attempt → Attempt
  | .done s => .done s
  | .held s => .done s
  | .refused r => .refused r

/-- One turn of an agent other than the sequencer (R13, R74). `Other` exists only if `OTHER_PRESENT` (R75);
the host's side port is open only while the sequencer is idle and only inside the buffer (R45, R47; log 20). -/
def agentTurn (t : Turn) (s : State) : Attempt :=
  match t with
  | .seq => .done s
  | .engine => orPass (engineStep s)
  | .pad p n e => .done (setExt p n e s)
  | .other op => if s.par.otherPresent then orPass (busOp op s) else .done s
  | .host i v => if s.upc = 0 ∧ i < s.par.bufSize then .done (bufWrite i v s) else .done s
  | .reset => .done (applyReset s)

/-- What one turn inside a command comes to: the command goes on, it waits with nobody to lift the hold, or the
run stops. -/
inductive Progress where
  | goesOn (s : State)
  | waits (s : State)
  | refused (r : Refusal)
  | lost
  deriving DecidableEq, Repr

/-- The sequencer's step at its present line. -/
def sequencerStep (code : Lines) (s : State) : Option Attempt :=
  (lineAt code s).map fun l => lineStep l s

/-- One turn while a command runs: the plan's next turn if it lists one, else the sequencer's step, else,
where that is held, the engine's chance (R74, R81, R213). -/
def turn (code : Lines) (s : State) : Progress :=
  match s.plan with
  | [] =>
    match sequencerStep code s with
    | none => .lost
    | some (.done s1) => .goesOn s1
    | some (.refused r) => .refused r
    | some (.held s1) =>
      match engineChance s1 with
      | .done s2 => .goesOn s2
      | .held s2 => .waits s2
      | .refused r => .refused r
  | .seq :: rest =>
    match sequencerStep code { s with plan := rest } with
    | none => .lost
    | some (.done s1) => .goesOn s1
    | some (.refused r) => .refused r
    | some (.held s1) => .goesOn s1
  | t :: rest =>
    match agentTurn t { s with plan := rest } with
    | .done s1 => .goesOn s1
    | .held s1 => .goesOn s1
    | .refused r => .refused r

/-- Turns until the command has responded (or a reset dropped it), or waits. -/
def run : Nat → Lines → State → Host.Outcome State Fault Refusal
  | 0, _, s => .next s
  | k + 1, code, s =>
    if s.upc = 0 then .next s
    else
      match turn code s with
      | .goesOn s1 => run k code s1
      | .waits s1 => .next s1
      | .refused r => .refused r
      | .lost => .fault .noSuchLine

/-- How many turns one step may take: more than any command needs, beyond those the plan lists. A command
that ran out of them would go on at the next step. -/
def turnBudget : Nat := 4096

/-- The sequencer executes a command: from its first line if idle (R26), else from where it is, until it has
responded, waits, or the run stops. -/
def perform (code : Lines) (s : State) : Host.Outcome State Fault Refusal :=
  run (s.plan.length + turnBudget) code (if s.upc = 0 then { s with upc := 1 } else s)

/-- A control word written to `TW_CTRL` by itself, as one step (R98, R201, R203): it waits where held. -/
def performCtrl (w : CtrlWord) (s : State) : Host.Outcome State Fault Refusal :=
  match ctrlWriteWaiting w s with
  | .done s1 => .next s1
  | .held s1 => .next s1
  | .refused r => .refused r

/-! ### Pieces of pseudocode -/

/-- `if c: body`. -/
def ifThen (c : Cond) (body : Lines) : Lines := .branch c body.length :: body

/-- `if c: body else: other`. -/
def ifElse (c : Cond) (body other : Lines) : Lines :=
  .branch c (body.length + 1) :: (body ++ .skip other.length :: other)

/-- `while c: body`. -/
def whileLoop (c : Cond) (body : Lines) : Lines :=
  .branch c (body.length + 1) :: (body ++ [.back (body.length + 1)])

/-- `BitSet(a, b)`: one step, or two if not atomic (R71, R72). -/
def bitSetLines (par : Params) (r : Reg) (b : BitIx) : Lines :=
  if par.bitopAtomic then [.bitSet r b] else [.fetch r, .putSet r b]

/-- `BitClear(a, b)`: one step, or two if not atomic (R71, R72). -/
def bitClearLines (par : Params) (r : Reg) (b : BitIx) : Lines :=
  if par.bitopAtomic then [.bitClear r b] else [.fetch r, .putClear r b]

/-- The pseudocode of an operation on the register at an address; `unmapped_address` where there is none
(R61, R85). -/
def atAddress (par : Params) (a : Byte) (f : Reg → Lines) : Lines :=
  match regAt par a with
  | none => [.refuse .unmappedAddress]
  | some r => f r

end Sys2Proof.Machine
end

