-- ==== Sys2Proof/Machine/CtrlWords.lean ====
section
/-! DEFINITION. The four control words as instructions of their own: one write to `TW_CTRL` (R98, R200, R201,
R203). -/

namespace Sys2Proof.Machine

/-- `CW_START` written to `TW_CTRL` (R201). -/
def execCwStart (s : State) : Host.Outcome State Fault Refusal := performCtrl .start s

/-- `CW_STOP` written to `TW_CTRL` (R201). -/
def execCwStop (s : State) : Host.Outcome State Fault Refusal := performCtrl .stop s

/-- `CW_XFER_NACK` written to `TW_CTRL` (R201). -/
def execCwXferNack (s : State) : Host.Outcome State Fault Refusal := performCtrl .xferNack s

/-- `CW_XFER_ACK` written to `TW_CTRL` (R201). -/
def execCwXferAck (s : State) : Host.Outcome State Fault Refusal := performCtrl .xferAck s

end Sys2Proof.Machine
end

