-- ==== Sys2Proof/Machine/Gpio.lean ====
section
/-! DEFINITION. The GPIO pin-mode state machine: CFGPIN in three forms, WRPIN, TGLPIN, RDPIN (R130 to R138). -/

namespace Sys2Proof.Machine

/-- The snapshot at call entry, Direction first (R131). -/
def snapshotLines (p : Port) (n : BitIx) : Lines := [.snapD p n, .snapL p n]

/-- `respond(RES_SUCCESS, 0x00)` (R130, R139). -/
def respondSuccess (par : Params) : Line := .respond (.lit par.resSuccess) (.lit 0)

/-- The lines of `CFGPIN .., OUT` (R131, R132). -/
def cfgpinOutLines (par : Params) (p : Port) (n : BitIx) : Lines :=
  snapshotLines p n
    ++ ifThen (.snapIs false true) (bitClearLines par (.out p) n)
    ++ bitSetLines par (.dir p) n
    ++ [respondSuccess par]

/-- The lines of `CFGPIN .., INPU` (R131, R133). -/
def cfgpinInpuLines (par : Params) (p : Port) (n : BitIx) : Lines :=
  snapshotLines p n
    ++ ifThen (.snapIs true false) (bitSetLines par (.out p) n)
    ++ bitClearLines par (.dir p) n
    ++ bitSetLines par (.out p) n
    ++ [respondSuccess par]

/-- The lines of `CFGPIN .., IN` (R131, R134). -/
def cfgpinInLines (par : Params) (p : Port) (n : BitIx) : Lines :=
  snapshotLines p n
    ++ ifThen (.snapIs true true) (bitSetLines par (.dir p) n ++ bitClearLines par (.out p) n)
    ++ bitClearLines par (.dir p) n
    ++ bitClearLines par (.out p) n
    ++ [respondSuccess par]

/-- The lines of `WRPIN` (R136). -/
def wrpinLines (par : Params) (p : Port) (n : BitIx) (level : Bool) : Lines :=
  (if level then bitSetLines par (.out p) n else bitClearLines par (.out p) n) ++ [respondSuccess par]

/-- The lines of `TGLPIN`: one write of a one-hot value, no read (R137, R269). -/
def tglpinLines (par : Params) (p : Port) (n : BitIx) : Lines :=
  [.store (.input p) (.lit (oneHot n)), respondSuccess par]

/-- The lines of `RDPIN` (R138). -/
def rdpinLines (par : Params) (p : Port) (n : BitIx) : Lines :=
  [.load (.input p), .respond (.lit par.resSuccess) (.tBit n)]

/-- `CFGPIN port pin, OUT`, whatever `pu` is (R132). -/
def execCfgpinOut (p : Port) (n : BitIx) (_pu : Bool) (s : State) : Host.Outcome State Fault Refusal :=
  perform (cfgpinOutLines s.par p n) s

/-- `CFGPIN port pin, INPU` (R133). -/
def execCfgpinInpu (p : Port) (n : BitIx) (s : State) : Host.Outcome State Fault Refusal :=
  perform (cfgpinInpuLines s.par p n) s

/-- `CFGPIN port pin, IN` (R134). -/
def execCfgpinIn (p : Port) (n : BitIx) (s : State) : Host.Outcome State Fault Refusal :=
  perform (cfgpinInLines s.par p n) s

/-- `WRPIN port pin, level` (R136). -/
def execWrpin (p : Port) (n : BitIx) (level : Bool) (s : State) : Host.Outcome State Fault Refusal :=
  perform (wrpinLines s.par p n level) s

/-- `TGLPIN port pin` (R137). -/
def execTglpin (p : Port) (n : BitIx) (s : State) : Host.Outcome State Fault Refusal :=
  perform (tglpinLines s.par p n) s

/-- `RDPIN port pin` (R138). -/
def execRdpin (p : Port) (n : BitIx) (s : State) : Host.Outcome State Fault Refusal :=
  perform (rdpinLines s.par p n) s

end Sys2Proof.Machine
end

