-- ==== Sys2Proof/Machine/RegPrims.lean ====
section
/-! DEFINITION. The register bit primitives SETBIT, CLRBIT, TSTBIT (R120 to R123). -/

namespace Sys2Proof.Machine

/-- The lines of `SETBIT` (R121). -/
def setbitLines (par : Params) (addr : Byte) (bit : BitIx) : Lines :=
  atAddress par addr fun r => bitSetLines par r bit ++ [.respond (.lit 0) (.lit 0)]

/-- The lines of `CLRBIT` (R122). -/
def clrbitLines (par : Params) (addr : Byte) (bit : BitIx) : Lines :=
  atAddress par addr fun r => bitClearLines par r bit ++ [.respond (.lit 0) (.lit 0)]

/-- The lines of `TSTBIT` (R123). -/
def tstbitLines (par : Params) (addr : Byte) (bit : BitIx) : Lines :=
  atAddress par addr fun r => [.load r, .respond (.lit 0) (.tBit bit)]

/-- `SETBIT addr, bit` (R121). -/
def execSetbit (addr : Byte) (bit : BitIx) (s : State) : Host.Outcome State Fault Refusal :=
  perform (setbitLines s.par addr bit) s

/-- `CLRBIT addr, bit` (R122). -/
def execClrbit (addr : Byte) (bit : BitIx) (s : State) : Host.Outcome State Fault Refusal :=
  perform (clrbitLines s.par addr bit) s

/-- `TSTBIT addr, bit` (R123). -/
def execTstbit (addr : Byte) (bit : BitIx) (s : State) : Host.Outcome State Fault Refusal :=
  perform (tstbitLines s.par addr bit) s

end Sys2Proof.Machine
end

