-- ==== Sys2Proof/Machine/TwiPrims.lean ====
section
/-! DEFINITION. The TWI master primitives: the procedures start, stop, tx, rx, rega and the commands TWSTART,
TWSTOP, TWTX, TWRX, TWREGA (R160 to R167). -/

namespace Sys2Proof.Machine

/-- `start()` (R162). -/
def startLines : Lines := [.ctrl .start, .poll, .status]

/-- `stop()`: no poll, no status (R163). -/
def stopLines : Lines := [.ctrl .stop]

/-- `tx(byte)`: the data register before the control register (R164, R276). -/
def txLines (v : Src) : Lines := [.store .twData v, .ctrl .xferNack, .poll, .status]

/-- `rx(ack_more)` (R165). -/
def rxLines (more : Bool) : Lines :=
  [.ctrl (if more then .xferAck else .xferNack), .poll, .status, .takeData]

/-- `rega(reg, rsz)`: high byte first, and none after it where it is not ACKed (R166). -/
def regaLines (par : Params) (rsz : RegSize) (reg : BitVec 16) : Lines :=
  match rsz with
  | .w8 => txLines (.lit (regLow reg))
  | .w16 =>
    txLines (.lit (regHigh reg))
      ++ ifElse (.stIsNot par.st.dataTxAck) [] (txLines (.lit (regLow reg)))

/-- `respond(ST, 0x00)`. -/
def respondStatus : Line := .respond .st (.lit 0)

/-- The lines of `TWSTART` (R162). -/
def twstartLines : Lines := startLines ++ [respondStatus]

/-- The lines of `TWSTOP` (R163). -/
def twstopLines : Lines := stopLines ++ [.respond (.lit 0) (.lit 0)]

/-- The lines of `TWTX` (R164). -/
def twtxLines (v : Byte) : Lines := txLines (.lit v) ++ [respondStatus]

/-- The lines of `TWRX` (R165). -/
def twrxLines (more : Bool) : Lines := rxLines more ++ [.respond .st .rxb]

/-- The lines of `TWREGA` (R166). -/
def twregaLines (par : Params) (rsz : RegSize) (reg : BitVec 16) : Lines :=
  regaLines par rsz reg ++ [respondStatus]

/-- `TWSTART` (R162). -/
def execTwstart (s : State) : Host.Outcome State Fault Refusal := perform twstartLines s

/-- `TWSTOP` (R163). -/
def execTwstop (s : State) : Host.Outcome State Fault Refusal := perform twstopLines s

/-- `TWTX byte` (R164). -/
def execTwtx (v : Byte) (s : State) : Host.Outcome State Fault Refusal := perform (twtxLines v) s

/-- `TWRX ack_more` (R165). -/
def execTwrx (more : Bool) (s : State) : Host.Outcome State Fault Refusal := perform (twrxLines more) s

/-- `TWREGA reg, size` (R166). -/
def execTwrega (rsz : RegSize) (reg : BitVec 16) (s : State) : Host.Outcome State Fault Refusal :=
  perform (twregaLines s.par rsz reg) s

end Sys2Proof.Machine
end

