-- ==== Sys2Proof/Machine/TwiTrans.lean ====
section
/-! DEFINITION. The TWI master transactions TWWRMEM and TWRDMEM with their abort (R180 to R187). -/

namespace Sys2Proof.Machine

/-- What a failed step of a transaction does, given how many lines of `wrmem` come after it. -/
abbrev OnFail := Nat → Lines

/-- The abort of R185, R239: the stop, then the response with the failing status. -/
def abortAndRespond : OnFail := fun _ => stopLines ++ [respondStatus]

/-- The abort of the `wrmem` inside `rdmem`: the stop, then `rdmem` step 2, which returns the status unless it
is `TW_OK`, and goes on after `wrmem` if it is (R183, R187, R240). -/
def abortInside (par : Params) : OnFail := fun rest =>
  stopLines ++ ifThen (.stIsNot par.twOk) [respondStatus] ++ [.skip rest]

/-- `if ST != v: fail`, then the rest of `wrmem` (R168). -/
def expect (v : Byte) (fail : OnFail) (rest : Lines) : Lines :=
  ifThen (.stIsNot v) (fail rest.length) ++ rest

/-- The payload loop of `wrmem`, steps 7 and 8, then the rest (R181). In `tx(BufRead(CNT))` the byte is read in the
step that writes `TW_DATA` (log 29). -/
def sendPayload (par : Params) (length : Byte) (fail : OnFail) (rest : Lines) : Lines :=
  .clearCnt ::
    (whileLoop (.cntBelow length.toNat)
      (txLines .buf ++ ifThen (.stIsNot par.st.dataTxAck) (fail (rest.length + 2)) ++ [.incCnt]) ++ rest)

/-- `wrmem(slave, reg, rsz, length)` with `return ST` as `fail` says and `rest` after step 8 (R181). -/
def wrmemLines (par : Params) (rsz : RegSize) (slave : BitVec 7) (length : Byte) (reg : BitVec 16)
    (fail : OnFail) (rest : Lines) : Lines :=
  startLines ++ expect par.st.start fail (
    txLines (.lit (addressByte slave .W)) ++ expect par.st.slawAck fail (
      regaLines par rsz reg ++ expect par.st.dataTxAck fail (
        sendPayload par length fail rest)))

/-- Step 9 of `wrmem`: `length == 0` skips the stop (R181). -/
def stopIfPayload (length : Byte) : Lines := if length = 0 then [] else stopLines

/-- The response of a successful transaction (R103). -/
def respondOk (par : Params) : Line := .respond (.lit par.twOk) (.lit 0)

/-- The receive loop of `rdmem`, step 8: all bytes but the last are ACKed, each status is checked before its
byte is stored (R183). -/
def receiveLoop (par : Params) (length : Byte) : Lines :=
  whileLoop (.cntBelow length.toNat)
    (ifElse (.cntBelow (length.toNat - 1))
        (rxLines true ++ ifThen (.stIsNot par.st.dataRxAck) (abortAndRespond 0))
        (rxLines false ++ ifThen (.stIsNot par.st.dataRxNack) (abortAndRespond 0))
      ++ [.putBuf, .incCnt])

/-- Steps 3 to 10 of `rdmem` (R183). -/
def readPhase (par : Params) (slave : BitVec 7) (length : Byte) : Lines :=
  startLines ++ expect par.st.rstart abortAndRespond (
    txLines (.lit (addressByte slave .R)) ++ expect par.st.slarAck abortAndRespond (
      .clearCnt :: (receiveLoop par length ++ stopLines ++ [respondOk par])))

/-- A transaction whose payload exceeds the buffer is refused (R86; log 25). -/
def ifFits (par : Params) (length : Byte) (code : Lines) : Lines :=
  if length.toNat ≤ par.bufSize then code else [.refuse .lengthExceedsBuffer]

/-- The lines of `TWWRMEM` (R181). -/
def twwrmemLines (par : Params) (rsz : RegSize) (slave : BitVec 7) (length : Byte) (reg : BitVec 16) :
    Lines :=
  ifFits par length
    (wrmemLines par rsz slave length reg abortAndRespond (stopIfPayload length ++ [respondOk par]))

/-- The lines of `TWRDMEM`: `wrmem` of length 0, with no stop on success, then the read phase (R183). The
lines after the inner `wrmem` are no part of what its abort passes over. -/
def twrdmemLines (par : Params) (rsz : RegSize) (slave : BitVec 7) (length : Byte) (reg : BitVec 16) :
    Lines :=
  ifFits par length
    (wrmemLines par rsz slave 0 reg (abortInside par) [] ++ readPhase par slave length)

/-- `TWWRMEM slave, reg, size, length` (R181). -/
def execTwwrmem (rsz : RegSize) (slave : BitVec 7) (length : Byte) (reg : BitVec 16) (s : State) :
    Host.Outcome State Fault Refusal :=
  perform (twwrmemLines s.par rsz slave length reg) s

/-- `TWRDMEM slave, reg, size, length` (R183). -/
def execTwrdmem (rsz : RegSize) (slave : BitVec 7) (length : Byte) (reg : BitVec 16) (s : State) :
    Host.Outcome State Fault Refusal :=
  perform (twrdmemLines s.par rsz slave length reg) s

end Sys2Proof.Machine
end

