-- ==== Sys2Proof/Machine/Dispatch.lean ====
section
/-! DEFINITION. One arm per constructor of `Instr`. -/

namespace Sys2Proof.Machine

def exec (i : Instr) (s : State) : Host.Outcome State Fault Refusal :=
  match i with
  | .setbit addr bit => Sys2Proof.Machine.execSetbit addr bit s
  | .clrbit addr bit => Sys2Proof.Machine.execClrbit addr bit s
  | .tstbit addr bit => Sys2Proof.Machine.execTstbit addr bit s
  | .cfgpinOut p n pu => Sys2Proof.Machine.execCfgpinOut p n pu s
  | .cfgpinInpu p n => Sys2Proof.Machine.execCfgpinInpu p n s
  | .cfgpinIn p n => Sys2Proof.Machine.execCfgpinIn p n s
  | .wrpin p n level => Sys2Proof.Machine.execWrpin p n level s
  | .tglpin p n => Sys2Proof.Machine.execTglpin p n s
  | .rdpin p n => Sys2Proof.Machine.execRdpin p n s
  | .twstart => Sys2Proof.Machine.execTwstart s
  | .twstop => Sys2Proof.Machine.execTwstop s
  | .twtx v => Sys2Proof.Machine.execTwtx v s
  | .twrx more => Sys2Proof.Machine.execTwrx more s
  | .twrega rsz reg => Sys2Proof.Machine.execTwrega rsz reg s
  | .twwrmem rsz slave length reg => Sys2Proof.Machine.execTwwrmem rsz slave length reg s
  | .twrdmem rsz slave length reg => Sys2Proof.Machine.execTwrdmem rsz slave length reg s
  | .cwStart => Sys2Proof.Machine.execCwStart s
  | .cwStop => Sys2Proof.Machine.execCwStop s
  | .cwXferNack => Sys2Proof.Machine.execCwXferNack s
  | .cwXferAck => Sys2Proof.Machine.execCwXferAck s

end Sys2Proof.Machine
end

