-- ==== Sys2Proof/Machine/Sequencer.lean ====
section
/-! DEFINITION. One step of the machine: whose turn it is, command issue (R26), and the idle sequencer (R18). -/

namespace Sys2Proof.Machine

/-- The command word the sequencer would issue next, `PROG[pc]` (R26). -/
def fetch (s : State) : Option Cw40 := s.prog[s.pc]?

/-- The idle sequencer has no command left: the engine may still finish its operation, and the machine waits
(R18, R262; log 18). -/
def idleStep (s : State) : Host.Outcome State Fault Refusal :=
  match s.plan with
  | .seq :: rest => .next { s with plan := rest }
  | _ =>
    match engineChance s with
    | .done s1 => .next s1
    | .held s1 => .next s1
    | .refused r => .refused r

/-- The sequencer's part: idle, it latches `CMD <- PROG[pc]`, decodes it and starts it (R26); busy, it goes on
with the command in `CMD`. -/
def sequencerRun (s : State) : Host.Outcome State Fault Refusal :=
  if s.upc = 0 then
    match fetch s with
    | none => idleStep s
    | some w =>
      match decode w with
      | .ok i => exec i { s with cmd := w }
      | .error e => .refused (decodeRefusal e)
  else
    match decode s.cmd with
    | .ok i => exec i s
    | .error _ => .fault .noSuchLine

/-- The control word that `Other` writes to `TW_CTRL` in its turn, if the turn is such a write (R75, R200). -/
def ctrlTurn (s : State) (a v : Byte) : Option Instr :=
  if s.par.otherPresent ∧ regAt s.par a = some .twCtrl then (decodeCtrl s.par.bits v).toOption else none

/-- A turn of another agent between two commands, as a step of its own (R74). -/
def betweenCommands (t : Turn) (s : State) : Host.Outcome State Fault Refusal :=
  match agentTurn t s with
  | .done s1 => .next s1
  | .held s1 => .next s1
  | .refused r => .refused r

/-- One step: the sequencer's, unless the plan gives another agent the next turn; a control word that `Other`
writes runs as the instruction it is. -/
def stepState (s : State) : Host.Outcome State Fault Refusal :=
  match s.plan with
  | [] => sequencerRun s
  | .seq :: _ => sequencerRun s
  | .other (.write a v) :: rest =>
    match ctrlTurn s a v with
    | some i => exec i { s with plan := rest }
    | none => betweenCommands (.other (.write a v)) { s with plan := rest }
  | t :: rest => betweenCommands t { s with plan := rest }

/-- A program with one word replaced; a shorter program is filled up with zero words, which are no commands. -/
def placeWord : List Cw40 → Nat → Cw40 → List Cw40
  | [], 0, w => [w]
  | [], n + 1, w => 0 :: placeWord [] n w
  | _ :: t, 0, w => w :: t
  | h :: t, n + 1, w => h :: placeWord t n w

/-- The state whose next step runs the instruction with these bits: a command word is placed at `PROG[pc]` of
an idle sequencer with no turn of another agent before it; a control word is the next turn of an `Other` that
is present (log 17). -/
def placeFetchWord (s : State) (nbits w : Nat) : State :=
  if nbits = 8 then
    { s with
      par := { s.par with otherPresent := true },
      plan := .other (.write s.par.twCtrl (BitVec.ofNat 8 w)) :: s.plan }
  else { s with plan := [], upc := 0, prog := placeWord s.prog s.pc (BitVec.ofNat 40 w) }

end Sys2Proof.Machine
end

