-- ==== Sys2Proof/Machine/Pads.lean ====
section
/-! DEFINITION. What the pads show of a state (R12, R34), the pseudo-commands of R106, and the walk of a command
that no other agent interrupts (R135, R140). -/

namespace Sys2Proof

/-- FREE VALUE (log 23): the pad outputs of a pin of port C that the two-wire bus shares, while the TWI is enabled
(R266, U22: outside the spec, no claim either way). -/
opaque Config.sharedPad : Machine.State → BitIx → PadOut

end Sys2Proof

namespace Sys2Proof.Machine

/-- The pair `(d, l)` of a pin: its Direction bit and its Output-Level bit (R12). -/
def pinPair (s : State) (p : Port) (n : BitIx) : Bool × Bool :=
  (testBit (getPort s p).dir n, testBit (getPort s p).out n)

/-- The name of a pair (R12). -/
def pairState : Bool × Bool → PinState
  | (true, false) => .outLow
  | (true, true) => .outHigh
  | (false, true) => .inPullupOn
  | (false, false) => .inPullupOff

/-- The state of a pin (R12). -/
def pinState (s : State) (p : Port) (n : BitIx) : PinState := pairState (pinPair s p n)

/-- A pin whose pad the two-wire bus may hold: one of the two shared pins of port C, while `EN` = 1 (R266). -/
def onSharedPad (s : State) (p : Port) (n : BitIx) : Bool :=
  p == .C && s.ctrl.en && (n == s.par.sdaPin || n == s.par.sclPin)

/-- The pad outputs of a pin (R34); a free value for the two pins of R266 (log 23). -/
def padOut (s : State) (p : Port) (n : BitIx) : PadOut :=
  if onSharedPad s p n then Config.sharedPad s n
  else
    let (d, l) := pinPair s p n
    { oe := d, level := l, pu := !d && l }

/-- The expansion of `SETSTATE port pin, t` (R106). -/
def setStateCommands (p : Port) (n : BitIx) : PinState → List Instr
  | .outLow => [.cfgpinOut p n false, .wrpin p n false]
  | .outHigh => [.cfgpinOut p n false, .wrpin p n true]
  | .inPullupOn => [.cfgpinInpu p n]
  | .inPullupOff => [.cfgpinIn p n]

/-- Commands one after the other, each from an idle sequencer. -/
def execAll : List Instr → State → Host.Outcome State Fault Refusal
  | [], s => .next s
  | i :: rest, s =>
    match exec i s with
    | .next s1 => execAll rest s1
    | .fault f => .fault f
    | .refused r => .refused r

/-- A line that is a register-bus operation (R11). -/
def isBusOp : Line → Bool
  | .snapD _ _ | .snapL _ _ | .bitSet _ _ | .bitClear _ _ | .fetch _ | .putSet _ _ | .putClear _ _
  | .load _ | .store _ _ | .ctrl _ | .poll | .status | .takeData => true
  | .putBuf | .clearCnt | .incCnt | .branch _ _ | .skip _ | .back _ | .respond _ _ | .refuse _ => false

/-- A line that writes a register. -/
def writesReg : Line → Bool
  | .bitSet _ _ | .bitClear _ _ | .putSet _ _ | .putClear _ _ | .store _ _ | .ctrl _ => true
  | .snapD _ _ | .snapL _ _ | .fetch _ | .load _ | .poll | .status | .takeData
  | .putBuf | .clearCnt | .incCnt | .branch _ _ | .skip _ | .back _ | .respond _ _ | .refuse _ => false

/-- The lines a command takes and the state after each, no other agent stepping in between, up to its response
or its first hold. -/
def ownSteps : Nat → Lines → State → List (Line × State)
  | 0, _, _ => []
  | k + 1, code, s =>
    match lineAt code s with
    | none => []
    | some l =>
      match lineStep l s with
      | .done s1 => (l, s1) :: (if s1.upc = 0 then [] else ownSteps k code s1)
      | .held _ => []
      | .refused _ => []

/-- The pairs of a pin after each register write of a command started in `s` (R135). -/
def pinWalk (code : Lines) (s : State) (p : Port) (n : BitIx) : List (Bool × Bool) :=
  ((ownSteps code.length code { s with upc := 1 }).filter fun x => writesReg x.1).map
    fun x => pinPair x.2 p n

/-- How many register-bus operations a command started in `s` makes (R135, R283). -/
def busOpCount (code : Lines) (s : State) : Nat :=
  ((ownSteps code.length code { s with upc := 1 }).filter fun x => isBusOp x.1).length

end Sys2Proof.Machine
end

