-- ==== Sys2Proof/WellFormed.lean ====
section
/-! DEFINITION. The admitted subset (R17): operands in the legal ranges of the command's rule. Every other
command is refused by name when it runs, not when it is decoded (X5, X6, X7 of 95_test_vectors). -/

namespace Sys2Proof

/-- Operands in range: a bit operation aims at a plain-storage register (R71), a bit test at any of the 13
(R61, R123), a transaction's payload fits the buffer (R86). The ranges of the other operands are their types'. -/
def wellFormed (par : Params) : Instr → Bool
  | .setbit a _ => ((Machine.regAt par a).map Machine.plainStorage).getD false
  | .clrbit a _ => ((Machine.regAt par a).map Machine.plainStorage).getD false
  | .tstbit a _ => (Machine.regAt par a).isSome
  | .cfgpinOut _ _ _ => true
  | .cfgpinInpu _ _ => true
  | .cfgpinIn _ _ => true
  | .wrpin _ _ _ => true
  | .tglpin _ _ => true
  | .rdpin _ _ => true
  | .twstart => true
  | .twstop => true
  | .twtx _ => true
  | .twrx _ => true
  | .twrega _ _ => true
  | .twwrmem _ _ n _ => decide (n.toNat ≤ par.bufSize)
  | .twrdmem _ _ n _ => decide (n.toNat ≤ par.bufSize)
  | .cwStart => true
  | .cwStop => true
  | .cwXferNack => true
  | .cwXferAck => true

end Sys2Proof
end

