-- ==== Sys2Proof/Safety.lean ====
section
/-! DEFINITION. The terms claims are stated in: the bus is held, a run has ended, and the invariants of the
engine, the logs, the buffer and the sequencer. -/

namespace Sys2Proof.Machine

/-- This master holds the bus (R43). -/
def busHeld (s : State) : Bool := s.phase != .idle && s.phase != .stop

/-- A run has ended (R18). -/
def runEnded (s : State) : Bool :=
  decide (s.pc = s.prog.length) && decide (s.upc = 0) && s.pending == .none

/-- The engine's invariants (R216 (a) to (c)), with what follows from the rules that write its state: the stop
bit is the pending stop (R24, R205), nothing is pending while the TWI is disabled, `nack` is false in IDLE and
START_SENT (R204, R205, R212), `dir` agrees with the phase (R214), `WC` and `IE` read 0 (R35). -/
abbrev EngineOk (s : State) : Prop :=
  (s.ctrl.int = true → s.pending = .none) ∧
  (s.phase = .stop ↔ s.pending = .stop) ∧
  (s.ctrl.sto = true ↔ s.pending = .stop) ∧
  (s.pending ≠ .none → s.ctrl.en = true) ∧
  (s.phase = .idle → s.nack = false) ∧
  (s.phase = .startSent → s.nack = false) ∧
  (s.phase = .dataSent → s.dir = .W) ∧
  (s.phase = .dataReceived → s.dir = .R) ∧
  s.ctrl.wc = false ∧ s.ctrl.ie = false

/-- One response per command done (R27). -/
abbrev LogOk (s : State) : Prop := s.rsp.length = s.pc

/-- The buffer is in canonical form and lists only indexes it has (R45). -/
abbrev BufOk (s : State) : Prop :=
  Memory.wf s.buf = true ∧ (s.buf.all fun c => decide (c.1 < s.par.bufSize)) = true

/-- `pc` is an index into the program or its end; a busy sequencer executes a command of it (R28). -/
abbrev ProgOk (s : State) : Prop := s.pc ≤ s.prog.length ∧ (s.upc ≠ 0 → s.pc < s.prog.length)

/-- The invariant of the machine. -/
abbrev Inv (s : State) : Prop := EngineOk s ∧ LogOk s ∧ BufOk s ∧ ProgOk s

/-- The lines of a command (R121 to R183); a control word has none. -/
def commandLines (par : Params) : Instr → Lines
  | .setbit a b => setbitLines par a b
  | .clrbit a b => clrbitLines par a b
  | .tstbit a b => tstbitLines par a b
  | .cfgpinOut p n _ => cfgpinOutLines par p n
  | .cfgpinInpu p n => cfgpinInpuLines par p n
  | .cfgpinIn p n => cfgpinInLines par p n
  | .wrpin p n l => wrpinLines par p n l
  | .tglpin p n => tglpinLines par p n
  | .rdpin p n => rdpinLines par p n
  | .twstart => twstartLines
  | .twstop => twstopLines
  | .twtx v => twtxLines v
  | .twrx more => twrxLines more
  | .twrega rsz reg => twregaLines par rsz reg
  | .twwrmem rsz slave n reg => twwrmemLines par rsz slave n reg
  | .twrdmem rsz slave n reg => twrdmemLines par rsz slave n reg
  | .cwStart => []
  | .cwStop => []
  | .cwXferNack => []
  | .cwXferAck => []

/-- A busy sequencer stands at a line of the command in `CMD` (R29). -/
def lineOk (s : State) : Bool :=
  decide (s.upc = 0) ||
    match decode s.cmd with
    | .ok i => decide (s.upc ≤ (commandLines s.par i).length)
    | .error _ => false

/-- No turn of the plan is a reset (R260). -/
def noReset (s : State) : Bool := s.plan.all fun t => t != .reset

/-- The sequencer is idle, the plan lists no turn of another agent, and no bus faults are in the model: the
premises the vectors of 95 share, but for the fairness of the engine. -/
abbrev Quiet (s : State) : Prop := s.upc = 0 ∧ s.plan = [] ∧ s.par.busFaults = false

/-- `Quiet`, with a weakly fair engine (R213) and parameters that meet their constraints (R8, N2). -/
abbrev QuietFair (s : State) : Prop := Quiet s ∧ s.par.engine = .fair ∧ paramsOk s.par = true

/-- The state with a plain-storage register holding `v` (R62, R63, R66). -/
def storeReg (r : Reg) (v : Byte) (s : State) : State :=
  match r with
  | .dir p => setPort s p { getPort s p with dir := v }
  | .out p => setPort s p { getPort s p with out := v }
  | .twBitrate => { s with twBitrate := v }
  | .input _ => s
  | .twStatus => s
  | .twData => s
  | .twCtrl => s

/-- The pin a GPIO command acts on (R130). -/
def gpioPin : Instr → Option (Port × BitIx)
  | .cfgpinOut p n _ => some (p, n)
  | .cfgpinInpu p n => some (p, n)
  | .cfgpinIn p n => some (p, n)
  | .wrpin p n _ => some (p, n)
  | .tglpin p n => some (p, n)
  | .rdpin p n => some (p, n)
  | .setbit _ _ => none
  | .clrbit _ _ => none
  | .tstbit _ _ => none
  | .twstart => none
  | .twstop => none
  | .twtx _ => none
  | .twrx _ => none
  | .twrega _ _ => none
  | .twwrmem _ _ _ _ => none
  | .twrdmem _ _ _ _ => none
  | .cwStart => none
  | .cwStop => none
  | .cwXferNack => none
  | .cwXferAck => none

/-- The commands and control words of the TWI. -/
def isTwi : Instr → Bool
  | .twstart | .twstop | .twtx _ | .twrx _ | .twrega _ _ | .twwrmem _ _ _ _ | .twrdmem _ _ _ _
  | .cwStart | .cwStop | .cwXferNack | .cwXferAck => true
  | .setbit _ _ | .clrbit _ _ | .tstbit _ _ | .cfgpinOut _ _ _ | .cfgpinInpu _ _ | .cfgpinIn _ _
  | .wrpin _ _ _ | .tglpin _ _ | .rdpin _ _ => false

/-- The control words written by themselves (R98). -/
def isCtrlWord : Instr → Bool
  | .cwStart | .cwStop | .cwXferNack | .cwXferAck => true
  | .twstart | .twstop | .twtx _ | .twrx _ | .twrega _ _ | .twwrmem _ _ _ _ | .twrdmem _ _ _ _
  | .setbit _ _ | .clrbit _ _ | .tstbit _ _ | .cfgpinOut _ _ _ | .cfgpinInpu _ _ | .cfgpinIn _ _
  | .wrpin _ _ _ | .tglpin _ _ | .rdpin _ _ => false

/-- `TW_CTRL` after a control word, with the interrupt flag as given (R201, R204). -/
def ctrlAfter (s : State) (w : CtrlWord) (int : Bool) : TwCtrl where
  int := int
  ea := decide (w = .xferAck)
  sta := decide (w = .start)
  sto := decide (w = .stop)
  wc := s.ctrl.wc
  en := true
  ie := false

/-- The operation a control word launches (R201). -/
def pendingOf : CtrlWord → Pending
  | .start => .start
  | .stop => .stop
  | .xferNack => .xfer
  | .xferAck => .xfer

/-- The field `TW_STATUS[7:3]` of a status code (R36). -/
def codeField (v : Byte) : BitVec 5 := v.extractLsb' 3 5

/-- The status of a data byte sent (R207). -/
def txStatus (c : StatusCodes) : Ack → Byte
  | .ack => c.dataTxAck
  | .nack => c.dataTxNack

/-- The ports, their pads among them, are unchanged. -/
abbrev SamePorts (s t : State) : Prop := t.portB = s.portB ∧ t.portC = s.portC ∧ t.portD = s.portD

/-- The TWI registers, the bus engine and the bus log are unchanged. -/
abbrev SameTwi (s t : State) : Prop :=
  t.ctrl = s.ctrl ∧ t.twCode = s.twCode ∧ t.ps = s.ps ∧ t.twData = s.twData ∧
  t.twBitrate = s.twBitrate ∧ t.phase = s.phase ∧ t.dir = s.dir ∧ t.nack = s.nack ∧
  t.pending = s.pending ∧ t.buslog = s.buslog

/-- Every byte of the payload buffer is unchanged. -/
abbrev SameBuf (s t : State) : Prop := t.buf = s.buf ∧ ∀ a, bufRead a t = bufRead a s

/-- The parameters and the program are unchanged. -/
abbrev SameProgram (s t : State) : Prop := t.par = s.par ∧ t.prog = s.prog

/-- The command ended with one response (R27, R28). -/
abbrev Responded (s t : State) (code data : Byte) : Prop :=
  t.rsp = s.rsp ++ [{ code := code, data := data }] ∧ t.pc = s.pc + 1 ∧ t.upc = 0

/-- No control write is held back or refused: the bus engine has nothing pending (R201, R203). -/
abbrev EngineFree (s : State) : Prop := s.pending = .none ∧ s.phase ≠ .stop

/-- A stop is on its way, and the engine can do it (R203, R205). -/
abbrev StopPending (s : State) : Prop :=
  s.pending = .stop ∧ s.phase = .stop ∧ s.ctrl.en = true ∧ s.ctrl.int = false

/-- A TWI command can start: the engine has nothing to do, or a stop that comes first (R203). -/
abbrev TwiReady (s : State) : Prop := QuietFair s ∧ (EngineFree s ∨ StopPending s)

/-- A transfer can be launched with the bus held: nothing is pending. -/
abbrev XferReady (s : State) : Prop := QuietFair s ∧ s.pending = .none

/-- What an operation launched by a control word, completed by the engine and read by `status()`, leaves in the
registers and latches that every operation writes (R162, R204, R206 to R208). -/
def afterOp (w : CtrlWord) (code : Byte) (e : BusEvent) (s : State) : State :=
  { s with
    ctrl := ctrlAfter s w true, twCode := codeField code, pending := .none, st := code,
    buslog := s.buslog ++ [e] }

/-- The stop done, if one was on its way (R205). -/
def stopDone (s : State) : State :=
  if s.phase = .stop then
    { s with
      ctrl := { s.ctrl with sto := false }, twCode := codeField s.par.st.noinfo, phase := .idle,
      nack := false, pending := .none, buslog := s.buslog ++ [.stop] }
  else s

/-- What `start()` leaves (R162, R204). -/
def afterStart (s : State) : State :=
  if busHeld s then { afterOp .start s.par.st.rstart .rstart s with phase := .startSent, nack := false }
  else { afterOp .start s.par.st.start .start (stopDone s) with phase := .startSent, nack := false }

/-- What `stop()` leaves: the stop is requested (R163). -/
def afterStop (s : State) : State :=
  let s1 := stopDone s
  { s1 with ctrl := ctrlAfter s1 .stop false, pending := .stop, phase := .stop }

/-- What `tx(b)` leaves of an address byte (R164, R206). -/
def afterAddress (b : Byte) (s : State) : State :=
  let a := (drawAck .addr b s).1
  { afterOp .xferNack (addressStatus s.par.st (byteDir b) a) (.addr b a) s with
    twData := b, acks := s.acks.tail, phase := .addrSent, dir := byteDir b, nack := decide (a = .nack) }

/-- What `tx(b)` leaves of a data byte (R164, R207). -/
def afterSend (b : Byte) (s : State) : State :=
  let a := (drawAck .data b s).1
  { afterOp .xferNack (txStatus s.par.st a) (.tx b a) s with
    twData := b, acks := s.acks.tail, phase := .dataSent, nack := decide (a = .nack) }

/-- What `rx(more)` leaves (R165, R208). -/
def afterReceive (more : Bool) (s : State) : State :=
  let d := (drawByte s).1
  { afterOp (if more then .xferAck else .xferNack)
      (if more then s.par.st.dataRxAck else s.par.st.dataRxNack)
      (.rx d (if more then .ack else .nack)) s with
    twData := d, rxb := d, bytes := s.bytes.tail, phase := .dataReceived, nack := !more }

/-- What `rega(reg, rsz)` leaves (R166). -/
def afterRega (rsz : RegSize) (reg : BitVec 16) (s : State) : State :=
  match rsz with
  | .w8 => afterSend (regLow reg) s
  | .w16 =>
    let s1 := afterSend (regHigh reg) s
    if s1.st = s.par.st.dataTxAck then afterSend (regLow reg) s1 else s1

/-- Steps 7 and 8 of `wrmem` (R181): the bytes in order, up to the first that is not ACKed. -/
def sendAll : List Byte → State → State
  | [], s => s
  | b :: rest, s =>
    let s1 := afterSend b s
    if s1.st = s.par.st.dataTxAck then sendAll rest { s1 with cnt := s1.cnt + 1 } else s1

/-- The first bytes of the payload buffer (R45). -/
def payload (s : State) (n : Nat) : List Byte := (List.range n).map fun i => bufRead i s

/-- `stop(); return ST` (R185). -/
def aborted (s : State) : Byte × State := (s.st, afterStop s)

/-- `wrmem(slave, reg, rsz, length)` as the procedure R181 prints: the value returned and the state left. -/
def wrmemResult (rsz : RegSize) (slave : BitVec 7) (length : Byte) (reg : BitVec 16) (s : State) :
    Byte × State :=
  let s1 := afterStart s
  if s1.st ≠ s.par.st.start then aborted s1 else
  let s2 := afterAddress (addressByte slave .W) s1
  if s2.st ≠ s.par.st.slawAck then aborted s2 else
  let s3 := afterRega rsz reg s2
  if s3.st ≠ s.par.st.dataTxAck then aborted s3 else
  let s4 := sendAll (payload s length.toNat) { s3 with cnt := 0 }
  if s4.st ≠ s.par.st.dataTxAck then aborted s4 else
  (s.par.twOk, if length = 0 then s4 else afterStop s4)

/-- Steps 7 and 8 of `rdmem` for so many bytes still to come: each is stored, the last is NACKed (R183). -/
def receiveAll : Nat → State → State
  | 0, s => s
  | k + 1, s =>
    let s1 := afterReceive (decide (k ≠ 0)) s
    receiveAll k { bufWrite s1.cnt.toNat s1.rxb s1 with cnt := s1.cnt + 1 }

/-- `rdmem(slave, reg, rsz, length)` as the procedure R183 prints, with no bus faults: a receive then never
fails (R184). -/
def rdmemResult (rsz : RegSize) (slave : BitVec 7) (length : Byte) (reg : BitVec 16) (s : State) :
    Byte × State :=
  let r := wrmemResult rsz slave 0 reg s
  if r.1 ≠ s.par.twOk then r else
  let s1 := afterStart r.2
  if s1.st ≠ s.par.st.rstart then aborted s1 else
  let s2 := afterAddress (addressByte slave .R) s1
  if s2.st ≠ s.par.st.slarAck then aborted s2 else
  (s.par.twOk, afterStop (receiveAll length.toNat { s2 with cnt := 0 }))

/-- The event of a stop that had to be done first (R203). -/
def stopFirst (s : State) : List BusEvent := if s.phase = .stop then [.stop] else []

/-- The bytes of a register address, high first (R166). -/
def regBytes (rsz : RegSize) (reg : BitVec 16) : List Byte :=
  match rsz with
  | .w8 => [regLow reg]
  | .w16 => [regHigh reg, regLow reg]

/-- Bytes sent and ACKed (R182). -/
def txAcked (bs : List Byte) : List BusEvent := bs.map fun b => .tx b .ack

/-- Bytes received: all ACKed but the last (R183). -/
def rxEvents : List Byte → List BusEvent
  | [] => []
  | [b] => [.rx b .nack]
  | b :: c :: rest => .rx b .ack :: rxEvents (c :: rest)

/-- The must-be-zero bits of the words of each opcode, the port code apart (R91 to R95, R99). -/
def mbzMasks : List (Byte × Cw40) :=
  [(0x01, 0x0000FFFFF8), (0x02, 0x0000FFFFF8), (0x03, 0x0000FFFFF8),
   (0x10, 0x00FCF8FFFC), (0x11, 0x00FCF8FFFE), (0x12, 0x00FCF8FFFF), (0x13, 0x00FCF8FFFF),
   (0x20, 0x00FFFFFFFF), (0x21, 0x00FFFFFFFF), (0x22, 0x00FFFFFF00), (0x23, 0x00FFFFFFFE),
   (0x24, 0x00FEFF0000), (0x28, 0x0000000000), (0x29, 0x0000000000)]

end Sys2Proof.Machine
end

