-- ==== Sys2Proof/Certificates/Slice0/Obligations.lean ====
section
/-! DEFINITION. The statements for the provers, from the spec's numbered rules. `Quiet` is an idle sequencer, no
turn of another agent and no bus faults; `QuietFair` adds a weakly fair engine and parameters that meet R8. With no turn
planned the engine steps only where it is waited for (log 24). -/

section

open Sys2Proof Sys2Proof.Machine

/-! ### Encoding -/

/-- Words the spec prints decode to the commands it prints them for (R121 to R183, section 2 of 95). -/
def Obligations.DecodeOfSpecWords : Prop :=
  decode 0x0125000005 = .ok (.setbit 0x25 5) ∧ decode 0x022A000000 = .ok (.clrbit 0x2A 0) ∧
  decode 0x0324000005 = .ok (.tstbit 0x24 5) ∧ decode 0x1000050003 = .ok (.cfgpinOut .B 5 true) ∧
  decode 0x1002020002 = .ok (.cfgpinInpu .D 2) ∧ decode 0x1001000000 = .ok (.cfgpinIn .C 0) ∧
  decode 0x1100050001 = .ok (.wrpin .B 5 true) ∧ decode 0x1202070000 = .ok (.tglpin .D 7) ∧
  decode 0x1300000000 = .ok (.rdpin .B 0) ∧ decode 0x22000000A0 = .ok (.twtx 0xA0) ∧
  decode 0x2401001234 = .ok (.twrega .w16 0x1234) ∧ decode 0x29D0031234 = .ok (.twrdmem .w16 0x50 3 0x1234)

/-- R90 to R97, R200: decoding an encoded instruction gives it back, for every instruction with every operand. -/
def Obligations.DecodeEncodeRoundTrip : Prop :=
  ∀ (par : Params) (i : Instr), paramsOk par = true → decodeCode par (encode par i) = .ok i

/-- R90 to R97, R99, R200: a word that decodes is the encoding of what it decodes to: no bit is dropped. -/
def Obligations.EncodeOfDecodedWord : Prop :=
  ∀ (par : Params) (c : Code) (i : Instr), decodeCode par c = .ok i → encode par i = c

/-- R97: the decoder is the opcode map: a word decodes to a row's command exactly if it selects the row, and no
two rows overlap. -/
def Obligations.OpcodeMapIsTheDecoder : Prop :=
  (∀ (w : Cw40) (row : OpcodeRow), row ∈ opcodeRows →
    ((∃ i, decode w = .ok i ∧ mnemonic i = row.name) ↔ rowSelected w row = true)) ∧
  ∀ (w : Cw40), (opcodeRows.filter (rowSelected w)).length ≤ 1

/-- R96: every operand is the unsigned value of its field, a slice of the word. -/
def Obligations.OperandsAreTheirFields : Prop :=
  ∀ (w : Cw40) (i : Instr), decode w = .ok i →
    let a := w.toNat / 2 ^ 24 % 2 ^ 8
    let b := w.toNat / 2 ^ 16 % 2 ^ 8
    let c := w.toNat % 2 ^ 16
    match i with
    | .setbit addr bit => addr.toNat = a ∧ bit.toNat = c % 8
    | .clrbit addr bit => addr.toNat = a ∧ bit.toNat = c % 8
    | .tstbit addr bit => addr.toNat = a ∧ bit.toNat = c % 8
    | .cfgpinOut p n pu =>
      (portCode p).toNat = a % 4 ∧ n.toNat = b % 8 ∧ c % 2 = 1 ∧ pu.toNat = c / 2 % 2
    | .cfgpinInpu p n => (portCode p).toNat = a % 4 ∧ n.toNat = b % 8 ∧ c % 2 = 0 ∧ c / 2 % 2 = 1
    | .cfgpinIn p n => (portCode p).toNat = a % 4 ∧ n.toNat = b % 8 ∧ c % 2 = 0 ∧ c / 2 % 2 = 0
    | .wrpin p n l => (portCode p).toNat = a % 4 ∧ n.toNat = b % 8 ∧ l.toNat = c % 2
    | .tglpin p n => (portCode p).toNat = a % 4 ∧ n.toNat = b % 8
    | .rdpin p n => (portCode p).toNat = a % 4 ∧ n.toNat = b % 8
    | .twstart => a = 0
    | .twstop => a = 0
    | .twtx v => v.toNat = c % 2 ^ 8
    | .twrx more => more.toNat = c % 2
    | .twrega rsz reg => (regSizeBit rsz).toNat = a % 2 ∧ reg.toNat = c
    | .twwrmem rsz slave length reg =>
      (regSizeBit rsz).toNat = a / 2 ^ 7 ∧ slave.toNat = a % 2 ^ 7 ∧ length.toNat = b ∧ reg.toNat = c
    | .twrdmem rsz slave length reg =>
      (regSizeBit rsz).toNat = a / 2 ^ 7 ∧ slave.toNat = a % 2 ^ 7 ∧ length.toNat = b ∧ reg.toNat = c
    | .cwStart => False
    | .cwStop => False
    | .cwXferNack => False
    | .cwXferAck => False

/-- R100: every opcode but the fourteen is refused by name, by the decoder and by the step that fetches it. -/
def Obligations.ReservedOpcodeRefused : Prop :=
  ∀ (w : Cw40), fieldOp w ∉ mbzMasks.map Prod.fst →
    decode w = .error .reservedOpcode ∧
    ∀ s : State, s.plan = [] → s.upc = 0 → s.prog[s.pc]? = some w → step s = .refused .reservedOpcode

/-- R99, R101: a must-be-zero bit that is 1 and port code 3 are refused by name; every other word with one of the
fourteen opcodes decodes. That the field is named before the port, where both are wrong, is log 12. -/
def Obligations.ReservedFieldsAndPortRefused : Prop :=
  ∀ (w mbz : Cw40) (op : Byte) (s : State), (op, mbz) ∈ mbzMasks → fieldOp w = op →
    s.plan = [] → s.upc = 0 → s.prog[s.pc]? = some w →
    (w &&& mbz ≠ 0 → step s = .refused .reservedField) ∧
    (w &&& mbz = 0 → op ∈ ([0x10, 0x11, 0x12, 0x13] : List Byte) → (fieldA w).extractLsb' 0 2 = 3 →
      step s = .refused .reservedPort) ∧
    (w &&& mbz = 0 → (op ∈ ([0x10, 0x11, 0x12, 0x13] : List Byte) → (fieldA w).extractLsb' 0 2 ≠ 3) →
      ∃ i, decode w = .ok i)

/-- R200, R202, R237: the byte of a control word has a 1 in the positions of `INT`, `EN` and its own flag and
nowhere else; a byte that is none of the four is refused when it is written, under a name of its own when it sets
the interrupt enable. That this comes before the hold of R203, where a stop is on its way, is log 26. -/
def Obligations.ControlBytesAndTheirRefusals : Prop :=
  (∀ (par : Params) (w : CtrlWord) (n : BitIx), paramsOk par = true →
    (testBit (ctrlWordByte par.bits w) n = true ↔
      n = par.bits.int ∨ n = par.bits.en ∨ (w = .start ∧ n = par.bits.sta) ∨ (w = .stop ∧ n = par.bits.sto) ∨
        (w = .xferAck ∧ n = par.bits.ea))) ∧
  (∀ (s : State) (rest : List Turn) (v : Byte), paramsOk s.par = true → s.par.otherPresent = true →
    s.plan = .other (.write s.par.twCtrl v) :: rest →
    (∀ w, v ≠ ctrlWordByte s.par.bits w) →
    step s = .refused (if testBit v s.par.bits.ie then .interruptEnableSet else .ctrlWordNotAdmitted))

/-! ### The step -/

/-- R26: a step runs the decoded instruction: an idle sequencer latches the fetched word and starts it, a busy one
goes on with the command it holds; a control word that `Other` writes runs in its turn. Where no command is left and
nothing is pending, the machine idles (R18, log 18). -/
def Obligations.StepRunsTheDecodedInstruction : Prop :=
  (∀ (s : State) (w : Cw40) (i : Instr), (s.plan = [] ∨ s.plan.head? = some .seq) → s.upc = 0 →
    s.prog[s.pc]? = some w → decode w = .ok i → step s = exec i { s with cmd := w }) ∧
  (∀ (s : State) (i : Instr), (s.plan = [] ∨ s.plan.head? = some .seq) → s.upc ≠ 0 → decode s.cmd = .ok i →
    step s = exec i s) ∧
  (∀ (s : State) (rest : List Turn) (v : Byte) (i : Instr), paramsOk s.par = true →
    s.par.otherPresent = true → s.plan = .other (.write s.par.twCtrl v) :: rest →
    decodeCtrl s.par.bits v = .ok i → step s = exec i { s with plan := rest }) ∧
  (∀ s : State, runEnded s = true → s.plan = [] → ∃ d, step s = .next { s with draws := d })

/-- R260, R261: the reset input, whatever the sequencer and the engine were doing: every stored register, the
engine, the logs and the position are at their reset values and no response is produced. -/
def Obligations.ResetInputResetsEverything : Prop :=
  ∀ (s : State) (rest : List Turn), s.plan = .reset :: rest →
    ∃ t, step s = .next t ∧
      (∀ p, (getPort t p).dir = 0 ∧ (getPort t p).out = 0 ∧ (getPort t p).ext = (getPort s p).ext) ∧
      ctrlByte t.par.bits t.ctrl = 0 ∧ statusByte t = 0 ∧ t.twData = 0 ∧ t.twBitrate = 0 ∧
      t.ctrl = TwCtrl.reset ∧ t.phase = .idle ∧ t.dir = .W ∧ t.nack = false ∧ t.pending = .none ∧
      t.pc = 0 ∧ t.upc = 0 ∧ t.rsp = [] ∧ t.buslog = [] ∧ t.buf = s.buf ∧ SameProgram s t

/-- R261, R262: the machine right after reset: every stored register is 0, every pin is an input with its pull-up
off, the TWI is idle with the bus not held, nothing is pending, and the first command is `PROG[0]`. -/
def Obligations.ResetValues : Prop :=
  (∀ p, (getPort State.reset p).dir = 0 ∧ (getPort State.reset p).out = 0) ∧
  (∀ p n, pinState State.reset p n = .inPullupOff) ∧
  ctrlByte State.reset.par.bits State.reset.ctrl = 0 ∧ statusByte State.reset = 0 ∧
  State.reset.twData = 0 ∧ State.reset.twBitrate = 0 ∧ State.reset.phase = .idle ∧ State.reset.dir = .W ∧
  State.reset.nack = false ∧ State.reset.pending = .none ∧ busHeld State.reset = false ∧
  State.reset.pc = 0 ∧ State.reset.upc = 0 ∧ State.reset.rsp = [] ∧ State.reset.buslog = []

/-- R45, R47: the buffer side port: in its turn, while the sequencer is idle, the host changes one byte of `BUF`
and nothing else. -/
def Obligations.HostSidePortWritesOneByte : Prop :=
  ∀ (s : State) (rest : List Turn) (i : Nat) (v : Byte), Memory.wf s.buf = true → s.upc = 0 →
    i < s.par.bufSize → s.plan = .host i v :: rest →
    ∃ t, step s = .next t ∧ (∀ j, bufRead j t = if j = i then v else bufRead j s) ∧
      { t with buf := s.buf } = { s with plan := rest }

/-! ### Register reads and writes -/

/-- R69, R67: a read of `TW_CTRL` shows each bit at its position and 0 elsewhere; a read of `TW_STATUS` shows the
status field, a 0 in bit 2 and the prescaler bits; neither read changes the state. -/
def Obligations.ControlAndStatusReadBack : Prop :=
  ∀ s : State, paramsOk s.par = true →
    (∀ n : BitIx, testBit (regRead .twCtrl s).1 n =
      if n = s.par.bits.int then s.ctrl.int else if n = s.par.bits.ea then s.ctrl.ea
      else if n = s.par.bits.sta then s.ctrl.sta else if n = s.par.bits.sto then s.ctrl.sto
      else if n = s.par.bits.wc then s.ctrl.wc else if n = s.par.bits.en then s.ctrl.en
      else if n = s.par.bits.ie then s.ctrl.ie else false) ∧
    (regRead .twStatus s).1.toNat = s.twCode.toNat * 8 + s.ps.toNat ∧
    (regRead .twCtrl s).2 = s ∧ (regRead .twStatus s).2 = s

/-- R62, R63, R65, R66, R67, R68: what one write on the register bus does, to each register but `TW_CTRL`, and that
a plain-storage register then reads as it was written. The write is a turn of `Other`, who may make any (R75). -/
def Obligations.RegisterWriteEffects : Prop :=
  ∀ (s : State) (rest : List Turn) (r : Reg) (v : Byte), paramsOk s.par = true → s.par.otherPresent = true →
    r ≠ .twCtrl → s.plan = .other (.write (regAddr s.par r) v) :: rest →
    let u : State := { s with plan := rest }
    step s = (match r with
      | .dir p => .next (setPort u p { getPort s p with dir := v })
      | .out p => .next (setPort u p { getPort s p with out := v })
      | .input p => .next (setPort u p { getPort s p with out := (getPort s p).out ^^^ v })
      | .twBitrate => .next { u with twBitrate := v }
      | .twStatus => .next { u with ps := v.extractLsb' 0 2 }
      | .twData => if s.ctrl.int then .next { u with twData := v } else .refused .dataWriteWhileBusy
      | .twCtrl => .refused .ctrlWordNotAdmitted) ∧
    (plainStorage r = true → ∃ t, step s = .next t ∧ regRead r t = (v, t))

/-- R61: an address equal to one of the 13 selects that register; any other address is refused, by each of the four
operations and by each of the three commands that take one. -/
def Obligations.AddressDecode : Prop :=
  (∀ (par : Params) (r : Reg), paramsOk par = true → regAt par (regAddr par r) = some r) ∧
  ∀ (s : State) (a : Byte), (∀ r, regAddr s.par r ≠ a) →
    (∀ (bit : BitIx), s.upc = 0 → s.plan = [] →
      exec (.setbit a bit) s = .refused .unmappedAddress ∧ exec (.clrbit a bit) s = .refused .unmappedAddress ∧
      exec (.tstbit a bit) s = .refused .unmappedAddress) ∧
    ∀ (rest : List Turn) (bit : BitIx) (v : Byte), s.par.otherPresent = true →
      ∀ op ∈ [BusOp.read a, .write a v, .bitSet a bit, .bitClear a bit],
        s.plan = .other op :: rest → step s = .refused .unmappedAddress

/-- R71: the bit operations as steps of `Other`: on a plain-storage register one bit changes and the other seven
keep their values; on any other register they are refused. A turn of `Other` is one step whatever `BITOP_ATOMIC`
is (log 15). -/
def Obligations.BitOperationsOfOther : Prop :=
  ∀ (s : State) (rest : List Turn) (r : Reg) (b : BitIx), paramsOk s.par = true → s.par.otherPresent = true →
    (s.plan = .other (.bitSet (regAddr s.par r) b) :: rest →
      if plainStorage r then
        ∃ t, step s = .next t ∧ t = storeReg r (regRead r t).1 { s with plan := rest } ∧
          ∀ n, testBit (regRead r t).1 n = (decide (n = b) || testBit (regRead r s).1 n)
      else step s = .refused .bitopOnSideEffectRegister) ∧
    (s.plan = .other (.bitClear (regAddr s.par r) b) :: rest →
      if plainStorage r then
        ∃ t, step s = .next t ∧ t = storeReg r (regRead r t).1 { s with plan := rest } ∧
          ∀ n, testBit (regRead r t).1 n = (!decide (n = b) && testBit (regRead r s).1 n)
      else step s = .refused .bitopOnSideEffectRegister)

/-! ### SETBIT, CLRBIT, TSTBIT -/

/-- R121, R122: `SETBIT` and `CLRBIT` on a plain-storage register: the bit becomes 1 (0), the other seven are
unchanged, nothing else changes but the response, the position and, where the operation takes two steps (R72), the
latch `t`, here `x`; on every other register, and at an address that is none of the 13, they are refused. -/
def Obligations.SetbitClrbitResult : Prop :=
  ∀ (s : State) (addr : Byte) (bit : BitIx), s.upc = 0 → s.plan = [] →
    match regAt s.par addr with
    | none =>
      exec (.setbit addr bit) s = .refused .unmappedAddress ∧ exec (.clrbit addr bit) s = .refused .unmappedAddress
    | some r =>
      if plainStorage r then
        (∃ (v x : Byte) (t : State), (∀ n, testBit v n = (decide (n = bit) || testBit (regRead r s).1 n)) ∧
          (s.par.bitopAtomic = true → x = s.tmp) ∧
          t = respond 0x00 0x00 (storeReg r v { s with tmp := x }) ∧
          exec (.setbit addr bit) s = .next t ∧ (regRead r t).1 = v) ∧
        ∃ (v x : Byte) (t : State), (∀ n, testBit v n = (!decide (n = bit) && testBit (regRead r s).1 n)) ∧
          (s.par.bitopAtomic = true → x = s.tmp) ∧
          t = respond 0x00 0x00 (storeReg r v { s with tmp := x }) ∧
          exec (.clrbit addr bit) s = .next t ∧ (regRead r t).1 = v
      else
        exec (.setbit addr bit) s = .refused .bitopOnSideEffectRegister ∧
        exec (.clrbit addr bit) s = .refused .bitopOnSideEffectRegister

/-- R123: `TSTBIT` responds the tested bit of any of the 13 registers, whatever it is, and changes nothing else: `x` is
the latch `t`, `d` the count of draws, which a read of an `IN` register takes. On `A_TW_CTRL` at `B_INT` the bit is the
interrupt flag. At any other address it is refused. -/
def Obligations.TstbitResult : Prop :=
  ∀ (s : State) (addr : Byte) (bit : BitIx), s.upc = 0 → s.plan = [] →
    match regAt s.par addr with
    | none => exec (.tstbit addr bit) s = .refused .unmappedAddress
    | some r =>
      (∃ x d, ((∀ p, r ≠ .input p) → d = s.draws) ∧
        exec (.tstbit addr bit) s =
          .next (respond 0x00 (if testBit (regRead r s).1 bit then 0x01 else 0x00) { s with tmp := x, draws := d })) ∧
      (paramsOk s.par = true → r = .twCtrl → bit = s.par.bits.int → testBit (regRead r s).1 bit = s.ctrl.int)

/-- R120, R121 to R123: what the register primitives, aimed at a register they admit, leave alone in every state in
which no other agent has a turn, mid-command states among them: the TWI's control, status and data registers, every port
register and the bit rate register but the one the address names (`TSTBIT` spares that one too), the engine, the pads,
the buffer, the status, count, snapshot and data latches, the bus log. -/
def Obligations.RegisterPrimitiveFrame : Prop :=
  ∀ (i : Instr) (s t : State) (a : Byte) (b : BitIx), i ∈ [Instr.setbit a b, .clrbit a b, .tstbit a b] →
    wellFormed s.par i = true → s.plan = [] → exec i s = .next t →
    t.ctrl = s.ctrl ∧ t.twCode = s.twCode ∧ t.ps = s.ps ∧ t.twData = s.twData ∧
    (∀ p, (regAt s.par a ≠ some (.dir p) → (getPort t p).dir = (getPort s p).dir) ∧
      (regAt s.par a ≠ some (.out p) → (getPort t p).out = (getPort s p).out)) ∧
    (regAt s.par a ≠ some .twBitrate → t.twBitrate = s.twBitrate) ∧
    (i = .tstbit a b → SamePorts s t ∧ t.twBitrate = s.twBitrate) ∧
    t.phase = s.phase ∧ t.dir = s.dir ∧
    t.nack = s.nack ∧ t.pending = s.pending ∧ t.buslog = s.buslog ∧ SameBuf s t ∧
    (∀ p, (getPort t p).ext = (getPort s p).ext) ∧ t.st = s.st ∧ t.cnt = s.cnt ∧ t.rxb = s.rxb ∧
    t.snapD = s.snapD ∧ t.snapL = s.snapL ∧ t.cmd = s.cmd ∧ SameProgram s t

/-! ### GPIO -/

/-- R131, R132: `CFGPIN .., OUT` from every state of the pin, whatever `pu` is: the two latches hold the snapshot,
the level bit is cleared if the snapshot is (0,1), the direction bit is set, the pin ends `OUT_HIGH` if it was and
`OUT_LOW` otherwise, nothing else changes (`x` is the latch `t`, which only the two-step bit operation of R72
writes). -/
def Obligations.CfgpinOutResult : Prop :=
  ∀ (s : State) (p : Port) (n : BitIx) (pu : Bool), s.upc = 0 → s.plan = [] →
    ∃ x t, (s.par.bitopAtomic = true → x = s.tmp) ∧
      t = respond s.par.resSuccess 0x00
        (setPort { s with snapD := (pinPair s p n).1, snapL := (pinPair s p n).2, tmp := x } p
          { getPort s p with
            dir := (getPort s p).dir ||| oneHot n,
            out := if pinPair s p n = (false, true) then (getPort s p).out &&& ~~~oneHot n
              else (getPort s p).out }) ∧
      exec (.cfgpinOut p n pu) s = .next t ∧
      pinState t p n = (if pinState s p n = .outHigh then .outHigh else .outLow)

/-- R131, R133, R134: `CFGPIN .., INPU` ends in `IN_PULLUP_ON` and `CFGPIN .., IN` in `IN_PULLUP_OFF` from every state
of the pin: the direction bit ends 0, the level bit 1 (0), the two latches hold the snapshot, nothing else changes
(`x` as in CfgpinOutResult). -/
def Obligations.CfgpinInputResults : Prop :=
  ∀ (s : State) (p : Port) (n : BitIx), s.upc = 0 → s.plan = [] →
    (∃ x t, (s.par.bitopAtomic = true → x = s.tmp) ∧
      t = respond s.par.resSuccess 0x00
        (setPort { s with snapD := (pinPair s p n).1, snapL := (pinPair s p n).2, tmp := x } p
          { getPort s p with
            dir := (getPort s p).dir &&& ~~~oneHot n, out := (getPort s p).out ||| oneHot n }) ∧
      exec (.cfgpinInpu p n) s = .next t ∧ pinState t p n = .inPullupOn) ∧
    (∃ x t, (s.par.bitopAtomic = true → x = s.tmp) ∧
      t = respond s.par.resSuccess 0x00
        (setPort { s with snapD := (pinPair s p n).1, snapL := (pinPair s p n).2, tmp := x } p
          { getPort s p with
            dir := (getPort s p).dir &&& ~~~oneHot n, out := (getPort s p).out &&& ~~~oneHot n }) ∧
      exec (.cfgpinIn p n) s = .next t ∧ pinState t p n = .inPullupOff)

/-- R135: the transition table of `CFGPIN`, cell by cell: the pair of the pin after every write, and the number of
register-bus operations (with the bit operations in one step). -/
def Obligations.CfgpinTransitionTable : Prop :=
  ∀ (s : State) (p : Port) (n : BitIx), s.par.bitopAtomic = true →
    let out := (pinWalk (cfgpinOutLines s.par p n) s p n, busOpCount (cfgpinOutLines s.par p n) s)
    let inpu := (pinWalk (cfgpinInpuLines s.par p n) s p n, busOpCount (cfgpinInpuLines s.par p n) s)
    let inn := (pinWalk (cfgpinInLines s.par p n) s p n, busOpCount (cfgpinInLines s.par p n) s)
    match pinState s p n with
    | .inPullupOff =>
      out = ([(true, false)], 3) ∧ inpu = ([(false, false), (false, true)], 4) ∧
      inn = ([(false, false), (false, false)], 4)
    | .inPullupOn =>
      out = ([(false, false), (true, false)], 4) ∧ inpu = ([(false, true), (false, true)], 4) ∧
      inn = ([(false, true), (false, false)], 4)
    | .outLow =>
      out = ([(true, false)], 3) ∧ inpu = ([(true, true), (false, true), (false, true)], 5) ∧
      inn = ([(false, false), (false, false)], 4)
    | .outHigh =>
      out = ([(true, true)], 3) ∧ inpu = ([(false, true), (false, true)], 4) ∧
      inn = ([(true, true), (true, false), (false, false), (false, false)], 6)

/-- R136: `WRPIN` writes the level bit of its pin, output or input, and nothing else; the direction is neither read nor
written (`x` as in CfgpinOutResult). -/
def Obligations.WrpinResult : Prop :=
  ∀ (s : State) (p : Port) (n : BitIx) (level : Bool), s.upc = 0 → s.plan = [] →
    ∃ x t, (s.par.bitopAtomic = true → x = s.tmp) ∧
      exec (.wrpin p n level) s = .next t ∧
      t = respond s.par.resSuccess 0x00
        (setPort { s with tmp := x } p
          { getPort s p with
            out := if level then (getPort s p).out ||| oneHot n else (getPort s p).out &&& ~~~oneHot n }) ∧
      pinPair t p n = ((pinPair s p n).1, level)

/-- R137: `TGLPIN` inverts the level bit of its pin in one register-bus operation and changes nothing else; two of
them with no other writer between restore the output register. -/
def Obligations.TglpinResult : Prop :=
  ∀ (s : State) (p : Port) (n : BitIx), s.upc = 0 → s.plan = [] →
    (∃ t, exec (.tglpin p n) s = .next t ∧
      t = respond s.par.resSuccess 0x00
        (setPort s p { getPort s p with out := (getPort s p).out ^^^ oneHot n }) ∧
      pinPair t p n = ((pinPair s p n).1, !(pinPair s p n).2) ∧
      busOpCount (tglpinLines s.par p n) s = 1) ∧
    ∃ t, execAll [.tglpin p n, .tglpin p n] s = .next t ∧ getPort t p = getPort s p

/-- R138: `RDPIN` responds bit `n` of a read of `IN[port]` and changes nothing else: `x` is the latch `t`, `d` the count
of draws. -/
def Obligations.RdpinResult : Prop :=
  ∀ (s : State) (p : Port) (n : BitIx), s.upc = 0 → s.plan = [] →
    ∃ x d, exec (.rdpin p n) s =
      .next (respond s.par.resSuccess (if testBit (regRead (.input p) s).1 n then 0x01 else 0x00)
        { s with tmp := x, draws := d })

/-- R41, R64: the level a read of `IN` shows of a pin: an output shows its level bit unless the outside fights it, an
input shows what drives it, else its pull-up; where the rule draws, the level is the drawn bit. The spec derives R41 from R32, R33 and R40; the
drawn bit and the count of draws are log 5. -/
def Obligations.PinLevelOfARead : Prop :=
  ∀ (s : State) (p : Port) (n : BitIx),
    let d := (pinPair s p n).1
    let l := (pinPair s p n).2
    let e := extAt (getPort s p) n
    let x := testBit (Config.freeLevels s.draws) n
    (regRead (.input p) s).2 = { s with draws := s.draws + 1 } ∧
    testBit (regRead (.input p) s).1 n =
      (if s.par.inModel = .free then x
       else if d = true then
         if e = .Z ∨ (e = .L ∧ l = false) ∨ (e = .H ∧ l = true) then l else x
       else if e = .L then false
       else if e = .H then true
       else if l = true then true
       else x)

/-- R140: every writing step of a GPIO command, with the bit operations in one step, changes at most one of the two
bits of the pin. The spec derives R140 from R135. -/
def Obligations.OneBitOfThePinAtATime : Prop :=
  ∀ (par : Params) (i : Instr) (l : Line) (p : Port) (n : BitIx) (s t : State), par.bitopAtomic = true →
    gpioPin i = some (p, n) → l ∈ commandLines par i → lineStep l s = .done t →
    (pinPair t p n).1 = (pinPair s p n).1 ∨ (pinPair t p n).2 = (pinPair s p n).2

/-- R130, R141: what a GPIO command leaves alone in every state in which no other agent has a turn, mid-command
states among them: every bit of every port but bit `n` of its own `DIR` and `OUT`, the pads, the TWI, the buffer. The
spec derives R141 from R132 to R137. With the bit operations in one step: a two-step one writes back a byte it read
earlier. -/
def Obligations.GpioFrame : Prop :=
  ∀ (i : Instr) (p : Port) (n : BitIx) (s t : State), gpioPin i = some (p, n) → s.plan = [] →
    s.par.bitopAtomic = true → exec i s = .next t →
    (∀ q m, (q, m) ≠ (p, n) → pinPair t q m = pinPair s q m) ∧
    (∀ q, (getPort t q).ext = (getPort s q).ext) ∧ SameTwi s t ∧ SameBuf s t ∧
    t.st = s.st ∧ t.cnt = s.cnt ∧ t.rxb = s.rxb ∧ t.cmd = s.cmd ∧ SameProgram s t

/-- R106, R143: the sixteen source and target pairs: `SETSTATE` ends with the pin in the target, whatever the
source. The spec derives R143 from R135 and R136. -/
def Obligations.SetstateReachesItsTarget : Prop :=
  ∀ (s : State) (p : Port) (n : BitIx) (target : PinState), s.upc = 0 → s.plan = [] →
    ∃ t, execAll (setStateCommands p n target) s = .next t ∧ pinState t p n = target ∧
      t.rsp.length = s.rsp.length + (setStateCommands p n target).length

/-- R34, R12: the pad outputs of each of the 24 pins follow its pair at once; nothing is claimed of the two pins of port
C that the two-wire bus shares while the TWI is enabled (R266, log 23). The spec derives R34. -/
def Obligations.PadsFollowThePair : Prop :=
  ∀ (s : State) (p : Port) (n : BitIx),
    (p = .C → s.ctrl.en = true → n ≠ s.par.sdaPin ∧ n ≠ s.par.sclPin) →
    padOut s p n =
      { oe := (pinPair s p n).1, level := (pinPair s p n).2, pu := decide (pinState s p n = .inPullupOn) }

/-! ### Interleavings -/

/-- R142, R267, I1: `Other` rewrites the level register after the snapshot of `CFGPIN .., OUT`. The command follows
the branch its snapshot chose: after the snapshot (0,1) it still clears the level bit; after every other it keeps
`Other`'s level; the direction bit ends 1. -/
def Obligations.StaleSnapshotIsFollowed : Prop :=
  ∀ (s : State) (p : Port) (n : BitIx) (pu : Bool) (v : Byte), paramsOk s.par = true →
    s.par.otherPresent = true → s.par.bitopAtomic = true → s.upc = 0 →
    s.plan = [.seq, .seq, .other (.write (regAddr s.par (.out p)) v)] →
    ∃ t, exec (.cfgpinOut p n pu) s = .next t ∧ (pinPair t p n).1 = true ∧
      (getPort t p).out = (if pinPair s p n = (false, true) then v &&& ~~~oneHot n else v) ∧
      Responded s t s.par.resSuccess 0x00

/-- R72, R268, I2: with `BITOP_ATOMIC = false`, what `Other` writes between the two steps of a `SETBIT` is lost. -/
def Obligations.TwoStepBitOperationLosesUpdate : Prop :=
  ∀ (s : State) (r : Reg) (bit : BitIx) (v : Byte), paramsOk s.par = true → plainStorage r = true →
    s.par.otherPresent = true → s.par.bitopAtomic = false → s.upc = 0 →
    s.plan = [.seq, .other (.write (regAddr s.par r) v)] →
    ∃ t, exec (.setbit (regAddr s.par r) bit) s = .next t ∧
      (regRead r t).1 = (regRead r s).1 ||| oneHot bit ∧ Responded s t 0x00 0x00

/-- R71, R124: with `BITOP_ATOMIC = true`, a `SETBIT` or `CLRBIT` never undoes a change of `Other` to another bit of
the same register, whichever of the two comes first. -/
def Obligations.AtomicBitOperationKeepsUpdate : Prop :=
  ∀ (s : State) (r : Reg) (bit c : BitIx) (first : List Turn), paramsOk s.par = true → plainStorage r = true →
    s.par.otherPresent = true → s.par.bitopAtomic = true → s.upc = 0 → c ≠ bit → first ∈ [[], [Turn.seq]] →
    (s.plan = first ++ [.other (.bitSet (regAddr s.par r) c)] →
      ∃ t, exec (.clrbit (regAddr s.par r) bit) s = .next t ∧
        testBit (regRead r t).1 c = true ∧ testBit (regRead r t).1 bit = false) ∧
    (s.plan = first ++ [.other (.bitClear (regAddr s.par r) c)] →
      ∃ t, exec (.setbit (regAddr s.par r) bit) s = .next t ∧
        testBit (regRead r t).1 c = false ∧ testBit (regRead r t).1 bit = true) ∧
    (s.plan = first ++ [.other (.bitSet (regAddr s.par r) c)] →
      ∃ t, exec (.setbit (regAddr s.par r) bit) s = .next t ∧
        testBit (regRead r t).1 c = true ∧ testBit (regRead r t).1 bit = true) ∧
    (s.plan = first ++ [.other (.bitClear (regAddr s.par r) c)] →
      ∃ t, exec (.clrbit (regAddr s.par r) bit) s = .next t ∧
        testBit (regRead r t).1 c = false ∧ testBit (regRead r t).1 bit = false)

/-! ### Control words and the bus engine -/

/-- R201, R203, R205: a control word written by itself: the bits are stored, the flag is cleared, the operation is
launched, and nothing else changes, the bus among it; with another operation pending it is refused; while a stop is on
its way it is held: the engine's stop comes first, and where the engine does not step nothing happens. That the held
write gives the engine its chance at once, and that a step which nothing lifts answers a next state, is log 14; when
the engine takes the chance is its liveness (R213, log 3). -/
def Obligations.ControlWordLaunches : Prop :=
  ∀ (w : CtrlWord) (s : State),
    (EngineFree s →
      exec (ctrlInstr w) s = .next { s with
        ctrl := ctrlAfter s w false, pending := pendingOf w,
        phase := if w = .stop then .stop else s.phase }) ∧
    (s.phase ≠ .stop → s.pending ≠ .none → exec (ctrlInstr w) s = .refused .ctrlWriteWhilePending) ∧
    (StopPending s → s.par.engine = .fair →
      exec (ctrlInstr w) s = .next { stopDone s with
        ctrl := ctrlAfter s w false, pending := pendingOf w,
        phase := if w = .stop then .stop else .idle }) ∧
    (StopPending s → s.par.engine = .stuck → exec (ctrlInstr w) s = .next s) ∧
    (StopPending s → s.par.engine = .free →
      exec (ctrlInstr w) s = .next { s with draws := s.draws + 1 } ∨
      exec (ctrlInstr w) s = .next { stopDone s with
        ctrl := ctrlAfter s w false, pending := pendingOf w, draws := s.draws + 1,
        phase := if w = .stop then .stop else .idle })

/-- R204, R205: the engine's start step, and its stop step from any phase and whatever `BUS_FAULTS` is; a start sets the
flag, a stop does not. -/
def Obligations.EngineStartAndStopSteps : Prop :=
  ∀ (s : State) (rest : List Turn), s.plan = .engine :: rest → s.ctrl.en = true → s.ctrl.int = false →
    (s.par.busFaults = false → s.pending = .start →
      step s = .next { s with
        plan := rest, buslog := s.buslog ++ [if s.phase = .idle then .start else .rstart],
        twCode := codeField (if s.phase = .idle then s.par.st.start else s.par.st.rstart),
        phase := .startSent, nack := false, ctrl := { s.ctrl with int := true }, pending := .none }) ∧
    (s.pending = .stop →
      step s = .next { s with
        plan := rest, buslog := s.buslog ++ [.stop], ctrl := { s.ctrl with sto := false }, phase := .idle,
        nack := false, twCode := codeField s.par.st.noinfo, pending := .none })

/-- R206, R207, R208: the engine's transfer steps: the address after a start, a data byte out in write direction
whatever the last acknowledge was, a data byte in in read direction with the acknowledge that `EA` chooses. The
slave's answers are what the oracle draws (R211). -/
def Obligations.EngineTransferSteps : Prop :=
  ∀ (s : State) (rest : List Turn), s.plan = .engine :: rest → s.par.busFaults = false →
    s.ctrl.en = true → s.ctrl.int = false → s.pending = .xfer →
    let done : State := { s with plan := rest, ctrl := { s.ctrl with int := true }, pending := .none }
    let a := (drawAck .addr s.twData s).1
    let b := (drawAck .data s.twData s).1
    let d := (drawByte s).1
    (s.phase = .startSent →
      step s = .next { done with
        acks := s.acks.tail, buslog := s.buslog ++ [.addr s.twData a],
        dir := if s.twData.getLsbD 0 then .R else .W,
        twCode := codeField (if s.twData.getLsbD 0
          then (if a = .ack then s.par.st.slarAck else s.par.st.slarNack)
          else (if a = .ack then s.par.st.slawAck else s.par.st.slawNack)),
        nack := decide (a = .nack), phase := .addrSent }) ∧
    (s.phase = .addrSent ∨ s.phase = .dataSent → s.dir = .W →
      step s = .next { done with
        acks := s.acks.tail, buslog := s.buslog ++ [.tx s.twData b],
        twCode := codeField (if b = .ack then s.par.st.dataTxAck else s.par.st.dataTxNack),
        nack := decide (b = .nack), phase := .dataSent }) ∧
    (s.phase = .addrSent ∨ s.phase = .dataReceived → s.dir = .R → s.nack = false →
      step s = .next { done with
        bytes := s.bytes.tail, twData := d,
        buslog := s.buslog ++ [.rx d (if s.ctrl.ea then .ack else .nack)],
        twCode := codeField (if s.ctrl.ea then s.par.st.dataRxAck else s.par.st.dataRxNack),
        nack := !s.ctrl.ea, phase := .dataReceived })

/-- R212: with `BUS_FAULTS` the engine's start and its transfers may end in arbitration lost or a bus error instead,
with no event on the bus; the fields named are the only ones that change. -/
def Obligations.BusFaultOutcomes : Prop :=
  ∀ (s : State) (rest : List Turn) (more : List EngineOutcome), s.plan = .engine :: rest →
    s.par.busFaults = true → s.ctrl.en = true → s.ctrl.int = false →
    (s.pending = .start ∨ (s.pending = .xfer ∧ (s.phase = .startSent ∨
      (s.dir = .W ∧ (s.phase = .addrSent ∨ s.phase = .dataSent)) ∨
      (s.dir = .R ∧ s.nack = false ∧ (s.phase = .addrSent ∨ s.phase = .dataReceived))))) →
    let done : State :=
      { s with plan := rest, outcomes := more, ctrl := { s.ctrl with int := true }, pending := .none }
    (s.outcomes = .arbLost :: more →
      step s = .next { done with twCode := codeField s.par.st.arbLost, phase := .idle, nack := false }) ∧
    (s.outcomes = .busError :: more → step s = .next { done with twCode := codeField s.par.st.busError })

/-- R209: a transfer after a NACK in read direction is refused, by the engine's turn and inside the commands that
launch one. -/
def Obligations.TransferAfterReadNackRefused : Prop :=
  (∀ (s : State) (rest : List Turn), s.plan = .engine :: rest → s.ctrl.en = true → s.ctrl.int = false →
    s.pending = .xfer → s.dir = .R → s.nack = true → (s.phase = .addrSent ∨ s.phase = .dataReceived) →
    step s = .refused .xferAfterReadNack) ∧
  (∀ (s : State) (more : Bool) (v : Byte), QuietFair s → s.pending = .none → s.dir = .R → s.nack = true →
    (s.phase = .addrSent ∨ s.phase = .dataReceived) →
    exec (.twrx more) s = .refused .xferAfterReadNack ∧
    (s.ctrl.int = true → exec (.twtx v) s = .refused .xferAfterReadNack))

/-- R210, R272: a transfer launched with nothing started: the engine has no step, and a `TWRX` waits for good, without
a response, whatever the engine's fairness. -/
def Obligations.TransferInIdleHangs : Prop :=
  (∀ s : State, s.pending = .xfer → s.phase = .idle → engineStep s = .held s) ∧
  (∀ (s : State) (more : Bool), s.upc = 0 → s.plan = [] → paramsOk s.par = true → s.phase = .idle →
    s.pending = .none →
    ∃ d, exec (.twrx more) s = .next { s with
      ctrl := ctrlAfter s (if more then .xferAck else .xferNack) false, pending := .xfer, upc := 2,
      draws := d }) ∧
  (∀ (s : State) (more : Bool), s.upc = 2 → s.plan = [] → paramsOk s.par = true → s.phase = .idle →
    s.pending = .xfer → s.ctrl.int = false → ∃ d, exec (.twrx more) s = .next { s with draws := d })

/-- R213, R243, T34: with an engine that never steps, a `TWSTART` writes its control word and then waits without a
response, for good. -/
def Obligations.StuckEngineNeverAnswers : Prop :=
  (∀ s : State, s.upc = 0 → s.plan = [] → paramsOk s.par = true → s.par.engine = .stuck → EngineFree s →
    exec .twstart s = .next { s with ctrl := ctrlAfter s .start false, pending := .start, upc := 2 }) ∧
  (∀ s : State, s.upc = 2 → s.plan = [] → paramsOk s.par = true → s.par.engine = .stuck →
    s.ctrl.int = false → exec .twstart s = .next s)

/-! ### TWI commands -/

/-- R162: `TWSTART` with a weakly fair engine: `START` and `ST_START` where the bus is not held, `RSTART` and
`ST_RSTART` where it is; a stop still on its way comes first. -/
def Obligations.TwstartResult : Prop :=
  ∀ s : State, TwiReady s →
    ∃ t, exec .twstart s = .next t ∧
      t = respond (if busHeld s then s.par.st.rstart else s.par.st.start) 0x00 (afterStart s) ∧
      t.buslog = s.buslog ++ stopFirst s ++ [if busHeld s then .rstart else .start] ∧
      t.phase = .startSent ∧ t.ctrl = ctrlAfter s .start true

/-- R163, R273: `TWSTOP`: one control write, no poll, no status; the stop is on the bus only after the engine's own
step. It needs no fairness unless an earlier stop is on its way. -/
def Obligations.TwstopResult : Prop :=
  (∀ s : State, s.upc = 0 → s.plan = [] → EngineFree s →
    exec .twstop s = .next (respond 0x00 0x00 { s with
      ctrl := ctrlAfter s .stop false, pending := .stop, phase := .stop })) ∧
  (∀ s : State, QuietFair s → StopPending s →
    exec .twstop s = .next (respond 0x00 0x00 (afterStop s)) ∧
    (afterStop s).buslog = s.buslog ++ [.stop])

/-- R164, R206, R207: `TWTX` right after a start sends the address byte and responds the status of its direction and of
the slave's answer; in write direction it sends a data byte and responds whether it was ACKed. -/
def Obligations.TwtxSends : Prop :=
  ∀ (s : State) (v : Byte), XferReady s → s.ctrl.int = true →
    (s.phase = .startSent →
      exec (.twtx v) s =
        .next (respond (addressStatus s.par.st (byteDir v) (drawAck .addr v s).1) 0x00 (afterAddress v s))) ∧
    (s.phase = .addrSent ∨ s.phase = .dataSent → s.dir = .W →
      exec (.twtx v) s = .next (respond (txStatus s.par.st (drawAck .data v s).1) 0x00 (afterSend v s)))

/-- R165, R164, R208, R275: in read direction `TWRX` receives a byte, ACKs it as its operand says, and responds the
status and the byte; `TWTX` receives too instead of sending: `TW_DATA` ends with the byte received, the status is
`ST_DATA_RX_NACK`, and the latch `RXB` is not written. -/
def Obligations.ReceivingCommands : Prop :=
  ∀ (s : State) (more : Bool) (v : Byte), XferReady s → (s.phase = .addrSent ∨ s.phase = .dataReceived) →
    s.dir = .R → s.nack = false →
    exec (.twrx more) s =
      .next (respond (if more then s.par.st.dataRxAck else s.par.st.dataRxNack) (drawByte s).1
        (afterReceive more s)) ∧
    (s.ctrl.int = true →
      exec (.twtx v) s = .next (respond s.par.st.dataRxNack 0x00 { afterReceive false s with rxb := s.rxb }))

/-- R165, R206, R275: `TWRX` after a start or in write direction sends what `TW_DATA` holds: as an address byte right
after a start, as a data byte otherwise; it responds the transmit status and that byte. -/
def Obligations.TwrxSendsStaleData : Prop :=
  ∀ (s : State) (more : Bool), XferReady s →
    let w : CtrlWord := if more then .xferAck else .xferNack
    (s.phase = .startSent →
      ∃ t, exec (.twrx more) s = .next t ∧
        t = respond (addressStatus s.par.st (byteDir s.twData) (drawAck .addr s.twData s).1) s.twData
          { afterAddress s.twData s with ctrl := ctrlAfter s w true, rxb := s.twData }) ∧
    (s.phase = .addrSent ∨ s.phase = .dataSent → s.dir = .W →
      ∃ t, exec (.twrx more) s = .next t ∧
        t = respond (txStatus s.par.st (drawAck .data s.twData s).1) s.twData
          { afterSend s.twData s with ctrl := ctrlAfter s w true, rxb := s.twData })

/-- R166: `TWREGA` sends one byte or two, high byte first, the low one only if the high one is ACKed, and responds the
status of the last byte sent. -/
def Obligations.TwregaResult : Prop :=
  ∀ (s : State) (rsz : RegSize) (reg : BitVec 16), XferReady s → s.ctrl.int = true →
    (s.phase = .addrSent ∨ s.phase = .dataSent) → s.dir = .W →
    ∃ t, exec (.twrega rsz reg) s = .next t ∧ t = respond (afterRega rsz reg s).st 0x00 (afterRega rsz reg s) ∧
      (∀ a rest, rsz = .w8 → s.acks = a :: rest → t.buslog = s.buslog ++ [.tx (regLow reg) a]) ∧
      (∀ rest, rsz = .w16 → s.acks = .nack :: rest →
        t.buslog = s.buslog ++ [.tx (regHigh reg) .nack] ∧ t.st = s.par.st.dataTxNack) ∧
      (∀ a rest, rsz = .w16 → s.acks = .ack :: a :: rest →
        t.buslog = s.buslog ++ [.tx (regHigh reg) .ack, .tx (regLow reg) a])

/-- R181: `TWWRMEM` does what the procedure `wrmem` says, for every slave, every payload and whether or not the bus is
held at entry: its flat lines, with their jumps, refine the structured procedure. -/
def Obligations.TwwrmemRefinesItsProcedure : Prop :=
  ∀ (s : State) (rsz : RegSize) (slave : BitVec 7) (length : Byte) (reg : BitVec 16), TwiReady s →
    length.toNat ≤ s.par.bufSize →
    exec (.twwrmem rsz slave length reg) s =
      .next (respond (wrmemResult rsz slave length reg s).1 0x00 (wrmemResult rsz slave length reg s).2)

/-- R183: `TWRDMEM` does what the procedure `rdmem` says, the nested `wrmem` and its abort included. -/
def Obligations.TwrdmemRefinesItsProcedure : Prop :=
  ∀ (s : State) (rsz : RegSize) (slave : BitVec 7) (length : Byte) (reg : BitVec 16), TwiReady s →
    length.toNat ≤ s.par.bufSize →
    exec (.twrdmem rsz slave length reg) s =
      .next (respond (rdmemResult rsz slave length reg s).1 0x00 (rdmemResult rsz slave length reg s).2)

/-- R182: the bus events of `TWWRMEM`, outcome by outcome; `stopFirst` is the stop an earlier command may have left to
do. The stop of each failure, and of a success with payload, is requested and not yet on the bus (R163). The spec
derives R182. -/
def Obligations.TwwrmemBusEvents : Prop :=
  ∀ (s : State) (rsz : RegSize) (slave : BitVec 7) (length : Byte) (reg : BitVec 16) (rest : List Ack), TwiReady s →
    length.toNat ≤ s.par.bufSize →
    let a := addressByte slave .W
    let rs := regBytes rsz reg
    let bs := payload s length.toNat
    (busHeld s = true →
      ∃ t, exec (.twwrmem rsz slave length reg) s = .next t ∧ t.buslog = s.buslog ++ [.rstart] ∧
        Responded s t s.par.st.rstart 0x00 ∧ t.pending = .stop) ∧
    (busHeld s = false → s.acks = .nack :: rest →
      ∃ t, exec (.twwrmem rsz slave length reg) s = .next t ∧
        t.buslog = s.buslog ++ stopFirst s ++ [.start, .addr a .nack] ∧
        Responded s t s.par.st.slawNack 0x00 ∧ t.pending = .stop) ∧
    (∀ k, busHeld s = false → k < (rs ++ bs).length →
      s.acks = List.replicate (1 + k) .ack ++ .nack :: rest →
      ∃ t, exec (.twwrmem rsz slave length reg) s = .next t ∧
        t.buslog = s.buslog ++ stopFirst s ++ [.start, .addr a .ack] ++ txAcked ((rs ++ bs).take k) ++
          [.tx ((rs ++ bs).getD k 0) .nack] ∧
        Responded s t s.par.st.dataTxNack 0x00 ∧ t.pending = .stop) ∧
    (busHeld s = false → s.acks = List.replicate (1 + (rs ++ bs).length) .ack ++ rest →
      ∃ t, exec (.twwrmem rsz slave length reg) s = .next t ∧
        t.buslog = s.buslog ++ stopFirst s ++ [.start, .addr a .ack] ++ txAcked (rs ++ bs) ∧
        Responded s t s.par.twOk 0x00 ∧
        (if length = 0 then t.phase = .dataSent ∧ t.pending = .none ∧ t.ctrl.int = true
         else t.phase = .stop ∧ t.pending = .stop))

/-- R183, R184: a successful `TWRDMEM`: one start, one repeated start, the register bytes, the bytes received in order
with all but the last ACKed, stored in `BUF[0 .. length-1]` and nowhere else, the stop requested, `TW_OK`. The other
outcomes: a failure in the inner write, and a NACK of the read address, leave `BUF` unchanged. `TW_OK` is none of the
statuses of the inner failures (R187). The spec derives R184. -/
def Obligations.TwrdmemOutcomes : Prop :=
  ∀ (s : State) (rsz : RegSize) (slave : BitVec 7) (length : Byte) (reg : BitVec 16) (rest : List Ack)
    (ds more : List Byte), TwiReady s → BufOk s → length.toNat ≤ s.par.bufSize →
    s.par.twOk ∉ [s.par.st.rstart, s.par.st.slawNack, s.par.st.dataTxNack] →
    let a := addressByte slave .W
    let rs := regBytes rsz reg
    (busHeld s = false → ds.length = length.toNat → s.bytes = ds ++ more →
      s.acks = List.replicate (2 + rs.length) .ack ++ rest →
      ∃ t, exec (.twrdmem rsz slave length reg) s = .next t ∧
        t.buslog = s.buslog ++ stopFirst s ++ [.start, .addr a .ack] ++ txAcked rs ++
          [.rstart, .addr (addressByte slave .R) .ack] ++ rxEvents ds ∧
        (∀ i, bufRead i t = if i < ds.length then ds.getD i 0 else bufRead i s) ∧
        Responded s t s.par.twOk 0x00 ∧ t.phase = .stop ∧ t.pending = .stop) ∧
    (busHeld s = true →
      ∃ t, exec (.twrdmem rsz slave length reg) s = .next t ∧ t.buslog = s.buslog ++ [.rstart] ∧
        Responded s t s.par.st.rstart 0x00 ∧ SameBuf s t ∧ t.pending = .stop) ∧
    (busHeld s = false → s.acks = .nack :: rest →
      ∃ t, exec (.twrdmem rsz slave length reg) s = .next t ∧
        t.buslog = s.buslog ++ stopFirst s ++ [.start, .addr a .nack] ∧
        Responded s t s.par.st.slawNack 0x00 ∧ SameBuf s t ∧ t.pending = .stop) ∧
    (∀ k, busHeld s = false → k < rs.length → s.acks = List.replicate (1 + k) .ack ++ .nack :: rest →
      ∃ t, exec (.twrdmem rsz slave length reg) s = .next t ∧
        t.buslog = s.buslog ++ stopFirst s ++ [.start, .addr a .ack] ++ txAcked (rs.take k) ++
          [.tx (rs.getD k 0) .nack] ∧
        Responded s t s.par.st.dataTxNack 0x00 ∧ SameBuf s t ∧ t.pending = .stop) ∧
    (busHeld s = false → s.acks = List.replicate (1 + rs.length) .ack ++ .nack :: rest →
      ∃ t, exec (.twrdmem rsz slave length reg) s = .next t ∧
        t.buslog = s.buslog ++ stopFirst s ++ [.start, .addr a .ack] ++ txAcked rs ++
          [.rstart, .addr (addressByte slave .R) .nack] ∧
        Responded s t s.par.st.slarNack 0x00 ∧ SameBuf s t ∧ t.pending = .stop)

/-- R37, R86, R201: where a TWI command is refused at its first line: a data write while the flag is 0, a payload that
exceeds the buffer, a control write while another operation is pending. That the length is checked before anything
else of the command is log 25. -/
def Obligations.TwiCommandsRefusedAtEntry : Prop :=
  ∀ (s : State) (rsz : RegSize) (slave : BitVec 7) (length : Byte) (reg : BitVec 16) (more : Bool) (v : Byte),
    s.upc = 0 → s.plan = [] →
    (s.ctrl.int = false →
      exec (.twtx v) s = .refused .dataWriteWhileBusy ∧
      exec (.twrega rsz reg) s = .refused .dataWriteWhileBusy) ∧
    (s.par.bufSize < length.toNat →
      exec (.twwrmem rsz slave length reg) s = .refused .lengthExceedsBuffer ∧
      exec (.twrdmem rsz slave length reg) s = .refused .lengthExceedsBuffer) ∧
    (s.phase ≠ .stop → s.pending ≠ .none →
      exec .twstart s = .refused .ctrlWriteWhilePending ∧ exec .twstop s = .refused .ctrlWriteWhilePending ∧
      exec (.twrx more) s = .refused .ctrlWriteWhilePending ∧
      (length.toNat ≤ s.par.bufSize →
        exec (.twwrmem rsz slave length reg) s = .refused .ctrlWriteWhilePending ∧
        exec (.twrdmem rsz slave length reg) s = .refused .ctrlWriteWhilePending))

/-- R181, R266 and the frames of the TWI commands, in every state in which no other agent has a turn, mid-command
states among them: the ports and their pads, the prescaler and the bit rate register, the snapshot latches are
unchanged; every command but `TWRDMEM` leaves every byte of the buffer unchanged. -/
def Obligations.TwiFrame : Prop :=
  ∀ (i : Instr) (s t : State), isTwi i = true → s.plan = [] → exec i s = .next t →
    SamePorts s t ∧ t.ps = s.ps ∧ t.twBitrate = s.twBitrate ∧ t.snapD = s.snapD ∧ t.snapL = s.snapL ∧
    t.tmp = s.tmp ∧ t.cmd = s.cmd ∧ SameProgram s t ∧
    ((∀ rsz slave length reg, i ≠ .twrdmem rsz slave length reg) → SameBuf s t) ∧
    (isCtrlWord i = true → t.rsp = s.rsp ∧ t.pc = s.pc ∧ t.upc = s.upc ∧ t.twData = s.twData)

/-- R183, R45: `TWRDMEM`, whatever happens on the bus and whether or not it comes to its end, stores to no byte of the
buffer from index `length` on. -/
def Obligations.TwrdmemStoresInsideItsPayload : Prop :=
  ∀ (rsz : RegSize) (slave : BitVec 7) (length : Byte) (reg : BitVec 16) (s t : State), s.upc = 0 → s.plan = [] →
    exec (.twrdmem rsz slave length reg) s = .next t → ∀ a, length.toNat ≤ a → bufRead a t = bufRead a s

/-! ### The whole machine -/

/-- R24, R161, R201, R234: no line of the sequencer and no turn of an agent other than the engine sets the interrupt
flag; and no line of the sequencer puts anything on the bus or changes the status. The second clause is about states
that meet the engine's invariants (StepKeepsTheInvariant). -/
def Obligations.OnlyTheEngineSetsTheFlag : Prop :=
  (∀ (l : Line) (s t : State), lineStep l s = .done t →
    (t.ctrl.int = true → s.ctrl.int = true) ∧ t.buslog = s.buslog ∧ t.twCode = s.twCode) ∧
  (∀ (a : Turn) (s t : State), EngineOk s → a ≠ .engine → agentTurn a s = .done t → t.ctrl.int = true →
    s.ctrl.int = true)

/-- R216, R27, R28, R45: every step keeps the invariant of the machine: the engine's flag, phase and pending operation
agree, the log has one response per command done, the buffer is in canonical form and inside its size, the position is
inside the program. The spec promises R216 without `Other`; the model keeps it with `Other` too. -/
def Obligations.StepKeepsTheInvariant : Prop :=
  ∀ s t : State, Inv s → step s = .next t → Inv t

/-- R261, R263: the reset state meets the invariant. -/
def Obligations.ResetMeetsTheInvariant : Prop := Inv State.reset ∧ lineOk State.reset = true

/-- R15, R230: the block has no fault: from a state whose sequencer stands at a line of its command, a step never
faults, and leads to such a state. -/
def Obligations.StepNeverFaults : Prop :=
  ∀ s : State, lineOk s = true →
    (∀ f, step s ≠ .fault f) ∧ (∀ t, step s = .next t → lineOk t = true)

/-- R27, R28, R83: a step produces no response and keeps `pc`, or produces one response, advances `pc` by 1 and leaves
the sequencer idle; the bus log only grows (reset apart, R260); no step changes the program or a parameter. -/
def Obligations.OneResponsePerCommand : Prop :=
  ∀ s t : State, step s = .next t →
    SameProgram s t ∧
    (noReset s = true →
      ((t.rsp = s.rsp ∧ t.pc = s.pc) ∨ ∃ r, t.rsp = s.rsp ++ [r] ∧ t.pc = s.pc + 1 ∧ t.upc = 0) ∧
      ∃ es, t.buslog = s.buslog ++ es)

end
end

