-- ==== Sys2Proof/Laws/Bits.lean ====
section
/-! SUPPORT. What the bit helpers do to each bit. -/

namespace Sys2Proof.Machine

theorem testBit_oneHot (n m : BitIx) : testBit (oneHot n) m = decide (m = n) := by
  revert n m; decide

@[simp] theorem testBit_or (a b : Byte) (m : BitIx) :
    testBit (a ||| b) m = (testBit a m || testBit b m) := by simp [testBit]

@[simp] theorem testBit_xor (a b : Byte) (m : BitIx) :
    testBit (a ^^^ b) m = (testBit a m ^^ testBit b m) := by simp [testBit]

@[simp] theorem testBit_zero (m : BitIx) : testBit 0#8 m = false := by simp [testBit]

/-- `BitSet` affects only the named bit (R71). -/
theorem testBit_setBit (v : Byte) (n m : BitIx) :
    testBit (setBit v n) m = if m = n then true else testBit v m := by
  rw [setBit, testBit_or, testBit_oneHot]
  by_cases h : m = n <;> simp [h]

/-- `BitClear` affects only the named bit (R71). -/
theorem testBit_clearBit (v : Byte) (n m : BitIx) :
    testBit (clearBit v n) m = if m = n then false else testBit v m := by
  have h : testBit (v &&& ~~~oneHot n) m = (testBit v m && !testBit (oneHot n) m) := by
    have hm : m.toNat < 8 := m.isLt
    simp [testBit, hm]
  rw [clearBit, h, testBit_oneHot]
  by_cases h : m = n <;> simp [h]

/-- A toggle affects only the named bit (R137). -/
theorem testBit_toggle (v : Byte) (n m : BitIx) :
    testBit (v ^^^ oneHot n) m = if m = n then !testBit v m else testBit v m := by
  rw [testBit_xor, testBit_oneHot]
  by_cases h : m = n <;> simp [h]

theorem testBit_flagAt (b : Bool) (n m : BitIx) : testBit (flagAt b n) m = (b && decide (m = n)) := by
  cases b <;> simp [flagAt, testBit_oneHot]

theorem testBit_byteOf (f : BitIx → Bool) (m : BitIx) : testBit (byteOf f) m = f m := by
  simp only [byteOf, testBit_or, testBit_flagAt]
  have hm : m = 0 ∨ m = 1 ∨ m = 2 ∨ m = 3 ∨ m = 4 ∨ m = 5 ∨ m = 6 ∨ m = 7 := by
    revert m; decide
  rcases hm with rfl | rfl | rfl | rfl | rfl | rfl | rfl | rfl <;> simp

/-- Two bytes with the same bits are the same byte. -/
theorem byte_ext {a b : Byte} (h : ∀ m, testBit a m = testBit b m) : a = b := by
  apply BitVec.eq_of_getLsbD_eq
  intro i hi
  have := h (BitVec.ofNat 3 i)
  simpa [testBit, Nat.mod_eq_of_lt hi] using this

end Sys2Proof.Machine
end

