-- ==== Sys2Proof/Laws/Encoding.lean ====
section
/-! SUPPORT. The four fields of a command word determine it, and a row of the opcode map is selected field by
field. -/

namespace Sys2Proof

@[simp] theorem fieldOp_cw40 (a b c : Byte) (d : BitVec 16) : fieldOp (cw40 a b c d) = a := by
  ext i hi
  simp only [fieldOp, cw40]
  grind

@[simp] theorem fieldA_cw40 (a b c : Byte) (d : BitVec 16) : fieldA (cw40 a b c d) = b := by
  ext i hi
  simp only [fieldA, cw40]
  grind

@[simp] theorem fieldB_cw40 (a b c : Byte) (d : BitVec 16) : fieldB (cw40 a b c d) = c := by
  ext i hi
  simp only [fieldB, cw40]
  grind

@[simp] theorem fieldC_cw40 (a b c : Byte) (d : BitVec 16) : fieldC (cw40 a b c d) = d := by
  ext i hi
  simp only [fieldC, cw40]
  grind

/-- A command word is its four fields (R90). -/
theorem cw40_fields (w : Cw40) : cw40 (fieldOp w) (fieldA w) (fieldB w) (fieldC w) = w := by
  apply BitVec.eq_of_getLsbD_eq
  intro i hi
  simp only [cw40, fieldOp, fieldA, fieldB, fieldC]
  rw [BitVec.getLsbD_append, BitVec.getLsbD_append, BitVec.getLsbD_append]
  simp only [BitVec.getLsbD_extractLsb']
  grind

theorem cw40_ext {v w : Cw40} (h1 : fieldOp v = fieldOp w) (h2 : fieldA v = fieldA w)
    (h3 : fieldB v = fieldB w) (h4 : fieldC v = fieldC w) : v = w := by
  rw [← cw40_fields v, ← cw40_fields w, h1, h2, h3, h4]

/-- A masked word equals a pattern when each masked field equals the pattern's field. -/
theorem masked_eq_iff (w m p : Cw40) :
    w &&& m = p ↔
      fieldOp w &&& fieldOp m = fieldOp p ∧ fieldA w &&& fieldA m = fieldA p ∧
      fieldB w &&& fieldB m = fieldB p ∧ fieldC w &&& fieldC m = fieldC p := by
  constructor
  · rintro rfl
    simp only [fieldOp, fieldA, fieldB, fieldC, BitVec.extractLsb'_and, and_self]
  · rintro ⟨h1, h2, h3, h4⟩
    refine cw40_ext ?_ ?_ ?_ ?_
    · rw [← h1]; simp only [fieldOp, BitVec.extractLsb'_and]
    · rw [← h2]; simp only [fieldA, BitVec.extractLsb'_and]
    · rw [← h3]; simp only [fieldB, BitVec.extractLsb'_and]
    · rw [← h4]; simp only [fieldC, BitVec.extractLsb'_and]

/-- The same for a word given by its fields; the row's fields are those of its numbers. -/
theorem rowSelected_cw40 (op a b : Byte) (c : BitVec 16) (row : OpcodeRow) :
    rowSelected (cw40 op a b c) row =
      ((op &&& fieldOp row.mask == fieldOp row.pattern) && (a &&& fieldA row.mask == fieldA row.pattern) &&
        (b &&& fieldB row.mask == fieldB row.pattern) && (c &&& fieldC row.mask == fieldC row.pattern) &&
        !(row.isP && a.extractLsb' 0 2 == 3)) := by
  have h := masked_eq_iff (cw40 op a b c) row.mask row.pattern
  simp only [fieldOp_cw40, fieldA_cw40, fieldB_cw40, fieldC_cw40] at h
  simp only [rowSelected, fieldA_cw40]
  congr 1
  rw [Bool.eq_iff_iff]
  simp only [beq_iff_eq, Bool.and_eq_true, h, and_assoc]

end Sys2Proof
end

