-- ==== Sys2Proof/Laws/Params.lean ====
section
/-! SUPPORT. What the constraints on the parameters give: address decode inverts the register map, the flags
keep apart, a status code comes back through the mask, the control words decode to themselves. -/

namespace Sys2Proof.Machine

theorem paramsOk_addrs {par : Params} (h : paramsOk par = true) :
    (allRegs.map (regAddr par)).Nodup := by
  simp only [paramsOk, Bool.and_eq_true, decide_eq_true_eq] at h; exact h.1.1.1.1

theorem paramsOk_bits {par : Params} (h : paramsOk par = true) : (ctrlBitList par.bits).Nodup := by
  simp only [paramsOk, Bool.and_eq_true, decide_eq_true_eq] at h; exact h.1.1.1.2

theorem paramsOk_codes {par : Params} (h : paramsOk par = true) : (statusList par.st).Nodup := by
  simp only [paramsOk, Bool.and_eq_true, decide_eq_true_eq] at h; exact h.1.1.2

theorem paramsOk_survive {par : Params} (h : paramsOk par = true) {v : Byte} (hv : v ∈ statusList par.st) :
    v &&& par.stMask = v := by
  simp only [paramsOk, Bool.and_eq_true, List.all_eq_true, beq_iff_eq] at h
  exact h.1.2 v hv

theorem paramsOk_mask {par : Params} (h : paramsOk par = true) : par.stMask &&& 7#8 = 0#8 := by
  simp only [paramsOk, Bool.and_eq_true, beq_iff_eq] at h; exact h.2

theorem defaultParams_ok : paramsOk defaultParams = true := by decide

theorem mem_allRegs (r : Reg) : r ∈ allRegs := by
  cases r with
  | input p => cases p <;> decide
  | dir p => cases p <;> decide
  | out p => cases p <;> decide
  | twBitrate => decide
  | twStatus => decide
  | twData => decide
  | twCtrl => decide

/-- Address decode inverts the register map (R61, R85). -/
theorem regAt_regAddr {par : Params} (h : paramsOk par = true) (r : Reg) :
    regAt par (regAddr par r) = some r := by
  have inj : ∀ x ∈ allRegs, ∀ y ∈ allRegs, regAddr par x = regAddr par y → x = y :=
    fun x hx y hy => List.inj_on_of_nodup_map (paramsOk_addrs h) hx hy
  unfold regAt
  rcases hf : allRegs.find? (fun x => regAddr par x == regAddr par r) with _ | x
  · have := List.find?_eq_none.mp hf r (mem_allRegs r)
    simp at this
  · have hx := List.find?_some hf
    rw [inj x (mem_allRegs x) r (mem_allRegs r) (by simpa using hx)]

theorem regAddr_of_regAt {par : Params} {a : Byte} {r : Reg} (h : regAt par a = some r) :
    regAddr par r = a := by
  simpa using List.find?_some h

theorem regAt_eq_none {par : Params} {a : Byte} (h : ∀ r, regAddr par r ≠ a) : regAt par a = none := by
  simp only [regAt, List.find?_eq_none, beq_iff_eq]
  exact fun r _ => h r

/-- The poll reads the interrupt flag (R69, R161). -/
theorem intFlag_eq (s : State) (h : paramsOk s.par = true) : intFlag s = s.ctrl.int := by
  have hb := paramsOk_bits h
  simp only [ctrlBitList, List.nodup_cons, List.mem_cons, List.not_mem_nil, or_false, not_or] at hb
  obtain ⟨⟨h1, h2, h3, h4, h5, h6⟩, -⟩ := hb
  simp [intFlag, regRead, ctrlByte, testBit_flagAt, h1, h2, h3, h4, h5, h6]

/-- A status code set by the engine is what the status read returns (R36, R167). -/
theorem statusCode_of_code (s : State) (v : Byte) (h : paramsOk s.par = true) (hv : v ∈ statusList s.par.st)
    (hc : s.twCode = v.extractLsb' 3 5) : statusCode s = v := by
  have hs := paramsOk_survive h hv
  have hm := paramsOk_mask h
  have key : ∀ (v m : Byte) (p : BitVec 2), v &&& m = v → m &&& 7#8 = 0#8 →
      (v.extractLsb' 3 5 ++ 0#1 ++ p : Byte) &&& m = v := by
    intro v m p hs hm
    apply BitVec.eq_of_getLsbD_eq
    intro i hi
    have e1 := congrArg (fun x => x.getLsbD i) hs
    have e2 := congrArg (fun x => x.getLsbD i) hm
    simp only [BitVec.getLsbD_and] at e1 e2
    simp only [BitVec.getLsbD_and, BitVec.getLsbD_append, BitVec.getLsbD_extractLsb']
    have hcases : i = 0 ∨ i = 1 ∨ i = 2 ∨ i = 3 ∨ i = 4 ∨ i = 5 ∨ i = 6 ∨ i = 7 := by omega
    rcases hcases with rfl | rfl | rfl | rfl | rfl | rfl | rfl | rfl <;> simp_all
  simpa [statusCode, regRead, statusByte, hc] using key v _ _ hs hm

/-- Which of the flag bits each control word sets (R200). -/
theorem ctrlWordByte_bits {par : Params} (h : paramsOk par = true) (w : CtrlWord) :
    testBit (ctrlWordByte par.bits w) par.bits.int = true ∧
    testBit (ctrlWordByte par.bits w) par.bits.ea = decide (w = .xferAck) ∧
    testBit (ctrlWordByte par.bits w) par.bits.sta = decide (w = .start) ∧
    testBit (ctrlWordByte par.bits w) par.bits.sto = decide (w = .stop) ∧
    testBit (ctrlWordByte par.bits w) par.bits.en = true ∧
    testBit (ctrlWordByte par.bits w) par.bits.ie = false := by
  have hb := paramsOk_bits h
  simp only [ctrlBitList, List.nodup_cons, List.mem_cons, List.not_mem_nil, or_false, not_or] at hb
  obtain ⟨⟨h1, h2, h3, h4, h5, h6⟩, ⟨h7, h8, h9, h10, h11⟩, ⟨h12, h13, h14, h15⟩, ⟨h16, h17, h18⟩,
    ⟨h19, h20⟩, h21, -⟩ := hb
  rw [eq_comm] at h1 h2 h3 h6 h7 h8 h11 h12 h15 h18 h21
  cases w <;> simp [ctrlWordByte, testBit_oneHot, *, Ne.symm h7, Ne.symm h8, Ne.symm h12]

/-- The four control words decode to themselves (R200, R202). -/
theorem decodeCtrlWord_ctrlWordByte {par : Params} (h : paramsOk par = true) (w : CtrlWord) :
    decodeCtrlWord par.bits (ctrlWordByte par.bits w) = .ok w := by
  have apart : ∀ x y : CtrlWord, ctrlWordByte par.bits x = ctrlWordByte par.bits y → x = y := by
    intro x y e
    obtain ⟨-, a1, a2, a3, -⟩ := ctrlWordByte_bits h x
    obtain ⟨-, b1, b2, b3, -⟩ := ctrlWordByte_bits h y
    rw [e] at a1 a2 a3
    rw [a1] at b1
    rw [a2] at b2
    rw [a3] at b3
    revert b1 b2 b3
    cases x <;> cases y <;> simp
  have ne : ∀ x y : CtrlWord, x ≠ y → ¬ctrlWordByte par.bits x = ctrlWordByte par.bits y :=
    fun x y hxy e => hxy (apart x y e)
  unfold decodeCtrlWord
  rw [(ctrlWordByte_bits h w).2.2.2.2.2]
  cases w
  · simp
  · simp [ne .stop .start]
  · simp [ne .xferNack .start, ne .xferNack .stop]
  · simp [ne .xferAck .start, ne .xferAck .stop, ne .xferAck .xferNack]

end Sys2Proof.Machine
end

