-- ==== Sys2Proof/Laws/State.lean ====
section
/-! SUPPORT. One lemma per field of `State` per update: what the update leaves there. -/

namespace Sys2Proof.Machine

/-! ### `respond` -/

@[simp] theorem respond_par (c d : Byte) (s : State) : (respond c d s).par = s.par := rfl
@[simp] theorem respond_prog (c d : Byte) (s : State) : (respond c d s).prog = s.prog := rfl
@[simp] theorem respond_plan (c d : Byte) (s : State) : (respond c d s).plan = s.plan := rfl
@[simp] theorem respond_acks (c d : Byte) (s : State) : (respond c d s).acks = s.acks := rfl
@[simp] theorem respond_bytes (c d : Byte) (s : State) : (respond c d s).bytes = s.bytes := rfl
@[simp] theorem respond_outcomes (c d : Byte) (s : State) : (respond c d s).outcomes = s.outcomes := rfl
@[simp] theorem respond_draws (c d : Byte) (s : State) : (respond c d s).draws = s.draws := rfl
@[simp] theorem respond_portB (c d : Byte) (s : State) : (respond c d s).portB = s.portB := rfl
@[simp] theorem respond_portC (c d : Byte) (s : State) : (respond c d s).portC = s.portC := rfl
@[simp] theorem respond_portD (c d : Byte) (s : State) : (respond c d s).portD = s.portD := rfl
@[simp] theorem respond_ctrl (c d : Byte) (s : State) : (respond c d s).ctrl = s.ctrl := rfl
@[simp] theorem respond_twCode (c d : Byte) (s : State) : (respond c d s).twCode = s.twCode := rfl
@[simp] theorem respond_ps (c d : Byte) (s : State) : (respond c d s).ps = s.ps := rfl
@[simp] theorem respond_twData (c d : Byte) (s : State) : (respond c d s).twData = s.twData := rfl
@[simp] theorem respond_twBitrate (c d : Byte) (s : State) : (respond c d s).twBitrate = s.twBitrate := rfl
@[simp] theorem respond_phase (c d : Byte) (s : State) : (respond c d s).phase = s.phase := rfl
@[simp] theorem respond_dir (c d : Byte) (s : State) : (respond c d s).dir = s.dir := rfl
@[simp] theorem respond_nack (c d : Byte) (s : State) : (respond c d s).nack = s.nack := rfl
@[simp] theorem respond_pending (c d : Byte) (s : State) : (respond c d s).pending = s.pending := rfl
@[simp] theorem respond_cmd (c d : Byte) (s : State) : (respond c d s).cmd = s.cmd := rfl
@[simp] theorem respond_snapD (c d : Byte) (s : State) : (respond c d s).snapD = s.snapD := rfl
@[simp] theorem respond_snapL (c d : Byte) (s : State) : (respond c d s).snapL = s.snapL := rfl
@[simp] theorem respond_st (c d : Byte) (s : State) : (respond c d s).st = s.st := rfl
@[simp] theorem respond_cnt (c d : Byte) (s : State) : (respond c d s).cnt = s.cnt := rfl
@[simp] theorem respond_rxb (c d : Byte) (s : State) : (respond c d s).rxb = s.rxb := rfl
@[simp] theorem respond_tmp (c d : Byte) (s : State) : (respond c d s).tmp = s.tmp := rfl
@[simp] theorem respond_pc (c d : Byte) (s : State) : (respond c d s).pc = s.pc + 1 := rfl
@[simp] theorem respond_upc (c d : Byte) (s : State) : (respond c d s).upc = 0 := rfl
@[simp] theorem respond_rsp (c d : Byte) (s : State) : (respond c d s).rsp = s.rsp ++ [{ code := c, data := d }] := rfl
@[simp] theorem respond_buslog (c d : Byte) (s : State) : (respond c d s).buslog = s.buslog := rfl
@[simp] theorem respond_buf (c d : Byte) (s : State) : (respond c d s).buf = s.buf := rfl

/-! ### `emit` -/

@[simp] theorem emit_par (e : BusEvent) (s : State) : (emit e s).par = s.par := rfl
@[simp] theorem emit_prog (e : BusEvent) (s : State) : (emit e s).prog = s.prog := rfl
@[simp] theorem emit_plan (e : BusEvent) (s : State) : (emit e s).plan = s.plan := rfl
@[simp] theorem emit_acks (e : BusEvent) (s : State) : (emit e s).acks = s.acks := rfl
@[simp] theorem emit_bytes (e : BusEvent) (s : State) : (emit e s).bytes = s.bytes := rfl
@[simp] theorem emit_outcomes (e : BusEvent) (s : State) : (emit e s).outcomes = s.outcomes := rfl
@[simp] theorem emit_draws (e : BusEvent) (s : State) : (emit e s).draws = s.draws := rfl
@[simp] theorem emit_portB (e : BusEvent) (s : State) : (emit e s).portB = s.portB := rfl
@[simp] theorem emit_portC (e : BusEvent) (s : State) : (emit e s).portC = s.portC := rfl
@[simp] theorem emit_portD (e : BusEvent) (s : State) : (emit e s).portD = s.portD := rfl
@[simp] theorem emit_ctrl (e : BusEvent) (s : State) : (emit e s).ctrl = s.ctrl := rfl
@[simp] theorem emit_twCode (e : BusEvent) (s : State) : (emit e s).twCode = s.twCode := rfl
@[simp] theorem emit_ps (e : BusEvent) (s : State) : (emit e s).ps = s.ps := rfl
@[simp] theorem emit_twData (e : BusEvent) (s : State) : (emit e s).twData = s.twData := rfl
@[simp] theorem emit_twBitrate (e : BusEvent) (s : State) : (emit e s).twBitrate = s.twBitrate := rfl
@[simp] theorem emit_phase (e : BusEvent) (s : State) : (emit e s).phase = s.phase := rfl
@[simp] theorem emit_dir (e : BusEvent) (s : State) : (emit e s).dir = s.dir := rfl
@[simp] theorem emit_nack (e : BusEvent) (s : State) : (emit e s).nack = s.nack := rfl
@[simp] theorem emit_pending (e : BusEvent) (s : State) : (emit e s).pending = s.pending := rfl
@[simp] theorem emit_cmd (e : BusEvent) (s : State) : (emit e s).cmd = s.cmd := rfl
@[simp] theorem emit_snapD (e : BusEvent) (s : State) : (emit e s).snapD = s.snapD := rfl
@[simp] theorem emit_snapL (e : BusEvent) (s : State) : (emit e s).snapL = s.snapL := rfl
@[simp] theorem emit_st (e : BusEvent) (s : State) : (emit e s).st = s.st := rfl
@[simp] theorem emit_cnt (e : BusEvent) (s : State) : (emit e s).cnt = s.cnt := rfl
@[simp] theorem emit_rxb (e : BusEvent) (s : State) : (emit e s).rxb = s.rxb := rfl
@[simp] theorem emit_tmp (e : BusEvent) (s : State) : (emit e s).tmp = s.tmp := rfl
@[simp] theorem emit_pc (e : BusEvent) (s : State) : (emit e s).pc = s.pc := rfl
@[simp] theorem emit_upc (e : BusEvent) (s : State) : (emit e s).upc = s.upc := rfl
@[simp] theorem emit_rsp (e : BusEvent) (s : State) : (emit e s).rsp = s.rsp := rfl
@[simp] theorem emit_buslog (e : BusEvent) (s : State) : (emit e s).buslog = s.buslog ++ [e] := rfl
@[simp] theorem emit_buf (e : BusEvent) (s : State) : (emit e s).buf = s.buf := rfl

/-! ### `bufWrite` -/

@[simp] theorem bufWrite_par (i : Nat) (v : Byte) (s : State) : (bufWrite i v s).par = s.par := rfl
@[simp] theorem bufWrite_prog (i : Nat) (v : Byte) (s : State) : (bufWrite i v s).prog = s.prog := rfl
@[simp] theorem bufWrite_plan (i : Nat) (v : Byte) (s : State) : (bufWrite i v s).plan = s.plan := rfl
@[simp] theorem bufWrite_acks (i : Nat) (v : Byte) (s : State) : (bufWrite i v s).acks = s.acks := rfl
@[simp] theorem bufWrite_bytes (i : Nat) (v : Byte) (s : State) : (bufWrite i v s).bytes = s.bytes := rfl
@[simp] theorem bufWrite_outcomes (i : Nat) (v : Byte) (s : State) : (bufWrite i v s).outcomes = s.outcomes := rfl
@[simp] theorem bufWrite_draws (i : Nat) (v : Byte) (s : State) : (bufWrite i v s).draws = s.draws := rfl
@[simp] theorem bufWrite_portB (i : Nat) (v : Byte) (s : State) : (bufWrite i v s).portB = s.portB := rfl
@[simp] theorem bufWrite_portC (i : Nat) (v : Byte) (s : State) : (bufWrite i v s).portC = s.portC := rfl
@[simp] theorem bufWrite_portD (i : Nat) (v : Byte) (s : State) : (bufWrite i v s).portD = s.portD := rfl
@[simp] theorem bufWrite_ctrl (i : Nat) (v : Byte) (s : State) : (bufWrite i v s).ctrl = s.ctrl := rfl
@[simp] theorem bufWrite_twCode (i : Nat) (v : Byte) (s : State) : (bufWrite i v s).twCode = s.twCode := rfl
@[simp] theorem bufWrite_ps (i : Nat) (v : Byte) (s : State) : (bufWrite i v s).ps = s.ps := rfl
@[simp] theorem bufWrite_twData (i : Nat) (v : Byte) (s : State) : (bufWrite i v s).twData = s.twData := rfl
@[simp] theorem bufWrite_twBitrate (i : Nat) (v : Byte) (s : State) : (bufWrite i v s).twBitrate = s.twBitrate := rfl
@[simp] theorem bufWrite_phase (i : Nat) (v : Byte) (s : State) : (bufWrite i v s).phase = s.phase := rfl
@[simp] theorem bufWrite_dir (i : Nat) (v : Byte) (s : State) : (bufWrite i v s).dir = s.dir := rfl
@[simp] theorem bufWrite_nack (i : Nat) (v : Byte) (s : State) : (bufWrite i v s).nack = s.nack := rfl
@[simp] theorem bufWrite_pending (i : Nat) (v : Byte) (s : State) : (bufWrite i v s).pending = s.pending := rfl
@[simp] theorem bufWrite_cmd (i : Nat) (v : Byte) (s : State) : (bufWrite i v s).cmd = s.cmd := rfl
@[simp] theorem bufWrite_snapD (i : Nat) (v : Byte) (s : State) : (bufWrite i v s).snapD = s.snapD := rfl
@[simp] theorem bufWrite_snapL (i : Nat) (v : Byte) (s : State) : (bufWrite i v s).snapL = s.snapL := rfl
@[simp] theorem bufWrite_st (i : Nat) (v : Byte) (s : State) : (bufWrite i v s).st = s.st := rfl
@[simp] theorem bufWrite_cnt (i : Nat) (v : Byte) (s : State) : (bufWrite i v s).cnt = s.cnt := rfl
@[simp] theorem bufWrite_rxb (i : Nat) (v : Byte) (s : State) : (bufWrite i v s).rxb = s.rxb := rfl
@[simp] theorem bufWrite_tmp (i : Nat) (v : Byte) (s : State) : (bufWrite i v s).tmp = s.tmp := rfl
@[simp] theorem bufWrite_pc (i : Nat) (v : Byte) (s : State) : (bufWrite i v s).pc = s.pc := rfl
@[simp] theorem bufWrite_upc (i : Nat) (v : Byte) (s : State) : (bufWrite i v s).upc = s.upc := rfl
@[simp] theorem bufWrite_rsp (i : Nat) (v : Byte) (s : State) : (bufWrite i v s).rsp = s.rsp := rfl
@[simp] theorem bufWrite_buslog (i : Nat) (v : Byte) (s : State) : (bufWrite i v s).buslog = s.buslog := rfl
@[simp] theorem bufWrite_buf (i : Nat) (v : Byte) (s : State) : (bufWrite i v s).buf = Memory.write s.buf i v := rfl

/-! ### `setCode` -/

@[simp] theorem setCode_par (v : Byte) (s : State) : (setCode v s).par = s.par := rfl
@[simp] theorem setCode_prog (v : Byte) (s : State) : (setCode v s).prog = s.prog := rfl
@[simp] theorem setCode_plan (v : Byte) (s : State) : (setCode v s).plan = s.plan := rfl
@[simp] theorem setCode_acks (v : Byte) (s : State) : (setCode v s).acks = s.acks := rfl
@[simp] theorem setCode_bytes (v : Byte) (s : State) : (setCode v s).bytes = s.bytes := rfl
@[simp] theorem setCode_outcomes (v : Byte) (s : State) : (setCode v s).outcomes = s.outcomes := rfl
@[simp] theorem setCode_draws (v : Byte) (s : State) : (setCode v s).draws = s.draws := rfl
@[simp] theorem setCode_portB (v : Byte) (s : State) : (setCode v s).portB = s.portB := rfl
@[simp] theorem setCode_portC (v : Byte) (s : State) : (setCode v s).portC = s.portC := rfl
@[simp] theorem setCode_portD (v : Byte) (s : State) : (setCode v s).portD = s.portD := rfl
@[simp] theorem setCode_ctrl (v : Byte) (s : State) : (setCode v s).ctrl = s.ctrl := rfl
@[simp] theorem setCode_twCode (v : Byte) (s : State) : (setCode v s).twCode = v.extractLsb' 3 5 := rfl
@[simp] theorem setCode_ps (v : Byte) (s : State) : (setCode v s).ps = s.ps := rfl
@[simp] theorem setCode_twData (v : Byte) (s : State) : (setCode v s).twData = s.twData := rfl
@[simp] theorem setCode_twBitrate (v : Byte) (s : State) : (setCode v s).twBitrate = s.twBitrate := rfl
@[simp] theorem setCode_phase (v : Byte) (s : State) : (setCode v s).phase = s.phase := rfl
@[simp] theorem setCode_dir (v : Byte) (s : State) : (setCode v s).dir = s.dir := rfl
@[simp] theorem setCode_nack (v : Byte) (s : State) : (setCode v s).nack = s.nack := rfl
@[simp] theorem setCode_pending (v : Byte) (s : State) : (setCode v s).pending = s.pending := rfl
@[simp] theorem setCode_cmd (v : Byte) (s : State) : (setCode v s).cmd = s.cmd := rfl
@[simp] theorem setCode_snapD (v : Byte) (s : State) : (setCode v s).snapD = s.snapD := rfl
@[simp] theorem setCode_snapL (v : Byte) (s : State) : (setCode v s).snapL = s.snapL := rfl
@[simp] theorem setCode_st (v : Byte) (s : State) : (setCode v s).st = s.st := rfl
@[simp] theorem setCode_cnt (v : Byte) (s : State) : (setCode v s).cnt = s.cnt := rfl
@[simp] theorem setCode_rxb (v : Byte) (s : State) : (setCode v s).rxb = s.rxb := rfl
@[simp] theorem setCode_tmp (v : Byte) (s : State) : (setCode v s).tmp = s.tmp := rfl
@[simp] theorem setCode_pc (v : Byte) (s : State) : (setCode v s).pc = s.pc := rfl
@[simp] theorem setCode_upc (v : Byte) (s : State) : (setCode v s).upc = s.upc := rfl
@[simp] theorem setCode_rsp (v : Byte) (s : State) : (setCode v s).rsp = s.rsp := rfl
@[simp] theorem setCode_buslog (v : Byte) (s : State) : (setCode v s).buslog = s.buslog := rfl
@[simp] theorem setCode_buf (v : Byte) (s : State) : (setCode v s).buf = s.buf := rfl

/-! ### `complete` -/

@[simp] theorem complete_par (s : State) : (complete s).par = s.par := rfl
@[simp] theorem complete_prog (s : State) : (complete s).prog = s.prog := rfl
@[simp] theorem complete_plan (s : State) : (complete s).plan = s.plan := rfl
@[simp] theorem complete_acks (s : State) : (complete s).acks = s.acks := rfl
@[simp] theorem complete_bytes (s : State) : (complete s).bytes = s.bytes := rfl
@[simp] theorem complete_outcomes (s : State) : (complete s).outcomes = s.outcomes := rfl
@[simp] theorem complete_draws (s : State) : (complete s).draws = s.draws := rfl
@[simp] theorem complete_portB (s : State) : (complete s).portB = s.portB := rfl
@[simp] theorem complete_portC (s : State) : (complete s).portC = s.portC := rfl
@[simp] theorem complete_portD (s : State) : (complete s).portD = s.portD := rfl
@[simp] theorem complete_ctrl (s : State) : (complete s).ctrl = { s.ctrl with int := true } := rfl
@[simp] theorem complete_twCode (s : State) : (complete s).twCode = s.twCode := rfl
@[simp] theorem complete_ps (s : State) : (complete s).ps = s.ps := rfl
@[simp] theorem complete_twData (s : State) : (complete s).twData = s.twData := rfl
@[simp] theorem complete_twBitrate (s : State) : (complete s).twBitrate = s.twBitrate := rfl
@[simp] theorem complete_phase (s : State) : (complete s).phase = s.phase := rfl
@[simp] theorem complete_dir (s : State) : (complete s).dir = s.dir := rfl
@[simp] theorem complete_nack (s : State) : (complete s).nack = s.nack := rfl
@[simp] theorem complete_pending (s : State) : (complete s).pending = .none := rfl
@[simp] theorem complete_cmd (s : State) : (complete s).cmd = s.cmd := rfl
@[simp] theorem complete_snapD (s : State) : (complete s).snapD = s.snapD := rfl
@[simp] theorem complete_snapL (s : State) : (complete s).snapL = s.snapL := rfl
@[simp] theorem complete_st (s : State) : (complete s).st = s.st := rfl
@[simp] theorem complete_cnt (s : State) : (complete s).cnt = s.cnt := rfl
@[simp] theorem complete_rxb (s : State) : (complete s).rxb = s.rxb := rfl
@[simp] theorem complete_tmp (s : State) : (complete s).tmp = s.tmp := rfl
@[simp] theorem complete_pc (s : State) : (complete s).pc = s.pc := rfl
@[simp] theorem complete_upc (s : State) : (complete s).upc = s.upc := rfl
@[simp] theorem complete_rsp (s : State) : (complete s).rsp = s.rsp := rfl
@[simp] theorem complete_buslog (s : State) : (complete s).buslog = s.buslog := rfl
@[simp] theorem complete_buf (s : State) : (complete s).buf = s.buf := rfl

/-! ### `clearSto` -/

@[simp] theorem clearSto_par (s : State) : (clearSto s).par = s.par := rfl
@[simp] theorem clearSto_prog (s : State) : (clearSto s).prog = s.prog := rfl
@[simp] theorem clearSto_plan (s : State) : (clearSto s).plan = s.plan := rfl
@[simp] theorem clearSto_acks (s : State) : (clearSto s).acks = s.acks := rfl
@[simp] theorem clearSto_bytes (s : State) : (clearSto s).bytes = s.bytes := rfl
@[simp] theorem clearSto_outcomes (s : State) : (clearSto s).outcomes = s.outcomes := rfl
@[simp] theorem clearSto_draws (s : State) : (clearSto s).draws = s.draws := rfl
@[simp] theorem clearSto_portB (s : State) : (clearSto s).portB = s.portB := rfl
@[simp] theorem clearSto_portC (s : State) : (clearSto s).portC = s.portC := rfl
@[simp] theorem clearSto_portD (s : State) : (clearSto s).portD = s.portD := rfl
@[simp] theorem clearSto_ctrl (s : State) : (clearSto s).ctrl = { s.ctrl with sto := false } := rfl
@[simp] theorem clearSto_twCode (s : State) : (clearSto s).twCode = s.twCode := rfl
@[simp] theorem clearSto_ps (s : State) : (clearSto s).ps = s.ps := rfl
@[simp] theorem clearSto_twData (s : State) : (clearSto s).twData = s.twData := rfl
@[simp] theorem clearSto_twBitrate (s : State) : (clearSto s).twBitrate = s.twBitrate := rfl
@[simp] theorem clearSto_phase (s : State) : (clearSto s).phase = s.phase := rfl
@[simp] theorem clearSto_dir (s : State) : (clearSto s).dir = s.dir := rfl
@[simp] theorem clearSto_nack (s : State) : (clearSto s).nack = s.nack := rfl
@[simp] theorem clearSto_pending (s : State) : (clearSto s).pending = s.pending := rfl
@[simp] theorem clearSto_cmd (s : State) : (clearSto s).cmd = s.cmd := rfl
@[simp] theorem clearSto_snapD (s : State) : (clearSto s).snapD = s.snapD := rfl
@[simp] theorem clearSto_snapL (s : State) : (clearSto s).snapL = s.snapL := rfl
@[simp] theorem clearSto_st (s : State) : (clearSto s).st = s.st := rfl
@[simp] theorem clearSto_cnt (s : State) : (clearSto s).cnt = s.cnt := rfl
@[simp] theorem clearSto_rxb (s : State) : (clearSto s).rxb = s.rxb := rfl
@[simp] theorem clearSto_tmp (s : State) : (clearSto s).tmp = s.tmp := rfl
@[simp] theorem clearSto_pc (s : State) : (clearSto s).pc = s.pc := rfl
@[simp] theorem clearSto_upc (s : State) : (clearSto s).upc = s.upc := rfl
@[simp] theorem clearSto_rsp (s : State) : (clearSto s).rsp = s.rsp := rfl
@[simp] theorem clearSto_buslog (s : State) : (clearSto s).buslog = s.buslog := rfl
@[simp] theorem clearSto_buf (s : State) : (clearSto s).buf = s.buf := rfl

/-! ### `goto` -/

@[simp] theorem goto_par (k : Nat) (s : State) : (goto k s).par = s.par := rfl
@[simp] theorem goto_prog (k : Nat) (s : State) : (goto k s).prog = s.prog := rfl
@[simp] theorem goto_plan (k : Nat) (s : State) : (goto k s).plan = s.plan := rfl
@[simp] theorem goto_acks (k : Nat) (s : State) : (goto k s).acks = s.acks := rfl
@[simp] theorem goto_bytes (k : Nat) (s : State) : (goto k s).bytes = s.bytes := rfl
@[simp] theorem goto_outcomes (k : Nat) (s : State) : (goto k s).outcomes = s.outcomes := rfl
@[simp] theorem goto_draws (k : Nat) (s : State) : (goto k s).draws = s.draws := rfl
@[simp] theorem goto_portB (k : Nat) (s : State) : (goto k s).portB = s.portB := rfl
@[simp] theorem goto_portC (k : Nat) (s : State) : (goto k s).portC = s.portC := rfl
@[simp] theorem goto_portD (k : Nat) (s : State) : (goto k s).portD = s.portD := rfl
@[simp] theorem goto_ctrl (k : Nat) (s : State) : (goto k s).ctrl = s.ctrl := rfl
@[simp] theorem goto_twCode (k : Nat) (s : State) : (goto k s).twCode = s.twCode := rfl
@[simp] theorem goto_ps (k : Nat) (s : State) : (goto k s).ps = s.ps := rfl
@[simp] theorem goto_twData (k : Nat) (s : State) : (goto k s).twData = s.twData := rfl
@[simp] theorem goto_twBitrate (k : Nat) (s : State) : (goto k s).twBitrate = s.twBitrate := rfl
@[simp] theorem goto_phase (k : Nat) (s : State) : (goto k s).phase = s.phase := rfl
@[simp] theorem goto_dir (k : Nat) (s : State) : (goto k s).dir = s.dir := rfl
@[simp] theorem goto_nack (k : Nat) (s : State) : (goto k s).nack = s.nack := rfl
@[simp] theorem goto_pending (k : Nat) (s : State) : (goto k s).pending = s.pending := rfl
@[simp] theorem goto_cmd (k : Nat) (s : State) : (goto k s).cmd = s.cmd := rfl
@[simp] theorem goto_snapD (k : Nat) (s : State) : (goto k s).snapD = s.snapD := rfl
@[simp] theorem goto_snapL (k : Nat) (s : State) : (goto k s).snapL = s.snapL := rfl
@[simp] theorem goto_st (k : Nat) (s : State) : (goto k s).st = s.st := rfl
@[simp] theorem goto_cnt (k : Nat) (s : State) : (goto k s).cnt = s.cnt := rfl
@[simp] theorem goto_rxb (k : Nat) (s : State) : (goto k s).rxb = s.rxb := rfl
@[simp] theorem goto_tmp (k : Nat) (s : State) : (goto k s).tmp = s.tmp := rfl
@[simp] theorem goto_pc (k : Nat) (s : State) : (goto k s).pc = s.pc := rfl
@[simp] theorem goto_upc (k : Nat) (s : State) : (goto k s).upc = s.upc + k := rfl
@[simp] theorem goto_rsp (k : Nat) (s : State) : (goto k s).rsp = s.rsp := rfl
@[simp] theorem goto_buslog (k : Nat) (s : State) : (goto k s).buslog = s.buslog := rfl
@[simp] theorem goto_buf (k : Nat) (s : State) : (goto k s).buf = s.buf := rfl

/-! ### `setPort` -/

@[simp] theorem setPort_par (s : State) (p : Port) (r : PortRegs) : (setPort s p r).par = s.par := by cases p <;> rfl
@[simp] theorem setPort_prog (s : State) (p : Port) (r : PortRegs) : (setPort s p r).prog = s.prog := by cases p <;> rfl
@[simp] theorem setPort_plan (s : State) (p : Port) (r : PortRegs) : (setPort s p r).plan = s.plan := by cases p <;> rfl
@[simp] theorem setPort_acks (s : State) (p : Port) (r : PortRegs) : (setPort s p r).acks = s.acks := by cases p <;> rfl
@[simp] theorem setPort_bytes (s : State) (p : Port) (r : PortRegs) : (setPort s p r).bytes = s.bytes := by cases p <;> rfl
@[simp] theorem setPort_outcomes (s : State) (p : Port) (r : PortRegs) : (setPort s p r).outcomes = s.outcomes := by cases p <;> rfl
@[simp] theorem setPort_draws (s : State) (p : Port) (r : PortRegs) : (setPort s p r).draws = s.draws := by cases p <;> rfl
@[simp] theorem setPort_ctrl (s : State) (p : Port) (r : PortRegs) : (setPort s p r).ctrl = s.ctrl := by cases p <;> rfl
@[simp] theorem setPort_twCode (s : State) (p : Port) (r : PortRegs) : (setPort s p r).twCode = s.twCode := by cases p <;> rfl
@[simp] theorem setPort_ps (s : State) (p : Port) (r : PortRegs) : (setPort s p r).ps = s.ps := by cases p <;> rfl
@[simp] theorem setPort_twData (s : State) (p : Port) (r : PortRegs) : (setPort s p r).twData = s.twData := by cases p <;> rfl
@[simp] theorem setPort_twBitrate (s : State) (p : Port) (r : PortRegs) : (setPort s p r).twBitrate = s.twBitrate := by cases p <;> rfl
@[simp] theorem setPort_phase (s : State) (p : Port) (r : PortRegs) : (setPort s p r).phase = s.phase := by cases p <;> rfl
@[simp] theorem setPort_dir (s : State) (p : Port) (r : PortRegs) : (setPort s p r).dir = s.dir := by cases p <;> rfl
@[simp] theorem setPort_nack (s : State) (p : Port) (r : PortRegs) : (setPort s p r).nack = s.nack := by cases p <;> rfl
@[simp] theorem setPort_pending (s : State) (p : Port) (r : PortRegs) : (setPort s p r).pending = s.pending := by cases p <;> rfl
@[simp] theorem setPort_cmd (s : State) (p : Port) (r : PortRegs) : (setPort s p r).cmd = s.cmd := by cases p <;> rfl
@[simp] theorem setPort_snapD (s : State) (p : Port) (r : PortRegs) : (setPort s p r).snapD = s.snapD := by cases p <;> rfl
@[simp] theorem setPort_snapL (s : State) (p : Port) (r : PortRegs) : (setPort s p r).snapL = s.snapL := by cases p <;> rfl
@[simp] theorem setPort_st (s : State) (p : Port) (r : PortRegs) : (setPort s p r).st = s.st := by cases p <;> rfl
@[simp] theorem setPort_cnt (s : State) (p : Port) (r : PortRegs) : (setPort s p r).cnt = s.cnt := by cases p <;> rfl
@[simp] theorem setPort_rxb (s : State) (p : Port) (r : PortRegs) : (setPort s p r).rxb = s.rxb := by cases p <;> rfl
@[simp] theorem setPort_tmp (s : State) (p : Port) (r : PortRegs) : (setPort s p r).tmp = s.tmp := by cases p <;> rfl
@[simp] theorem setPort_pc (s : State) (p : Port) (r : PortRegs) : (setPort s p r).pc = s.pc := by cases p <;> rfl
@[simp] theorem setPort_upc (s : State) (p : Port) (r : PortRegs) : (setPort s p r).upc = s.upc := by cases p <;> rfl
@[simp] theorem setPort_rsp (s : State) (p : Port) (r : PortRegs) : (setPort s p r).rsp = s.rsp := by cases p <;> rfl
@[simp] theorem setPort_buslog (s : State) (p : Port) (r : PortRegs) : (setPort s p r).buslog = s.buslog := by cases p <;> rfl
@[simp] theorem setPort_buf (s : State) (p : Port) (r : PortRegs) : (setPort s p r).buf = s.buf := by cases p <;> rfl

/-! ### `setExt` -/

@[simp] theorem setExt_par (p : Port) (n : BitIx) (e : Drive) (s : State) : (setExt p n e s).par = s.par := by cases p <;> rfl
@[simp] theorem setExt_prog (p : Port) (n : BitIx) (e : Drive) (s : State) : (setExt p n e s).prog = s.prog := by cases p <;> rfl
@[simp] theorem setExt_plan (p : Port) (n : BitIx) (e : Drive) (s : State) : (setExt p n e s).plan = s.plan := by cases p <;> rfl
@[simp] theorem setExt_acks (p : Port) (n : BitIx) (e : Drive) (s : State) : (setExt p n e s).acks = s.acks := by cases p <;> rfl
@[simp] theorem setExt_bytes (p : Port) (n : BitIx) (e : Drive) (s : State) : (setExt p n e s).bytes = s.bytes := by cases p <;> rfl
@[simp] theorem setExt_outcomes (p : Port) (n : BitIx) (e : Drive) (s : State) : (setExt p n e s).outcomes = s.outcomes := by cases p <;> rfl
@[simp] theorem setExt_draws (p : Port) (n : BitIx) (e : Drive) (s : State) : (setExt p n e s).draws = s.draws := by cases p <;> rfl
@[simp] theorem setExt_ctrl (p : Port) (n : BitIx) (e : Drive) (s : State) : (setExt p n e s).ctrl = s.ctrl := by cases p <;> rfl
@[simp] theorem setExt_twCode (p : Port) (n : BitIx) (e : Drive) (s : State) : (setExt p n e s).twCode = s.twCode := by cases p <;> rfl
@[simp] theorem setExt_ps (p : Port) (n : BitIx) (e : Drive) (s : State) : (setExt p n e s).ps = s.ps := by cases p <;> rfl
@[simp] theorem setExt_twData (p : Port) (n : BitIx) (e : Drive) (s : State) : (setExt p n e s).twData = s.twData := by cases p <;> rfl
@[simp] theorem setExt_twBitrate (p : Port) (n : BitIx) (e : Drive) (s : State) : (setExt p n e s).twBitrate = s.twBitrate := by cases p <;> rfl
@[simp] theorem setExt_phase (p : Port) (n : BitIx) (e : Drive) (s : State) : (setExt p n e s).phase = s.phase := by cases p <;> rfl
@[simp] theorem setExt_dir (p : Port) (n : BitIx) (e : Drive) (s : State) : (setExt p n e s).dir = s.dir := by cases p <;> rfl
@[simp] theorem setExt_nack (p : Port) (n : BitIx) (e : Drive) (s : State) : (setExt p n e s).nack = s.nack := by cases p <;> rfl
@[simp] theorem setExt_pending (p : Port) (n : BitIx) (e : Drive) (s : State) : (setExt p n e s).pending = s.pending := by cases p <;> rfl
@[simp] theorem setExt_cmd (p : Port) (n : BitIx) (e : Drive) (s : State) : (setExt p n e s).cmd = s.cmd := by cases p <;> rfl
@[simp] theorem setExt_snapD (p : Port) (n : BitIx) (e : Drive) (s : State) : (setExt p n e s).snapD = s.snapD := by cases p <;> rfl
@[simp] theorem setExt_snapL (p : Port) (n : BitIx) (e : Drive) (s : State) : (setExt p n e s).snapL = s.snapL := by cases p <;> rfl
@[simp] theorem setExt_st (p : Port) (n : BitIx) (e : Drive) (s : State) : (setExt p n e s).st = s.st := by cases p <;> rfl
@[simp] theorem setExt_cnt (p : Port) (n : BitIx) (e : Drive) (s : State) : (setExt p n e s).cnt = s.cnt := by cases p <;> rfl
@[simp] theorem setExt_rxb (p : Port) (n : BitIx) (e : Drive) (s : State) : (setExt p n e s).rxb = s.rxb := by cases p <;> rfl
@[simp] theorem setExt_tmp (p : Port) (n : BitIx) (e : Drive) (s : State) : (setExt p n e s).tmp = s.tmp := by cases p <;> rfl
@[simp] theorem setExt_pc (p : Port) (n : BitIx) (e : Drive) (s : State) : (setExt p n e s).pc = s.pc := by cases p <;> rfl
@[simp] theorem setExt_upc (p : Port) (n : BitIx) (e : Drive) (s : State) : (setExt p n e s).upc = s.upc := by cases p <;> rfl
@[simp] theorem setExt_rsp (p : Port) (n : BitIx) (e : Drive) (s : State) : (setExt p n e s).rsp = s.rsp := by cases p <;> rfl
@[simp] theorem setExt_buslog (p : Port) (n : BitIx) (e : Drive) (s : State) : (setExt p n e s).buslog = s.buslog := by cases p <;> rfl
@[simp] theorem setExt_buf (p : Port) (n : BitIx) (e : Drive) (s : State) : (setExt p n e s).buf = s.buf := by cases p <;> rfl

/-! ### Ports -/

@[simp] theorem getPort_setPort (s : State) (p : Port) (r : PortRegs) : getPort (setPort s p r) p = r := by
  cases p <;> rfl

theorem getPort_setPort_ne (s : State) (p q : Port) (r : PortRegs) (h : q ≠ p) :
    getPort (setPort s p r) q = getPort s q := by
  cases p <;> cases q <;> first | rfl | exact absurd rfl h

@[simp] theorem setPort_getPort (s : State) (p : Port) : setPort s p (getPort s p) = s := by cases p <;> rfl

@[simp] theorem setPort_setPort (s : State) (p : Port) (r r' : PortRegs) :
    setPort (setPort s p r) p r' = setPort s p r' := by cases p <;> rfl

@[simp] theorem respond_getPort (c d : Byte) (s : State) (p : Port) : getPort (respond c d s) p = getPort s p := by
  cases p <;> rfl

@[simp] theorem emit_getPort (e : BusEvent) (s : State) (p : Port) : getPort (emit e s) p = getPort s p := by
  cases p <;> rfl

@[simp] theorem bufWrite_getPort (i : Nat) (v : Byte) (s : State) (p : Port) : getPort (bufWrite i v s) p = getPort s p := by
  cases p <;> rfl

@[simp] theorem setCode_getPort (v : Byte) (s : State) (p : Port) : getPort (setCode v s) p = getPort s p := by
  cases p <;> rfl

@[simp] theorem complete_getPort (s : State) (p : Port) : getPort (complete s) p = getPort s p := by
  cases p <;> rfl

@[simp] theorem clearSto_getPort (s : State) (p : Port) : getPort (clearSto s) p = getPort s p := by
  cases p <;> rfl

@[simp] theorem goto_getPort (k : Nat) (s : State) (p : Port) : getPort (goto k s) p = getPort s p := by
  cases p <;> rfl

end Sys2Proof.Machine
end

