-- ==== Sys2Proof/Laws/Engine.lean ====
section
/-! SUPPORT. What the bus engine, the oracle and the control write can do, each said once. -/

namespace Sys2Proof.Machine

/-! ### Draws -/

theorem drawAck_state (k : AckKind) (b : Byte) (s : State) :
    (drawAck k b s).2 = { s with acks := s.acks.tail } := by
  unfold drawAck
  cases h : s.acks with
  | nil => simp only [List.tail_nil]; rw [← h]
  | cons a rest => rfl

theorem drawByte_state (s : State) : (drawByte s).2 = { s with bytes := s.bytes.tail } := by
  unfold drawByte
  cases h : s.bytes with
  | nil => simp only [List.tail_nil]; rw [← h]
  | cons a rest => rfl

theorem drawAck_cons {s : State} {a : Ack} {rest : List Ack} (h : s.acks = a :: rest) (k : AckKind) (b : Byte) :
    drawAck k b s = (a, { s with acks := rest }) := by
  unfold drawAck; rw [h]

theorem drawByte_cons {s : State} {b : Byte} {rest : List Byte} (h : s.bytes = b :: rest) :
    drawByte s = (b, { s with bytes := rest }) := by
  unfold drawByte; rw [h]

/-- The answer depends on the listed answers, the oracle and the log alone. -/
theorem drawAck_congr {s t : State} (h1 : t.acks = s.acks) (h2 : t.par.slave = s.par.slave)
    (h3 : t.buslog = s.buslog) (k : AckKind) (b : Byte) : (drawAck k b t).1 = (drawAck k b s).1 := by
  unfold drawAck; rw [h1, h2, h3]; cases s.acks <;> rfl

theorem drawByte_congr {s t : State} (h1 : t.bytes = s.bytes) (h2 : t.par.slave = s.par.slave)
    (h3 : t.buslog = s.buslog) : (drawByte t).1 = (drawByte s).1 := by
  unfold drawByte; rw [h1, h2, h3]; cases s.bytes <;> rfl

/-! ### Engine steps without bus faults, as record updates -/

theorem withFaults_off {s : State} (h : s.par.busFaults = false) (f : State → State) :
    withFaults f s = f s := by simp [withFaults, h]

theorem engineStart_idle {s : State} (h : s.phase = .idle) :
    engineStart s = { s with
      ctrl := { s.ctrl with int := true }, twCode := codeField s.par.st.start, phase := .startSent,
      nack := false, pending := .none, buslog := s.buslog ++ [.start] } := by
  simp [engineStart, h, complete, setCode, emit, codeField]

theorem engineStart_held {s : State} (h : s.phase ≠ .idle) :
    engineStart s = { s with
      ctrl := { s.ctrl with int := true }, twCode := codeField s.par.st.rstart, phase := .startSent,
      nack := false, pending := .none, buslog := s.buslog ++ [.rstart] } := by
  simp [engineStart, h, complete, setCode, emit, codeField]

theorem engineStop_eq (s : State) :
    engineStop s = { s with
      ctrl := { s.ctrl with sto := false }, twCode := codeField s.par.st.noinfo, phase := .idle,
      nack := false, pending := .none, buslog := s.buslog ++ [.stop] } := rfl

theorem engineAddress_eq (s : State) :
    engineAddress s = { s with
      acks := s.acks.tail, ctrl := { s.ctrl with int := true },
      twCode := codeField (addressStatus s.par.st (byteDir s.twData) (drawAck .addr s.twData s).1),
      phase := .addrSent, dir := byteDir s.twData,
      nack := decide ((drawAck .addr s.twData s).1 = .nack), pending := .none,
      buslog := s.buslog ++ [.addr s.twData (drawAck .addr s.twData s).1] } := by
  simp only [engineAddress, drawAck_state]; rfl

theorem engineTransmit_eq (s : State) :
    engineTransmit s = { s with
      acks := s.acks.tail, ctrl := { s.ctrl with int := true },
      twCode := codeField (txStatus s.par.st (drawAck .data s.twData s).1), phase := .dataSent,
      nack := decide ((drawAck .data s.twData s).1 = .nack), pending := .none,
      buslog := s.buslog ++ [.tx s.twData (drawAck .data s.twData s).1] } := by
  simp only [engineTransmit, drawAck_state]
  cases (drawAck .data s.twData s).1 <;> rfl

theorem engineReceive_eq (s : State) :
    engineReceive s = { s with
      bytes := s.bytes.tail, ctrl := { s.ctrl with int := true },
      twCode := codeField (if s.ctrl.ea then s.par.st.dataRxAck else s.par.st.dataRxNack),
      twData := (drawByte s).1, phase := .dataReceived, nack := !s.ctrl.ea, pending := .none,
      buslog := s.buslog ++ [.rx (drawByte s).1 (if s.ctrl.ea then .ack else .nack)] } := by
  simp only [engineReceive, drawByte_state]; rfl

/-! ### What a step can be -/

/-- Everything an engine step can do (R204 to R208). -/
theorem engineStep_cases {s t : State} (h : engineStep s = .done t) :
    s.ctrl.en = true ∧ s.ctrl.int = false ∧
    ((s.pending = .start ∧ t = withFaults engineStart s) ∨
     (s.pending = .stop ∧ t = engineStop s) ∨
     (s.pending = .xfer ∧ s.phase = .startSent ∧ t = withFaults engineAddress s) ∨
     (s.pending = .xfer ∧ s.dir = .W ∧ (s.phase = .addrSent ∨ s.phase = .dataSent) ∧
        t = withFaults engineTransmit s) ∨
     (s.pending = .xfer ∧ s.dir = .R ∧ s.nack = false ∧
        (s.phase = .addrSent ∨ s.phase = .dataReceived) ∧ t = withFaults engineReceive s)) := by
  unfold engineStep at h
  split at h
  · rename_i hc
    simp only [Bool.and_eq_true, Bool.not_eq_true'] at hc
    refine ⟨hc.1, hc.2, ?_⟩
    cases hp : s.pending
    · simp only [hp] at h; cases h
    · simp only [hp] at h; cases h; exact .inl ⟨rfl, rfl⟩
    · simp only [hp] at h; cases h; exact .inr (.inl ⟨rfl, rfl⟩)
    · simp only [hp] at h
      refine .inr (.inr ?_)
      unfold engineXfer at h
      cases hph : s.phase <;> cases hd : s.dir <;> cases hn : s.nack <;> simp only [hph, hd, hn] at h <;>
        cases h <;> simp
  · cases h

/-- An engine that is held changes nothing. -/
theorem engineStep_held {s t : State} (h : engineStep s = .held t) : t = s := by
  unfold engineStep at h
  split at h
  · split at h
    · cases h; rfl
    · cases h
    · cases h
    · unfold engineXfer at h
      split at h <;> cases h <;> rfl
  · cases h; rfl

/-- Everything a completion step can do, bus faults among it (R212). -/
theorem withFaults_cases (f : State → State) (s : State) :
    withFaults f s = f s ∨
    ∃ s1, (s1 = { s with outcomes := s1.outcomes, draws := s1.draws }) ∧
      (withFaults f s = f s1 ∨ withFaults f s = engineArbLost s1 ∨ withFaults f s = engineBusError s1) := by
  unfold withFaults
  split
  · have hs : (drawOutcome s).2 =
        { s with outcomes := (drawOutcome s).2.outcomes, draws := (drawOutcome s).2.draws } := by
      unfold drawOutcome; cases s.outcomes <;> rfl
    right
    refine ⟨(drawOutcome s).2, hs, ?_⟩
    rcases h : drawOutcome s with ⟨o, s1⟩
    cases o
    · exact .inl rfl
    · exact .inr (.inl rfl)
    · exact .inr (.inr rfl)
  · exact .inl rfl

/-- Everything an engine's chance can do: a step, perhaps after a draw (R213). -/
theorem engineChance_cases (s : State) :
    engineChance s = engineStep s ∨ engineChance s = .held s ∨
    engineChance s = engineStep { s with draws := s.draws + 1 } ∨
    engineChance s = .held { s with draws := s.draws + 1 } := by
  unfold engineChance
  split
  · exact .inl rfl
  · exact .inr (.inl rfl)
  · split
    · exact .inr (.inr (.inl rfl))
    · exact .inr (.inr (.inr rfl))

theorem engineChance_fair {s : State} (h : s.par.engine = .fair) : engineChance s = engineStep s := by
  simp [engineChance, h]

theorem engineChance_stuck {s : State} (h : s.par.engine = .stuck) : engineChance s = .held s := by
  simp [engineChance, h]

/-! ### Control writes -/

/-- A control write that goes through (R201). -/
theorem ctrlWrite_free {s : State} (h : EngineFree s) (w : CtrlWord) :
    ctrlWrite w s = .done { s with
      ctrl := ctrlAfter s w false, pending := pendingOf w,
      phase := if w = .stop then .stop else s.phase } := by
  cases w <;> simp [ctrlWrite, h.1, h.2, ctrlAfter, pendingOf]

/-- Everything a control write can do (R201, R203). -/
theorem ctrlWrite_cases (w : CtrlWord) (s : State) :
    (s.phase = .stop ∧ ctrlWrite w s = .held s) ∨
    (s.phase ≠ .stop ∧ s.pending ≠ .none ∧ ctrlWrite w s = .refused .ctrlWriteWhilePending) ∨
    (EngineFree s ∧ ctrlWrite w s = .done { s with
      ctrl := ctrlAfter s w false, pending := pendingOf w,
      phase := if w = .stop then .stop else s.phase }) := by
  by_cases h1 : s.phase = .stop
  · exact .inl ⟨h1, by simp [ctrlWrite, h1]⟩
  · by_cases h2 : s.pending = .none
    · exact .inr (.inr ⟨⟨h2, h1⟩, ctrlWrite_free ⟨h2, h1⟩ w⟩)
    · exact .inr (.inl ⟨h1, h2, by simp [ctrlWrite, h1, h2]⟩)

/-- The stop a held control write waits for (R203, R205). -/
theorem engineStep_stop {s : State} (h : StopPending s) : engineStep s = .done (engineStop s) := by
  simp [engineStep, h.1, h.2.2.1, h.2.2.2]

/-! ### The step of a launched operation, without bus faults -/

/-- The engine may act on an operation (R204 to R208), and the operation ends normally (R212). -/
structure Enabled (s : State) : Prop where
  en : s.ctrl.en = true
  int : s.ctrl.int = false
  faults : s.par.busFaults = false

theorem engineStep_start {s : State} (h : Enabled s) (hp : s.pending = .start) :
    engineStep s = .done (engineStart s) := by
  simp [engineStep, h.en, h.int, hp, withFaults_off h.faults]

theorem engineStep_address {s : State} (h : Enabled s) (hp : s.pending = .xfer) (hph : s.phase = .startSent) :
    engineStep s = .done (engineAddress s) := by
  simp [engineStep, engineXfer, h.en, h.int, hp, hph, withFaults_off h.faults]

theorem engineStep_transmit {s : State} (h : Enabled s) (hp : s.pending = .xfer)
    (hph : s.phase = .addrSent ∨ s.phase = .dataSent) (hd : s.dir = .W) :
    engineStep s = .done (engineTransmit s) := by
  rcases hph with hph | hph <;>
    simp [engineStep, engineXfer, h.en, h.int, hp, hph, hd, withFaults_off h.faults]

theorem engineStep_receive {s : State} (h : Enabled s) (hp : s.pending = .xfer)
    (hph : s.phase = .addrSent ∨ s.phase = .dataReceived) (hd : s.dir = .R) (hn : s.nack = false) :
    engineStep s = .done (engineReceive s) := by
  rcases hph with hph | hph <;>
    simp [engineStep, engineXfer, h.en, h.int, hp, hph, hd, hn, withFaults_off h.faults]

end Sys2Proof.Machine
end

