-- ==== Sys2Proof/Laws/Memory.lean ====
section
/-! SUPPORT. The payload buffer: read after write, and the canonical form, which every operation keeps. -/

namespace Sys2Proof.Machine

theorem Memory.read_write_same (m : List Host.Cell) (a : Nat) (v : Byte) (h : Memory.wf m = true) :
    Memory.read (Memory.write m a v) a = v := by
  induction m with
  | nil => simp only [Memory.write]; split <;> simp_all [Memory.read]
  | cons c m ih =>
    obtain ⟨b, w⟩ := c
    simp only [Memory.wf, Bool.and_eq_true, decide_eq_true_eq, List.pairwise_cons, List.all_cons] at h
    have hm : Memory.wf m = true := by simp [Memory.wf, h.1.2, h.2.2]
    have absent : ∀ x, x ≤ b → Memory.read m x = bufDefault := by
      intro x hx
      have hlt : ∀ c ∈ m, x < c.1 := fun c hc => lt_of_le_of_lt hx (h.1.1 c hc)
      clear ih h hm
      induction m with
      | nil => rfl
      | cons d m ihm =>
        have hd := hlt d List.mem_cons_self
        simp only [Memory.read]
        rw [if_neg (by omega)]
        exact ihm fun c hc => hlt c (List.mem_cons_of_mem _ hc)
    simp only [Memory.write]
    split
    · rename_i hlt
      split
      · rename_i hv
        simp only [Memory.read]
        rw [if_neg (by omega), absent a (by omega), hv]
      · simp [Memory.read]
    · split
      · rename_i heq
        split
        · rename_i hv
          rw [absent a (by omega), hv]
        · simp [Memory.read]
      · rename_i hne
        simp only [Memory.read, if_neg hne]
        exact ih hm

theorem Memory.read_write_other (m : List Host.Cell) (a x : Nat) (v : Byte) (h : x ≠ a) :
    Memory.read (Memory.write m a v) x = Memory.read m x := by
  induction m with
  | nil => simp only [Memory.write]; split <;> simp_all [Memory.read]
  | cons c m ih =>
    obtain ⟨b, w⟩ := c
    simp only [Memory.write]
    split
    · split <;> simp_all [Memory.read]
    · split
      · rename_i heq
        subst heq
        split <;> simp_all [Memory.read]
      · simp only [Memory.read, ih]

/-- Every cell of a written list is the written one or was there before. -/
theorem Memory.mem_write {m : List Host.Cell} {a : Nat} {v : Byte} {c : Host.Cell}
    (h : c ∈ Memory.write m a v) : c = (a, v) ∨ c ∈ m := by
  induction m with
  | nil => simp only [Memory.write] at h; split at h <;> simp_all
  | cons d m ih =>
    obtain ⟨b, w⟩ := d
    simp only [Memory.write] at h
    split at h
    · split at h <;> simp_all
    · split at h
      · split at h
        · exact .inr (List.mem_cons_of_mem _ h)
        · rename_i hab _
          rcases List.mem_cons.mp h with h | h
          · exact .inl (by rw [h, hab])
          · exact .inr (List.mem_cons_of_mem _ h)
      · rcases List.mem_cons.mp h with h | h
        · simp [h]
        · rcases ih h with h | h <;> simp [h]

/-- A write keeps the canonical form. -/
theorem Memory.write_wf (m : List Host.Cell) (a : Nat) (v : Byte) (h : Memory.wf m = true) :
    Memory.wf (Memory.write m a v) = true := by
  induction m with
  | nil => simp only [Memory.write]; split <;> simp_all [Memory.wf]
  | cons c m ih =>
    obtain ⟨b, w⟩ := c
    simp only [Memory.wf, Bool.and_eq_true, decide_eq_true_eq, List.pairwise_cons, List.all_cons,
      bne_iff_ne, List.all_eq_true, ne_eq] at h ih ⊢
    obtain ⟨⟨h1, h2⟩, h3, h4⟩ := h
    have ih' := ih ⟨h2, h4⟩
    simp only [Memory.write]
    split
    · rename_i hlt
      split
      · simp [h2]; exact ⟨fun a b h => h1 (a, b) h, h3, fun a b h => h4 (a, b) h⟩
      · rename_i hv
        simp only [List.pairwise_cons, List.mem_cons, forall_eq_or_imp]
        exact ⟨⟨⟨hlt, fun c hc => lt_trans hlt (h1 c hc)⟩, h1, h2⟩, hv, h3, h4⟩
    · split
      · rename_i heq
        subst heq
        split
        · exact ⟨h2, h4⟩
        · rename_i hv
          simp only [List.pairwise_cons, List.mem_cons, forall_eq_or_imp]
          exact ⟨⟨h1, h2⟩, hv, h4⟩
      · rename_i hge hne
        simp only [List.pairwise_cons, List.mem_cons, forall_eq_or_imp]
        refine ⟨⟨fun c hc => ?_, ih'.1⟩, h3, ih'.2⟩
        rcases Memory.mem_write hc with rfl | hc
        · simp only; omega
        · exact h1 c hc

/-- The buffer of the reset state is canonical. -/
theorem reset_buf_wf : Memory.wf State.reset.buf = true := by decide

/-- A write inside the buffer keeps `BufOk`. -/
theorem bufWrite_bufOk (i : Nat) (v : Byte) (s : State) (hi : i < s.par.bufSize) (h : BufOk s) :
    BufOk (bufWrite i v s) := by
  refine ⟨Memory.write_wf _ _ _ h.1, ?_⟩
  have h2 := h.2
  simp only [List.all_eq_true, decide_eq_true_eq] at h2 ⊢
  intro c hc
  rcases Memory.mem_write hc with rfl | hc
  · exact hi
  · exact h2 c hc

end Sys2Proof.Machine
end

