-- ==== Sys2Proof/Laws/PerInstr.lean ====
section
/-! SUPPORT. One fact about every instruction as syntax: its encoded word selects its own row of the opcode map
and no other, its control word is the byte that R200 prints. -/

namespace Sys2Proof.Laws

/-- The control words with the default bit positions, as R200 prints them. -/
def TableRow.ctrlRows : List (String × Byte) :=
  [("CW_START", 0xA4), ("CW_STOP", 0x94), ("CW_XFER_NACK", 0x84), ("CW_XFER_ACK", 0xC4)]

/-- The encoded instruction selects the row of its mnemonic and no other row (R97, R200). -/
def TableRow.Statement (i : Instr) : Prop :=
  match encode Machine.defaultParams i with
  | .cw40 w => opcodeRows.all (fun row => rowSelected w row == (row.name == mnemonic i)) = true
  | .twcw v => TableRow.ctrlRows.all (fun row => (v == row.2) == (row.1 == mnemonic i)) = true

/-! ### The masked fields -/

theorem bit_masked : ∀ n : BitIx, (0#13 ++ n) &&& 65528#16 = 0#16 := by decide

theorem pin_masked : ∀ n : BitIx, encPin n &&& 248#8 = 0#8 := by decide

theorem port_masked (p : Port) : encPort p &&& 252#8 = 0#8 := by cases p <;> decide

theorem port_code (p : Port) : ¬ (encPort p).extractLsb' 0 2 = 3#2 := by cases p <;> decide

theorem pu_masked : ∀ b : Bool, (0#14 ++ BitVec.ofBool b ++ 1#1) &&& 65533#16 = 1#16 := by decide

theorem pu_not_zero :
    ∀ b : Bool, ¬ (0#14 ++ BitVec.ofBool b ++ 1#1) &&& 65535#16 = 0#16 := by decide

theorem pu_not_two :
    ∀ b : Bool, ¬ (0#14 ++ BitVec.ofBool b ++ 1#1) &&& 65535#16 = 2#16 := by decide

theorem level_masked : ∀ b : Bool, (0#15 ++ BitVec.ofBool b) &&& 65534#16 = 0#16 := by decide

theorem rsz_masked (r : RegSize) : (0#7 ++ BitVec.ofBool (regSizeBit r)) &&& 254#8 = 0#8 := by
  cases r <;> decide

theorem byte_masked (v : Byte) : (0#8 ++ v) &&& 65280#16 = 0#16 := by
  apply BitVec.eq_of_toNat_eq
  rw [BitVec.toNat_and, BitVec.toNat_append]
  have h : v.toNat < 2 ^ 8 := v.isLt
  simp only [BitVec.toNat_ofNat, Nat.zero_mod, Nat.zero_shiftLeft, Nat.zero_or]
  apply Nat.eq_of_testBit_eq
  intro i
  rw [Nat.testBit_and, Nat.zero_testBit]
  by_cases hi : i < 8
  · have : ∀ i, i < 8 → Nat.testBit (65280 % 2 ^ 16) i = false := by decide
    rw [this i hi, Bool.and_false]
  · rw [Nat.testBit_lt_two_pow (Nat.lt_of_lt_of_le h (Nat.pow_le_pow_right (by omega) (by omega))),
      Bool.false_and]

theorem TableRow.setbit (addr : Byte) (bit : BitIx) : TableRow.Statement (.setbit addr bit) := by
  simp [TableRow.Statement, encode, opcodeRows, rowSelected_cw40, mnemonic, fieldOp, fieldA, fieldB, fieldC,
    bit_masked]

theorem TableRow.clrbit (addr : Byte) (bit : BitIx) : TableRow.Statement (.clrbit addr bit) := by
  simp [TableRow.Statement, encode, opcodeRows, rowSelected_cw40, mnemonic, fieldOp, fieldA, fieldB, fieldC,
    bit_masked]

theorem TableRow.tstbit (addr : Byte) (bit : BitIx) : TableRow.Statement (.tstbit addr bit) := by
  simp [TableRow.Statement, encode, opcodeRows, rowSelected_cw40, mnemonic, fieldOp, fieldA, fieldB, fieldC,
    bit_masked]

theorem TableRow.cfgpinOut (p : Port) (n : BitIx) (pu : Bool) : TableRow.Statement (.cfgpinOut p n pu) := by
  simp [TableRow.Statement, encode, opcodeRows, rowSelected_cw40, mnemonic, fieldOp, fieldA, fieldB, fieldC,
    pin_masked, port_masked, port_code, pu_masked, pu_not_zero, pu_not_two]

theorem TableRow.cfgpinInpu (p : Port) (n : BitIx) : TableRow.Statement (.cfgpinInpu p n) := by
  simp [TableRow.Statement, encode, opcodeRows, rowSelected_cw40, mnemonic, fieldOp, fieldA, fieldB, fieldC,
    pin_masked, port_masked, port_code]

theorem TableRow.cfgpinIn (p : Port) (n : BitIx) : TableRow.Statement (.cfgpinIn p n) := by
  simp [TableRow.Statement, encode, opcodeRows, rowSelected_cw40, mnemonic, fieldOp, fieldA, fieldB, fieldC,
    pin_masked, port_masked, port_code]

theorem TableRow.wrpin (p : Port) (n : BitIx) (l : Bool) : TableRow.Statement (.wrpin p n l) := by
  simp [TableRow.Statement, encode, opcodeRows, rowSelected_cw40, mnemonic, fieldOp, fieldA, fieldB, fieldC,
    pin_masked, port_masked, port_code, level_masked]

theorem TableRow.tglpin (p : Port) (n : BitIx) : TableRow.Statement (.tglpin p n) := by
  simp [TableRow.Statement, encode, opcodeRows, rowSelected_cw40, mnemonic, fieldOp, fieldA, fieldB, fieldC,
    pin_masked, port_masked, port_code]

theorem TableRow.rdpin (p : Port) (n : BitIx) : TableRow.Statement (.rdpin p n) := by
  simp [TableRow.Statement, encode, opcodeRows, rowSelected_cw40, mnemonic, fieldOp, fieldA, fieldB, fieldC,
    pin_masked, port_masked, port_code]

theorem TableRow.twstart : TableRow.Statement .twstart := by
  simp [TableRow.Statement, encode, opcodeRows, rowSelected_cw40, mnemonic, fieldOp, fieldA, fieldB, fieldC]

theorem TableRow.twstop : TableRow.Statement .twstop := by
  simp [TableRow.Statement, encode, opcodeRows, rowSelected_cw40, mnemonic, fieldOp, fieldA, fieldB, fieldC]

theorem TableRow.twtx (v : Byte) : TableRow.Statement (.twtx v) := by
  simp [TableRow.Statement, encode, opcodeRows, rowSelected_cw40, mnemonic, fieldOp, fieldA, fieldB, fieldC,
    byte_masked]

theorem TableRow.twrx (more : Bool) : TableRow.Statement (.twrx more) := by
  simp [TableRow.Statement, encode, opcodeRows, rowSelected_cw40, mnemonic, fieldOp, fieldA, fieldB, fieldC,
    level_masked]

theorem TableRow.twrega (rsz : RegSize) (reg : BitVec 16) : TableRow.Statement (.twrega rsz reg) := by
  simp [TableRow.Statement, encode, opcodeRows, rowSelected_cw40, mnemonic, fieldOp, fieldA, fieldB, fieldC,
    rsz_masked]

theorem TableRow.twwrmem (rsz : RegSize) (slave : BitVec 7) (length : Byte) (reg : BitVec 16) :
    TableRow.Statement (.twwrmem rsz slave length reg) := by
  simp [TableRow.Statement, encode, opcodeRows, rowSelected_cw40, mnemonic, fieldOp, fieldA, fieldB, fieldC]

theorem TableRow.twrdmem (rsz : RegSize) (slave : BitVec 7) (length : Byte) (reg : BitVec 16) :
    TableRow.Statement (.twrdmem rsz slave length reg) := by
  simp [TableRow.Statement, encode, opcodeRows, rowSelected_cw40, mnemonic, fieldOp, fieldA, fieldB, fieldC]

theorem TableRow.cwStart : TableRow.Statement .cwStart := by
  show (_ : List (String × Byte)).all _ = true
  decide

theorem TableRow.cwStop : TableRow.Statement .cwStop := by
  show (_ : List (String × Byte)).all _ = true
  decide

theorem TableRow.cwXferNack : TableRow.Statement .cwXferNack := by
  show (_ : List (String × Byte)).all _ = true
  decide

theorem TableRow.cwXferAck : TableRow.Statement .cwXferAck := by
  show (_ : List (String × Byte)).all _ = true
  decide

end Sys2Proof.Laws
end

