-- ==== Sys2Proof/Laws/Run.lean ====
section
/-! SUPPORT. How a command runs: the equations of `run`, one turn of a command no other agent interrupts, and
what a line of pseudocode can do. -/

namespace Sys2Proof.Machine

theorem run_idle (k : Nat) (code : Lines) {s : State} (h : s.upc = 0) : run k code s = .next s := by
  cases k <;> simp [run, h]

theorem run_goesOn {k : Nat} {code : Lines} {s t : State} (h : s.upc ≠ 0) (ht : turn code s = .goesOn t) :
    run (k + 1) code s = run k code t := by simp [run, h, ht]

theorem run_waits {k : Nat} {code : Lines} {s t : State} (h : s.upc ≠ 0) (ht : turn code s = .waits t) :
    run (k + 1) code s = .next t := by simp [run, h, ht]

theorem run_refused {k : Nat} {code : Lines} {s : State} {r : Refusal} (h : s.upc ≠ 0)
    (ht : turn code s = .refused r) : run (k + 1) code s = .refused r := by simp [run, h, ht]

/-- One line of a command that no other agent interrupts. -/
theorem turn_line {code : Lines} {s t : State} {l : Line} (hp : s.plan = []) (hl : lineAt code s = some l)
    (ht : lineStep l s = .done t) : turn code s = .goesOn t := by
  simp [turn, hp, sequencerStep, hl, ht]

theorem turn_refused {code : Lines} {s : State} {l : Line} {r : Refusal} (hp : s.plan = [])
    (hl : lineAt code s = some l) (ht : lineStep l s = .refused r) : turn code s = .refused r := by
  simp [turn, hp, sequencerStep, hl, ht]

/-- The engine's turn while the sequencer is held. -/
theorem turn_engine {code : Lines} {s s1 t : State} {l : Line} (hp : s.plan = []) (hl : lineAt code s = some l)
    (hh : lineStep l s = .held s1) (ht : engineChance s1 = .done t) : turn code s = .goesOn t := by
  simp [turn, hp, sequencerStep, hl, hh, ht]

theorem turn_waits {code : Lines} {s s1 t : State} {l : Line} (hp : s.plan = []) (hl : lineAt code s = some l)
    (hh : lineStep l s = .held s1) (ht : engineChance s1 = .held t) : turn code s = .waits t := by
  simp [turn, hp, sequencerStep, hl, hh, ht]

/-- An idle sequencer with an empty plan starts a command at its first line. -/
theorem perform_start {code : Lines} {s : State} (hu : s.upc = 0) (hp : s.plan = []) :
    perform code s = run turnBudget code { s with upc := 1 } := by simp [perform, hu, hp]

/-- Everything a turn can be, whatever the plan: the line it takes, the agent it gives way to, or the engine. -/
theorem turn_cases {code : Lines} {s t : State} (h : turn code s = .goesOn t) :
    (∃ l s0, lineAt code s = some l ∧ (s0 = s ∨ ∃ rest, s.plan = .seq :: rest ∧ s0 = { s with plan := rest }) ∧
      (lineStep l s0 = .done t ∨ (∃ rest, s.plan = .seq :: rest) ∧ lineStep l s0 = .held t)) ∨
    (∃ l s1, s.plan = [] ∧ lineAt code s = some l ∧ lineStep l s = .held s1 ∧ engineChance s1 = .done t) ∨
    (∃ a rest, s.plan = a :: rest ∧ a ≠ .seq ∧
      (agentTurn a { s with plan := rest } = .done t ∨ agentTurn a { s with plan := rest } = .held t)) := by
  unfold turn at h
  split at h
  · rename_i hp
    unfold sequencerStep at h
    cases hl : lineAt code s with
    | none => simp [hl] at h
    | some l =>
      cases hs : lineStep l s with
      | done s1 =>
        simp only [hl, hs, Option.map_some, Progress.goesOn.injEq] at h
        exact .inl ⟨l, s, rfl, .inl rfl, .inl (by rw [hs, h])⟩
      | refused r => simp [hl, hs] at h
      | held s1 =>
        simp only [hl, hs, Option.map_some] at h
        cases hc : engineChance s1 with
        | done s2 =>
          simp only [hc, Progress.goesOn.injEq] at h
          exact .inr (.inl ⟨l, s1, hp, rfl, hs, by rw [hc, h]⟩)
        | held s2 => simp [hc] at h
        | refused r => simp [hc] at h
  · rename_i rest hp
    unfold sequencerStep at h
    have hle : lineAt code { s with plan := rest } = lineAt code s := rfl
    cases hl : lineAt code s with
    | none => simp [hle, hl] at h
    | some l =>
      cases hs : lineStep l { s with plan := rest } with
      | done s1 =>
        simp only [hle, hl, hs, Option.map_some, Progress.goesOn.injEq] at h
        exact .inl ⟨l, _, rfl, .inr ⟨rest, hp, rfl⟩, .inl (by rw [hs, h])⟩
      | refused r => simp [hle, hl, hs] at h
      | held s1 =>
        simp only [hle, hl, hs, Option.map_some, Progress.goesOn.injEq] at h
        exact .inl ⟨l, _, rfl, .inr ⟨rest, hp, rfl⟩, .inr ⟨⟨rest, hp⟩, by rw [hs, h]⟩⟩
  · rename_i a rest hne hp
    refine .inr (.inr ⟨a, rest, hp, hne, ?_⟩)
    split at h
    · rename_i s1 hs; cases h; exact .inl hs
    · rename_i s1 hs; cases h; exact .inr hs
    · cases h

/-- An invariant of turns is an invariant of commands: what every turn keeps, and the start of a command keeps,
holds in the state a command answers. -/
theorem run_keeps {P : State → Prop} {code : Lines}
    (hgo : ∀ s t, P s → s.upc ≠ 0 → turn code s = .goesOn t → P t)
    (hwait : ∀ s t, P s → s.upc ≠ 0 → turn code s = .waits t → P t) :
    ∀ (k : Nat) (s t : State), P s → run k code s = .next t → P t := by
  intro k
  induction k with
  | zero => intro s t hs h; cases h; exact hs
  | succ k ih =>
    intro s t hs h
    unfold run at h
    split at h
    · cases h; exact hs
    · rename_i hu
      cases ht : turn code s with
      | goesOn s1 => rw [ht] at h; exact ih s1 t (hgo s s1 hs hu ht) h
      | waits s1 => rw [ht] at h; cases h; exact hwait s _ hs hu ht
      | refused r => rw [ht] at h; cases h
      | lost => rw [ht] at h; cases h

/-- The bit operations on a plain-storage register store a byte and nothing else (R71). -/
theorem bitSetReg_plain {r : Reg} (h : plainStorage r = true) (b : BitIx) (s : State) :
    bitSetReg r b s = .done (storeReg r (setBit (regRead r s).1 b) s) := by
  cases r <;> simp_all [bitSetReg, plainStorage, regWrite, storeReg]

theorem bitClearReg_plain {r : Reg} (h : plainStorage r = true) (b : BitIx) (s : State) :
    bitClearReg r b s = .done (storeReg r (clearBit (regRead r s).1 b) s) := by
  cases r <;> simp_all [bitClearReg, plainStorage, regWrite, storeReg]

theorem regWrite_plain {r : Reg} (h : plainStorage r = true) (v : Byte) (s : State) :
    regWrite r v s = .done (storeReg r v s) := by
  cases r <;> simp_all [plainStorage, regWrite, storeReg]

/-- What is stored in a plain-storage register is read back (R62, R63, R66). -/
theorem regRead_storeReg {r : Reg} (h : plainStorage r = true) (v : Byte) (s : State) :
    regRead r (storeReg r v s) = (v, storeReg r v s) := by
  cases r <;> simp_all [plainStorage, regRead, storeReg]

end Sys2Proof.Machine
end

