-- ==== Sys2Proof/Laws/Procs.lean ====
section
/-! SUPPORT. The procedures of the TWI (R161 to R167), once each: which state a run of their lines reaches, where
the engine is weakly fair and no other agent steps in. -/

namespace Sys2Proof.Machine

/-- A run of `code` gets from one state to another in at most so many turns. -/
def Reaches (code : Lines) (n : Nat) (s t : State) : Prop := ∃ m ≤ n, ∀ k, run (k + m) code s = run k code t

theorem Reaches.refl (code : Lines) (s : State) : Reaches code 0 s s := ⟨0, le_refl 0, fun _ => rfl⟩

theorem Reaches.trans {code : Lines} {n m : Nat} {s t u : State} (h : Reaches code n s t)
    (h' : Reaches code m t u) : Reaches code (n + m) s u := by
  obtain ⟨a, ha, fa⟩ := h
  obtain ⟨b, hb, fb⟩ := h'
  exact ⟨b + a, by omega, fun k => by rw [← Nat.add_assoc, fa, fb]⟩

theorem Reaches.mono {code : Lines} {n m : Nat} {s t : State} (h : Reaches code n s t) (hm : n ≤ m) :
    Reaches code m s t := by
  obtain ⟨a, ha, fa⟩ := h
  exact ⟨a, by omega, fa⟩

/-- A run that reaches a state with turns to spare goes on from there. -/
theorem Reaches.run_eq {code : Lines} {n : Nat} {s t : State} (h : Reaches code n s t) {k : Nat} (hk : n ≤ k) :
    ∃ j, k ≤ j + n ∧ run k code s = run j code t := by
  obtain ⟨m, hm, f⟩ := h
  refine ⟨k - m, by omega, ?_⟩
  have := f (k - m)
  rwa [Nat.sub_add_cancel (by omega)] at this

/-- A run that reaches an idle sequencer answers that state. -/
theorem Reaches.answers {code : Lines} {n : Nat} {s t : State} (h : Reaches code n s t) (ht : t.upc = 0) {k : Nat}
    (hk : n ≤ k) : run k code s = .next t := by
  obtain ⟨j, _, e⟩ := h.run_eq hk
  rw [e, run_idle j code ht]

theorem Reaches.line {code : Lines} {s t : State} {l : Line} (hu : s.upc ≠ 0) (hp : s.plan = [])
    (hl : lineAt code s = some l) (ht : lineStep l s = .done t) : Reaches code 1 s t :=
  ⟨1, le_refl 1, fun _ => run_goesOn hu (turn_line hp hl ht)⟩

theorem Reaches.engine {code : Lines} {s s1 t : State} {l : Line} (hu : s.upc ≠ 0) (hp : s.plan = [])
    (hl : lineAt code s = some l) (hh : lineStep l s = .held s1) (ht : engineChance s1 = .done t) :
    Reaches code 1 s t :=
  ⟨1, le_refl 1, fun _ => run_goesOn hu (turn_engine hp hl hh ht)⟩

/-- The premises every procedure shares: no turn of another agent, a weakly fair engine, no bus faults. -/
structure Fair (s : State) : Prop where
  plan : s.plan = []
  faults : s.par.busFaults = false
  engine : s.par.engine = .fair
  params : paramsOk s.par = true

theorem lineAt_of {code : Lines} {s : State} {u : Nat} {l : Line} (hu : s.upc = u + 1)
    (h : code[u]? = some l) : lineAt code s = some l := by
  simp [lineAt, hu, h]

/-- The poll of a launched operation, the engine's step, and the status read (R161, R167). -/
theorem Reaches.pollStatus {code : Lines} {s t : State} {u : Nat} (hs : Fair s) (hu : s.upc = u + 1)
    (h1 : code[u]? = some .poll) (h2 : code[u + 1]? = some .status) (hi : s.ctrl.int = false)
    (he : engineStep s = .done t) (hti : t.ctrl.int = true) (htp : t.par = s.par) (htl : t.plan = [])
    (htu : t.upc = s.upc) {v : Byte} (hv : v ∈ statusList s.par.st) (htv : t.twCode = v.extractLsb' 3 5) :
    Reaches code 3 s { t with st := v, upc := u + 3 } := by
  have hheld : lineStep .poll s = .held s := by
    simp [lineStep, intFlag_eq s hs.params, hi]
  have e1 : Reaches code 1 s t :=
    Reaches.engine (by omega) hs.plan (lineAt_of hu h1) hheld (by rw [engineChance_fair hs.engine, he])
  have hok : paramsOk t.par = true := by rw [htp]; exact hs.params
  have e2 : Reaches code 1 t (goto 1 t) :=
    Reaches.line (by omega) htl (lineAt_of (htu.trans hu) h1) (by
      simp only [lineStep, intFlag_eq t hok, hti, if_true])
  have e3 : Reaches code 1 (goto 1 t) (goto 1 { goto 1 t with st := v }) :=
    Reaches.line (by simp [goto]) (by simpa [goto] using htl)
      (lineAt_of (u := u + 1) (by simp [goto, htu, hu]) h2) (by
        simp only [lineStep]
        rw [statusCode_of_code (goto 1 t) v (by simpa [goto] using hok) (by simpa [goto, htp] using hv)
          (by simpa [goto] using htv)])
  have h := (e1.trans e2).trans e3
  have hst : goto 1 { goto 1 t with st := v } = { t with st := v, upc := u + 3 } := by
    simp [goto, htu, hu]
  rw [hst] at h
  exact h.mono (by omega)

/-- A control write of the sequencer that nothing holds back (R201). -/
theorem Reaches.ctrlFree {code : Lines} {s : State} {u : Nat} {w : CtrlWord} (hp : s.plan = [])
    (hu : s.upc = u + 1) (h : code[u]? = some (.ctrl w)) (hf : EngineFree s) :
    Reaches code 1 s { s with
      ctrl := ctrlAfter s w false, pending := pendingOf w,
      phase := if w = .stop then .stop else s.phase, upc := u + 2 } :=
  Reaches.line (by omega) hp (lineAt_of hu h) (by
    simp only [lineStep, ctrlWrite_free hf w, thenNext, goto, hu])

/-- The stop a control write waits for comes first (R203, R205). -/
theorem Reaches.stopDone {code : Lines} {s : State} {u : Nat} {w : CtrlWord} (hs : Fair s)
    (hu : s.upc = u + 1) (h : code[u]? = some (.ctrl w)) (hf : StopPending s) :
    Reaches code 1 s (stopDone s) :=
  Reaches.engine (s1 := s) (by omega) hs.plan (lineAt_of hu h)
    (by simp only [lineStep, ctrlWrite, hf.2.1, if_true, thenNext])
    (by rw [engineChance_fair hs.engine, engineStep_stop hf, engineStop_eq, Machine.stopDone, if_pos hf.2.1])

/-- A control write of the sequencer, after the stop it may have to wait for. -/
theorem Reaches.ctrl {code : Lines} {s : State} {u : Nat} {w : CtrlWord} (hs : Fair s)
    (hu : s.upc = u + 1) (h : code[u]? = some (.ctrl w)) (hf : EngineFree s ∨ StopPending s) :
    Reaches code 2 s { Machine.stopDone s with
      ctrl := ctrlAfter (Machine.stopDone s) w false, pending := pendingOf w,
      phase := if w = .stop then .stop else (Machine.stopDone s).phase, upc := u + 2 } := by
  rcases hf with hf | hf
  · have e : Machine.stopDone s = s := by simp [Machine.stopDone, hf.2]
    rw [e]
    exact (Reaches.ctrlFree hs.plan hu h hf).mono (by omega)
  · have h1 := Reaches.stopDone hs hu h hf
    have hfree : EngineFree (Machine.stopDone s) := by
      simp [EngineFree, Machine.stopDone, hf.2.1]
    have h2 := Reaches.ctrlFree (code := code) (s := Machine.stopDone s) (u := u) (w := w)
      (by simp [Machine.stopDone, hf.2.1, hs.plan]) (by simp [Machine.stopDone, hf.2.1, hu]) h hfree
    exact h1.trans h2

theorem stopDone_par (s : State) : (stopDone s).par = s.par := by unfold stopDone; split <;> rfl

theorem stopDone_plan (s : State) : (stopDone s).plan = s.plan := by unfold stopDone; split <;> rfl

theorem stopDone_free {s : State} (h : s.phase ≠ .stop) : stopDone s = s := by simp [stopDone, h]

/-- The state right after a control write that launches an operation other than a stop (R201). -/
def launched (w : CtrlWord) (u : Nat) (s : State) : State :=
  { s with ctrl := ctrlAfter s w false, pending := pendingOf w, upc := u + 2 }

theorem launched_enabled (w : CtrlWord) (u : Nat) {s : State} (h : s.par.busFaults = false) :
    Enabled (launched w u s) := ⟨rfl, rfl, h⟩

/-- An operation from its control write to its status read (R160): what its engine step leaves, and the status. -/
theorem Reaches.op {code : Lines} {s t : State} {u : Nat} {w : CtrlWord} {v : Byte} (hw : w ≠ .stop)
    (hs : Fair s) (hu : s.upc = u + 1) (h0 : code[u]? = some (.ctrl w)) (h1 : code[u + 1]? = some .poll)
    (h2 : code[u + 2]? = some .status) (hf : EngineFree s ∨ StopPending s)
    (he : engineStep (launched w u (Machine.stopDone s)) = .done t)
    (hti : t.ctrl.int = true) (htp : t.par = s.par) (htl : t.plan = []) (htu : t.upc = u + 2)
    (hv : v ∈ statusList s.par.st) (htv : t.twCode = codeField v) :
    Reaches code 5 s { t with st := v, upc := u + 4 } := by
  have e1 := Reaches.ctrl hs hu h0 hf
  rw [if_neg hw] at e1
  have hpar := stopDone_par s
  have hs1 : Fair (launched w u (Machine.stopDone s)) :=
    have hl : (launched w u (Machine.stopDone s)).par = s.par := hpar
    ⟨(stopDone_plan s).trans hs.plan, by rw [hl]; exact hs.faults, by rw [hl]; exact hs.engine,
      by rw [hl]; exact hs.params⟩
  exact e1.trans (Reaches.pollStatus hs1 rfl h1 h2 rfl he hti (htp.trans hpar.symm) htl htu
    (by rw [show (launched w u (Machine.stopDone s)).par = s.par from hpar]; exact hv) htv)

/-- `start()` (R162). -/
theorem Reaches.start {code : Lines} {s : State} {u : Nat} (hs : Fair s) (hu : s.upc = u + 1)
    (h0 : code[u]? = some (.ctrl .start)) (h1 : code[u + 1]? = some .poll)
    (h2 : code[u + 2]? = some .status) (hf : EngineFree s ∨ StopPending s) :
    Reaches code 5 s { afterStart s with upc := u + 4 } := by
  have hpar := stopDone_par s
  have hfaults : (Machine.stopDone s).par.busFaults = false := by rw [hpar]; exact hs.faults
  have he := engineStep_start (launched_enabled .start u hfaults) rfl
  by_cases hb : busHeld s = true
  · have hd : Machine.stopDone s = s := stopDone_free (by
      intro h; simp [busHeld, h] at hb)
    have hi : (Machine.stopDone s).phase ≠ .idle := by rw [hd]; intro h; simp [busHeld, h] at hb
    rw [engineStart_held (by exact hi)] at he
    have h := Reaches.op (w := .start) (v := s.par.st.rstart) (by decide) hs hu h0 h1 h2 hf he
      rfl hpar ((stopDone_plan s).trans hs.plan) rfl (by simp [statusList])
      (congrArg (fun p : Params => codeField p.st.rstart) hpar)
    refine Eq.mp (congrArg (Reaches code 5 s) ?_) h
    simp [afterStart, hb, afterOp, launched, ctrlAfter, hd]
  · have hi : (Machine.stopDone s).phase = .idle := by
      unfold Machine.stopDone
      split
      · rfl
      · rename_i h; cases hp : s.phase <;> simp_all [busHeld]
    rw [engineStart_idle (by exact hi)] at he
    have h := Reaches.op (w := .start) (v := s.par.st.start) (by decide) hs hu h0 h1 h2 hf he
      rfl hpar ((stopDone_plan s).trans hs.plan) rfl (by simp [statusList])
      (congrArg (fun p : Params => codeField p.st.start) hpar)
    refine Eq.mp (congrArg (Reaches code 5 s) ?_) h
    simp [afterStart, hb, afterOp, launched, ctrlAfter, hpar]

/-- `stop()` (R163). -/
theorem Reaches.stop {code : Lines} {s : State} {u : Nat} (hs : Fair s) (hu : s.upc = u + 1)
    (h0 : code[u]? = some (.ctrl .stop)) (hf : EngineFree s ∨ StopPending s) :
    Reaches code 2 s { afterStop s with upc := u + 2 } :=
  Reaches.ctrl hs hu h0 hf

/-- `RegWrite(A_TW_DATA, v)` while the flag is set (R68). -/
theorem Reaches.store {code : Lines} {s : State} {u : Nat} {x : Src} (hp : s.plan = []) (hu : s.upc = u + 1)
    (h : code[u]? = some (.store .twData x)) (hi : s.ctrl.int = true) :
    Reaches code 1 s { s with twData := srcVal s x, upc := u + 2 } :=
  Reaches.line (by omega) hp (lineAt_of hu h) (by
    simp only [lineStep, regWrite, hi, if_true, thenNext, goto, hu])

/-- The lines of `tx` from a place of a command on (R164). -/
structure TxAt (code : Lines) (u : Nat) (x : Src) : Prop where
  data : code[u]? = some (.store .twData x)
  ctrl : code[u + 1]? = some (.ctrl .xferNack)
  poll : code[u + 2]? = some .poll
  status : code[u + 3]? = some .status

/-- `tx` of an address byte (R164, R206). -/
theorem Reaches.address {code : Lines} {s : State} {u : Nat} {x : Src} (hs : Fair s) (hu : s.upc = u + 1)
    (hc : TxAt code u x) (hi : s.ctrl.int = true) (hn : s.pending = .none) (hph : s.phase = .startSent) :
    Reaches code 6 s { afterAddress (srcVal s x) s with upc := u + 5 } := by
  have e1 := Reaches.store hs.plan hu hc.data hi
  generalize hb : srcVal s x = b at e1 ⊢
  have hs1 : Fair { s with twData := b, upc := u + 2 } := ⟨hs.plan, hs.faults, hs.engine, hs.params⟩
  have hd : Machine.stopDone { s with twData := b, upc := u + 2 } = { s with twData := b, upc := u + 2 } :=
    stopDone_free (by rw [show ({ s with twData := b, upc := u + 2 } : State).phase = s.phase from rfl, hph]; decide)
  have he := engineStep_address (s := launched .xferNack (u + 1) { s with twData := b, upc := u + 2 })
    (launched_enabled _ _ hs.faults) rfl hph
  rw [engineAddress_eq] at he
  have hack : (drawAck .addr b (launched .xferNack (u + 1) { s with twData := b, upc := u + 2 })).1 =
      (drawAck .addr b s).1 := by apply drawAck_congr <;> rfl
  have he' := (congrArg (fun x => engineStep (launched .xferNack (u + 1) x)) hd).trans he
  have h := Reaches.op (u := u + 1) (w := .xferNack)
    (v := addressStatus s.par.st (byteDir b) (drawAck .addr b s).1) (by decide) hs1 rfl hc.ctrl hc.poll hc.status
    (.inl ⟨hn, by rw [show ({ s with twData := b, upc := u + 2 } : State).phase = s.phase from rfl, hph]; decide⟩)
    he' rfl rfl hs.plan rfl
    (by cases byteDir b <;> cases (drawAck .addr b s).1 <;> simp [addressStatus, statusList])
    (by rw [← hack]; rfl)
  refine Eq.mp (congrArg (Reaches code 6 s) ?_) (e1.trans h)
  simp only [afterAddress, afterOp, ← hack]
  rfl

/-- `tx` of a data byte (R164, R207). -/
theorem Reaches.send {code : Lines} {s : State} {u : Nat} {x : Src} (hs : Fair s) (hu : s.upc = u + 1)
    (hc : TxAt code u x) (hi : s.ctrl.int = true) (hn : s.pending = .none)
    (hph : s.phase = .addrSent ∨ s.phase = .dataSent) (hdir : s.dir = .W) :
    Reaches code 6 s { afterSend (srcVal s x) s with upc := u + 5 } := by
  have e1 := Reaches.store hs.plan hu hc.data hi
  generalize hb : srcVal s x = b at e1 ⊢
  have hs1 : Fair { s with twData := b, upc := u + 2 } := ⟨hs.plan, hs.faults, hs.engine, hs.params⟩
  have hns : s.phase ≠ .stop := by rcases hph with h | h <;> rw [h] <;> decide
  have hd : Machine.stopDone { s with twData := b, upc := u + 2 } = { s with twData := b, upc := u + 2 } :=
    stopDone_free hns
  have he := engineStep_transmit (s := launched .xferNack (u + 1) { s with twData := b, upc := u + 2 })
    (launched_enabled _ _ hs.faults) rfl hph hdir
  rw [engineTransmit_eq] at he
  have hack : (drawAck .data b (launched .xferNack (u + 1) { s with twData := b, upc := u + 2 })).1 =
      (drawAck .data b s).1 := by apply drawAck_congr <;> rfl
  have he' := (congrArg (fun x => engineStep (launched .xferNack (u + 1) x)) hd).trans he
  have h := Reaches.op (u := u + 1) (w := .xferNack)
    (v := txStatus s.par.st (drawAck .data b s).1) (by decide) hs1 rfl hc.ctrl hc.poll hc.status
    (.inl ⟨hn, hns⟩) he' rfl rfl hs.plan rfl
    (by cases (drawAck .data b s).1 <;> simp [txStatus, statusList]) (by rw [← hack]; rfl)
  refine Eq.mp (congrArg (Reaches code 6 s) ?_) (e1.trans h)
  simp only [afterSend, afterOp, ← hack]
  rfl

/-- The lines of `rx` from a place of a command on (R165). -/
structure RxAt (code : Lines) (u : Nat) (more : Bool) : Prop where
  ctrl : code[u]? = some (.ctrl (if more then .xferAck else .xferNack))
  poll : code[u + 1]? = some .poll
  status : code[u + 2]? = some .status
  data : code[u + 3]? = some .takeData

/-- `rx` of a byte (R165, R208). -/
theorem Reaches.receive {code : Lines} {s : State} {u : Nat} {more : Bool} (hs : Fair s) (hu : s.upc = u + 1)
    (hc : RxAt code u more) (hn : s.pending = .none)
    (hph : s.phase = .addrSent ∨ s.phase = .dataReceived) (hdir : s.dir = .R) (hnack : s.nack = false) :
    Reaches code 6 s { afterReceive more s with upc := u + 5 } := by
  have hns : s.phase ≠ .stop := by rcases hph with h | h <;> rw [h] <;> decide
  have he := engineStep_receive (s := launched (if more then .xferAck else .xferNack) u s)
    (launched_enabled _ _ hs.faults) (by cases more <;> rfl) hph hdir hnack
  rw [engineReceive_eq] at he
  have hdata : (drawByte (launched (if more then .xferAck else .xferNack) u s)).1 = (drawByte s).1 := by
    apply drawByte_congr <;> rfl
  have he' := (congrArg (fun x => engineStep (launched (if more then .xferAck else .xferNack) u x))
    (stopDone_free hns)).trans he
  have h := Reaches.op (w := if more then .xferAck else .xferNack)
    (v := if more then s.par.st.dataRxAck else s.par.st.dataRxNack) (by cases more <;> decide) hs hu
    hc.ctrl hc.poll hc.status (.inl ⟨hn, hns⟩) he' rfl rfl hs.plan rfl
    (by cases more <;> simp [statusList]) (by cases more <;> rfl)
  refine Eq.mp (congrArg (Reaches code 6 s) ?_)
    (h.trans (Reaches.line (l := .takeData) (by simp) hs.plan (lineAt_of (u := u + 3) rfl hc.data) rfl))
  simp only [afterReceive, afterOp, ← hdata]
  cases more <;> rfl

end Sys2Proof.Machine
end

