-- ==== Sys2Proof/Machine/Asm.lean ====
section
/-! DEFINITION. The textual form of a command (R105). -/

namespace Sys2Proof

/-- A hexadecimal digit. -/
def hexDigit (n : Nat) : Char := if n < 10 then Char.ofNat (48 + n) else Char.ofNat (55 + n)

/-- A number as so many hexadecimal digits. -/
def hexDigits : Nat → Nat → List Char
  | 0, _ => []
  | k + 1, n => hexDigits k (n / 16) ++ [hexDigit (n % 16)]

/-- A number written with 0x in front (R10). -/
def hexText (k n : Nat) : String := "0x" ++ String.ofList (hexDigits k n)

/-- The register names that stand for an address (R105). -/
def regName : Reg → String
  | .input .B => "INB"
  | .dir .B => "DIRB"
  | .out .B => "OUTB"
  | .input .C => "INC"
  | .dir .C => "DIRC"
  | .out .C => "OUTC"
  | .input .D => "IND"
  | .dir .D => "DIRD"
  | .out .D => "OUTD"
  | .twBitrate => "TWBR"
  | .twStatus => "TWSR"
  | .twData => "TWDR"
  | .twCtrl => "TWCR"

/-- An address: a register's name where it has one. -/
def addrText (par : Params) (a : Byte) : String :=
  match Machine.regAt par a with
  | some r => regName r
  | none => hexText 2 a.toNat

/-- A pin, as in B5. -/
def pinText (p : Port) (n : BitIx) : String :=
  (match p with | .B => "B" | .C => "C" | .D => "D") ++ String.ofList [hexDigit n.toNat]

/-- A register-address width. -/
def sizeText : RegSize → String
  | .w8 => "8"
  | .w16 => "16"

/-- A bit as a digit. -/
def bitText (b : Bool) : String := if b then "1" else "0"

/-- The textual form of a command (R105); the control words have none there and are shown as the bytes written
to `TW_CTRL` by name (R200). -/
def asmText (par : Params) : Instr → String
  | .setbit a b => "SETBIT " ++ addrText par a ++ ", " ++ String.ofList [hexDigit b.toNat]
  | .clrbit a b => "CLRBIT " ++ addrText par a ++ ", " ++ String.ofList [hexDigit b.toNat]
  | .tstbit a b => "TSTBIT " ++ addrText par a ++ ", " ++ String.ofList [hexDigit b.toNat]
  | .cfgpinOut p n _ => "CFGPIN " ++ pinText p n ++ ", OUT"
  | .cfgpinInpu p n => "CFGPIN " ++ pinText p n ++ ", INPU"
  | .cfgpinIn p n => "CFGPIN " ++ pinText p n ++ ", IN"
  | .wrpin p n l => "WRPIN " ++ pinText p n ++ ", " ++ bitText l
  | .tglpin p n => "TGLPIN " ++ pinText p n
  | .rdpin p n => "RDPIN " ++ pinText p n
  | .twstart => "TWSTART"
  | .twstop => "TWSTOP"
  | .twtx v => "TWTX " ++ hexText 2 v.toNat
  | .twrx more => "TWRX " ++ (if more then "ACK" else "NACK")
  | .twrega rsz reg => "TWREGA " ++ hexText 4 reg.toNat ++ ", " ++ sizeText rsz
  | .twwrmem rsz slave n reg =>
    "TWWRMEM " ++ hexText 2 slave.toNat ++ ", " ++ hexText 4 reg.toNat ++ ", " ++ sizeText rsz ++ ", " ++
      hexText 2 n.toNat
  | .twrdmem rsz slave n reg =>
    "TWRDMEM " ++ hexText 2 slave.toNat ++ ", " ++ hexText 4 reg.toNat ++ ", " ++ sizeText rsz ++ ", " ++
      hexText 2 n.toNat
  | .cwStart => "CW_START"
  | .cwStop => "CW_STOP"
  | .cwXferNack => "CW_XFER_NACK"
  | .cwXferAck => "CW_XFER_ACK"

end Sys2Proof
end

