-- ==== Sys2Proof/Tests/Slice0.lean ====
section
/-! SUPPORT. The author's own tests. Expected values are those of 95_test_vectors, by the vector's id, or of the rule
named; `witness_` theorems show that the hypotheses of the obligations can be met, clause by clause. -/

namespace Sys2Proof.Tests

open Sys2Proof.Machine

/-! ### Small states -/

/-- The reset state with a weakly fair engine: the launch of the vectors of 95. -/
def base : State := { State.reset with par := { defaultParams with engine := .fair } }

/-- The reset state with an engine that never steps. -/
def stuck : State := { State.reset with par := { defaultParams with engine := .stuck } }

/-- `base` with the agent `Other` and its turns. -/
def withOther (turns : List Turn) : State :=
  { base with par := { base.par with otherPresent := true }, plan := turns }

/-- `base` with port B holding these. -/
def portB (dir out : Byte) : State := { base with portB := { PortRegs.reset with dir := dir, out := out } }

/-- Pin B5 in a pair, with the neighbours of section 2.1 of 95. -/
def b5 (d l : Bool) : State := portB (0x81 ||| flagAt d 5) (0x42 ||| flagAt l 5)

/-- The bus held, the flag set, in a phase and direction. -/
def held (ph : Phase) (d : Dir) : State :=
  { base with ctrl := { TwCtrl.reset with int := true, en := true }, phase := ph, dir := d }

/-- A stop on its way. -/
def stopping : State :=
  { base with ctrl := { TwCtrl.reset with sto := true, en := true }, phase := .stop, pending := .stop }

/-- An operation launched and not yet done, the engine's turn next. -/
def launchedOp (ph : Phase) (d : Dir) (p : Pending) : State :=
  { base with ctrl := { TwCtrl.reset with en := true }, phase := ph, dir := d, pending := p, plan := [.engine] }

/-- The state an outcome leads to, if it leads to one. -/
def nextOf : Host.Outcome State Fault Refusal → Option State
  | .next s => some s
  | .fault _ => none
  | .refused _ => none

/-- The refusal an outcome is, if it is one. -/
def refusalOf : Host.Outcome State Fault Refusal → Option Refusal
  | .next _ => none
  | .fault _ => none
  | .refused r => some r

/-- What a function shows of the state after an instruction. -/
def after {α : Type} (i : Instr) (s : State) (f : State → α) : Option α := (nextOf (exec i s)).map f

/-- What a function shows of the state after a step. -/
def afterStep {α : Type} (s : State) (f : State → α) : Option α := (nextOf (step s)).map f

/-- A word with its program position, run as the next step. -/
def word (w : Nat) (s : State) : State := s.withFetchWord 40 w

/-! ### Ill-formed terms are refused by `wellFormed` (R61, R71, R86) -/

theorem test_wf_setbit_ok : wellFormed defaultParams (.setbit 0x25 5) = true := by decide
theorem test_wf_setbit_side_effect : wellFormed defaultParams (.setbit 0xBC 5) = false := by decide
theorem test_wf_setbit_unmapped : wellFormed defaultParams (.setbit 0x30 0) = false := by decide
theorem test_wf_clrbit_input : wellFormed defaultParams (.clrbit 0x23 0) = false := by decide
theorem test_wf_clrbit_unmapped : wellFormed defaultParams (.clrbit 0xBA 0) = false := by decide
theorem test_wf_tstbit_ok : wellFormed defaultParams (.tstbit 0xBC 7) = true := by decide
theorem test_wf_tstbit_unmapped : wellFormed defaultParams (.tstbit 0x30 0) = false := by decide
theorem test_wf_twwrmem_length :
    wellFormed { defaultParams with bufSize := 2 } (.twwrmem .w8 0x50 3 0x10) = false := by decide
theorem test_wf_twrdmem_length :
    wellFormed { defaultParams with bufSize := 2 } (.twrdmem .w8 0x50 3 0x10) = false := by decide
theorem test_wf_twrdmem_longest : wellFormed defaultParams (.twrdmem .w8 0x50 255 0x10) = true := by decide

/-! ### Words written out from the spec's encodings -/

theorem test_decode_setbit : (decode 0x0125000005).toOption = some (.setbit 0x25 5) := by decide
theorem test_decode_clrbit : (decode 0x022A000000).toOption = some (.clrbit 0x2A 0) := by decide
theorem test_decode_tstbit : (decode 0x03BC000007).toOption = some (.tstbit 0xBC 7) := by decide
theorem test_decode_cfgpinOut : (decode 0x1000050003).toOption = some (.cfgpinOut .B 5 true) := by decide
theorem test_decode_cfgpinInpu : (decode 0x1002020002).toOption = some (.cfgpinInpu .D 2) := by decide
theorem test_decode_cfgpinIn : (decode 0x1001000000).toOption = some (.cfgpinIn .C 0) := by decide
theorem test_decode_wrpin : (decode 0x1102030001).toOption = some (.wrpin .D 3 true) := by decide
theorem test_decode_tglpin : (decode 0x1202070000).toOption = some (.tglpin .D 7) := by decide
theorem test_decode_rdpin : (decode 0x1300050000).toOption = some (.rdpin .B 5) := by decide
theorem test_decode_twstart : (decode 0x2000000000).toOption = some .twstart := by decide
theorem test_decode_twstop : (decode 0x2100000000).toOption = some .twstop := by decide
theorem test_decode_twtx : (decode 0x22000000A1).toOption = some (.twtx 0xA1) := by decide
theorem test_decode_twrx : (decode 0x2300000001).toOption = some (.twrx true) := by decide
theorem test_decode_twrega : (decode 0x2401001234).toOption = some (.twrega .w16 0x1234) := by decide
theorem test_decode_twrega_short : (decode 0x2400000010).toOption = some (.twrega .w8 0x10) := by decide
theorem test_decode_twwrmem : (decode 0x2850020010).toOption = some (.twwrmem .w8 0x50 2 0x10) := by decide
theorem test_decode_twrdmem : (decode 0x29D0031234).toOption = some (.twrdmem .w16 0x50 3 0x1234) := by
  decide
theorem test_decode_cwStart : decodeTableWord 8 0xA4 = some .cwStart := by decide
theorem test_decode_cwStop : decodeTableWord 8 0x94 = some .cwStop := by decide
theorem test_decode_cwXferNack : decodeTableWord 8 0x84 = some .cwXferNack := by decide
theorem test_decode_cwXferAck : decodeTableWord 8 0xC4 = some .cwXferAck := by decide
theorem test_decode_table_word : decodeTableWord 40 0x1000050001 = some (.cfgpinOut .B 5 false) := by decide

/-- The command a word decodes to, or the reason it is refused for. -/
def reason (w : Cw40) : Option DecodeError :=
  match decode w with
  | .ok _ => none
  | .error e => some e

/-- X1, X2. -/
theorem test_reserved_opcodes :
    [0x0000000000, 0x3000000000, 0xFF00000000, 0x0400000000, 0x1400000000, 0x2500000000,
      0x2A00000000].map reason = List.replicate 7 (some .reservedOpcode) := by decide
/-- X3, X4, X9 to X12. -/
theorem test_reserved_fields_low :
    [0x0125000008, 0x0125010000, 0x1000080001, 0x1000050004, 0x1004050001, 0x1100050002].map reason =
      List.replicate 6 (some .reservedField) := by decide
/-- X13 to X17. -/
theorem test_reserved_fields_high :
    [0x1200050001, 0x1300050001, 0x2000000001, 0x2101000000, 0x2200000100, 0x2300000002,
      0x2402001234].map reason = List.replicate 7 (some .reservedField) := by decide
/-- X8. -/
theorem test_reserved_port : reason 0x1003000001 = some .reservedPort := by decide
/-- R202, R237: `CW_START` with the enable bit off, and with the interrupt enable on. -/
theorem test_control_bytes_refused :
    decodeTableWord 8 0xA0 = none ∧ decodeTableWord 8 0xA5 = none := by decide
/-- R105: the form of the spec's own examples. -/
theorem test_asm_text :
    asmText defaultParams (.twrdmem .w16 0x50 3 0x1234) = "TWRDMEM 0x50, 0x1234, 16, 0x03" := by decide

/-! ### One instruction each -/

/-- B1. -/
theorem test_setbit : after (.setbit 0x25 5) (portB 0 0x81) (fun t => (t.portB.out, t.rsp, t.pc)) =
    some (0xA1, [{ code := 0, data := 0 }], 1) := by decide
/-- B6. -/
theorem test_setbit_bitrate : after (.setbit 0xB8 3) base (·.twBitrate) = some 0x08 := by decide
/-- B2. -/
theorem test_clrbit : after (.clrbit 0x25 0) (portB 0 0xA1) (fun t => (t.portB.out, t.rsp)) =
    some (0xA0, [{ code := 0, data := 0 }]) := by decide
/-- X7, by `CLRBIT`. -/
theorem test_clrbit_input : refusalOf (exec (.clrbit 0x23 0) base) = some .bitopOnSideEffectRegister := by
  decide
/-- B3. -/
theorem test_tstbit : after (.tstbit 0x25 5) (portB 0 0xA0) (·.rsp) = some [{ code := 0, data := 1 }] := by
  decide
/-- X5, by `TSTBIT`. -/
theorem test_tstbit_unmapped : refusalOf (exec (.tstbit 0x30 0) base) = some .unmappedAddress := by decide
/-- G4. -/
theorem test_cfgpinOut : after (.cfgpinOut .B 5 false) (b5 false true) (fun t => (t.portB.dir, t.portB.out)) =
    some (0xA1, 0x42) := by decide
/-- G10. -/
theorem test_cfgpinOut_high : after (.cfgpinOut .B 5 false) (b5 true true) (fun t => (t.portB.dir, t.portB.out)) =
    some (0xA1, 0x62) := by decide
/-- G8. -/
theorem test_cfgpinInpu : after (.cfgpinInpu .B 5) (b5 true false) (fun t => (t.portB.dir, t.portB.out)) =
    some (0x81, 0x62) := by decide
/-- G8, the pin on its way. -/
theorem test_cfgpinInpu_walk : pinWalk (cfgpinInpuLines defaultParams .B 5) (b5 true false) .B 5 =
    [(true, true), (false, true), (false, true)] := by decide
/-- G12. -/
theorem test_cfgpinIn : after (.cfgpinIn .B 5) (b5 true true) (fun t => (t.portB.dir, t.portB.out)) =
    some (0x81, 0x42) := by decide
/-- G12, its count of operations. -/
theorem test_cfgpinIn_count : busOpCount (cfgpinInLines defaultParams .B 5) (b5 true true) = 6 := by decide
/-- G17. -/
theorem test_wrpin : after (.wrpin .D 3 true) base (fun t => (t.portD.out, pinState t .D 3)) =
    some (0x08, .inPullupOn) := by decide
/-- G15. -/
theorem test_wrpin_low : after (.wrpin .B 5 false) (portB 0x20 0x20) (·.portB.out) = some 0x00 := by decide
/-- G18. -/
theorem test_tglpin : after (.tglpin .D 7) { base with portD := { PortRegs.reset with out := 0x81 } }
    (·.portD.out) = some 0x01 := by decide
/-- G20. -/
theorem test_tglpin_twice : (nextOf (execAll [.tglpin .D 7, .tglpin .D 7]
    { base with portD := { PortRegs.reset with out := 0x5A } })).map (·.portD.out) = some 0x5A := by decide
/-- G22, its neighbours outputs too, so that no level is drawn. -/
theorem test_rdpin : after (.rdpin .B 5) (portB 0xFF 0x20) (·.rsp) = some [{ code := 0, data := 1 }] := by
  decide
/-- G24, its neighbours outputs. -/
theorem test_rdpin_driven_low : after (.rdpin .B 0) (setExt .B 0 .L (portB 0xFE 1)) (·.rsp) =
    some [{ code := 0, data := 0 }] := by decide
/-- T1. -/
theorem test_twstart : after .twstart base (fun t => (t.rsp, t.buslog, t.phase, ctrlByte t.par.bits t.ctrl)) =
    some ([{ code := 0x08, data := 0 }], [.start], .startSent, 0xA4) := by decide
/-- T13. -/
theorem test_twstart_after_stop : (nextOf (execAll [.twstop, .twstart] base)).map (·.buslog) =
    some [.stop, .start] := by decide
/-- T8. -/
theorem test_twstop : after .twstop (held .dataReceived .R) (fun t => (t.rsp, t.buslog, t.phase, t.pending)) =
    some ([{ code := 0, data := 0 }], [], .stop, .stop) := by decide
/-- T2. -/
theorem test_twtx : after (.twtx 0xA0) { held .startSent .W with acks := [.ack] }
    (fun t => (t.rsp, t.buslog, t.phase)) =
      some ([{ code := 0x18, data := 0 }], [.addr 0xA0 .ack], .addrSent) := by decide
/-- T18. -/
theorem test_twtx_receives : after (.twtx 0x33) { held .addrSent .R with bytes := [0x77] }
    (fun t => (t.rsp, t.twData)) = some ([{ code := 0x58, data := 0 }], 0x77) := by decide
/-- T6. -/
theorem test_twrx : after (.twrx true) { held .addrSent .R with bytes := [0x5A] }
    (fun t => (t.rsp, t.buslog)) = some ([{ code := 0x50, data := 0x5A }], [.rx 0x5A .ack]) := by decide
/-- T12. -/
theorem test_twrx_hangs : after (.twrx true) base (fun t => (t.rsp, t.pending, t.upc)) = some ([], .xfer, 2) := by
  decide
/-- T9. -/
theorem test_twrega : after (.twrega .w16 0x1234) { held .addrSent .W with acks := [.ack, .ack] }
    (fun t => (t.rsp, t.buslog)) = some ([{ code := 0x28, data := 0 }], [.tx 0x12 .ack, .tx 0x34 .ack]) := by
  decide
/-- T10. -/
theorem test_twrega_nack : after (.twrega .w16 0x1234) { held .addrSent .W with acks := [.nack] }
    (fun t => (t.rsp, t.buslog, t.phase)) = some ([{ code := 0x30, data := 0 }], [.tx 0x12 .nack], .dataSent) := by
  decide
/-- T20. -/
theorem test_twwrmem : after (.twwrmem .w8 0x50 2 0x10)
    { base with buf := [(0, 0xDE), (1, 0xAD)], acks := [.ack, .ack, .ack, .ack] } (fun t => (t.rsp, t.buslog)) =
      some ([{ code := 0, data := 0 }],
        [.start, .addr 0xA0 .ack, .tx 0x10 .ack, .tx 0xDE .ack, .tx 0xAD .ack]) := by decide
/-- T30: the stop is requested although the length is 0. -/
theorem test_twwrmem_absent : after (.twwrmem .w8 0x51 0 0x20)
    { base with par := { base.par with slave := .absent } } (fun t => (t.rsp, t.buslog, t.pending)) =
      some ([{ code := 0x20, data := 0 }], [.start, .addr 0xA2 .nack], .stop) := by decide
/-- The oracle of T27. -/
def oracle27 : MemSlave where
  addr := 0x50
  ptrBytes := 2
  mem := [(0x1234, 0xA1), (0x1235, 0xA2), (0x1236, 0xA3)]
  ackLimit := none

/-- T27. -/
theorem test_twrdmem : after (.twrdmem .w16 0x50 3 0x1234)
    { base with par := { base.par with slave := .mem oracle27 } }
    (fun t => (t.rsp, t.buf)) = some ([{ code := 0, data := 0 }], [(0, 0xA1), (1, 0xA2), (2, 0xA3)]) := by decide
/-- T35: a bus error swallowed, a stray `ST_START`. -/
theorem test_twrdmem_bus_error : after (.twrdmem .w8 0x50 2 0x10)
    { base with par := { base.par with busFaults := true }, outcomes := [.busError, .normal] }
    (fun t => (t.rsp, t.buslog, t.pending)) = some ([{ code := 0x08, data := 0 }], [.stop, .start], .stop) := by
  decide
/-- R201, as a turn of `Other`. -/
theorem test_cwStart : afterStep (State.reset.withFetchWord 8 0xA4) (fun t => (t.pending, ctrlByte t.par.bits t.ctrl)) =
    some (.start, 0x24) := by decide
theorem test_cwStop : after .cwStop base (fun t => (t.pending, t.phase, ctrlByte t.par.bits t.ctrl)) =
    some (.stop, .stop, 0x14) := by decide
theorem test_cwXferNack : after .cwXferNack (held .addrSent .R) (fun t => (t.pending, ctrlByte t.par.bits t.ctrl)) =
    some (.xfer, 0x04) := by decide
theorem test_cwXferAck : after .cwXferAck (held .addrSent .R) (fun t => (t.pending, ctrlByte t.par.bits t.ctrl)) =
    some (.xfer, 0x44) := by decide

/-! ### The step -/

/-- G1 from reset, fetched. -/
theorem test_step_fetches : afterStep (word 0x1000050001 State.reset) (fun t => (t.portB.dir, t.pc, t.cmd)) =
    some (0x20, 1, 0x1000050001) := by decide
/-- X6. -/
theorem test_step_refuses : refusalOf (step (word 0x01BC000005 State.reset)) = some .bitopOnSideEffectRegister := by
  decide
/-- R260: a reset inside a command drops it without a response. -/
theorem test_reset_in_command : afterStep (word 0x1000050001 State.reset) (·.upc) = some 0 ∧
    after (.cfgpinOut .B 5 false) { portB 0 0 with plan := [.seq, .seq, .seq, .seq, .reset] }
      (fun t => (t.rsp, t.pc, t.upc, t.portB.dir)) = some ([], 0, 0, 0x00) := by decide
/-- R34, R266. -/
theorem test_pads : padOut (b5 true false) .B 5 = { oe := true, level := false, pu := false } ∧
    padOut { held .startSent .W with portC := { PortRegs.reset with out := 0x08 } } .C 3 =
      { oe := false, level := true, pu := true } := by decide
/-- I1. -/
theorem test_stale_snapshot : after (.cfgpinOut .B 5 false)
    (withOther [.seq, .seq, .other (.write 0x25 0x20)]) (fun t => pinState t .B 5) = some .outHigh := by decide

/-! ### Witnesses: the hypotheses of the obligations can be met

Each names the obligation and, where it has several clauses, shows a state for each. `completes` says that the
instruction answers a next state there. -/

/-- The instruction answers a next state. -/
def completes (i : Instr) (s : State) : Bool := (nextOf (exec i s)).isSome

/-- The state of `s` with turns planned. -/
def planned (turns : List Turn) (s : State) : State := { s with plan := turns }

theorem witness_DecodeEncodeRoundTrip : paramsOk defaultParams = true := by decide
theorem witness_EncodeOfDecodedWord :
    decodeCode defaultParams (.cw40 0x29D0031234) = .ok (.twrdmem .w16 0x50 3 0x1234) ∧
    decodeCode defaultParams (.twcw 0xC4) = .ok .cwXferAck := ⟨rfl, rfl⟩
theorem witness_OpcodeMapIsTheDecoder :
    opcodeRows.map (fun r => rowSelected r.pattern r) = List.replicate 16 true ∧
    (opcodeRows.map fun r => rowSelected 0x1003000001 r) = List.replicate 16 false := by decide
theorem witness_OperandsAreTheirFields :
    (decode 0x28FFFF1234).toOption = some (.twwrmem .w16 0x7F 0xFF 0x1234) := by decide
theorem witness_ReservedOpcodeRefused :
    fieldOp 0x0400000000 ∉ mbzMasks.map Prod.fst ∧ fieldOp 0xFF00000000 ∉ mbzMasks.map Prod.fst ∧
    (word 0xFF00000000 base).plan = [] ∧ (word 0xFF00000000 base).upc = 0 ∧
    (word 0xFF00000000 base).prog[(word 0xFF00000000 base).pc]? = some 0xFF00000000 := by decide
/-- A must-be-zero bit; port code 3; a word that decodes. -/
theorem witness_ReservedFieldsAndPortRefused :
    ((0x10, 0x00FCF8FFFC) : Byte × Cw40) ∈ mbzMasks ∧ fieldOp 0x1003000004 = 0x10 ∧
    (0x1003000004 : Cw40) &&& 0x00FCF8FFFC ≠ 0 ∧
    (0x1003000003 : Cw40) &&& 0x00FCF8FFFC = 0 ∧ (fieldA 0x1003000003).extractLsb' 0 2 = 3 ∧
    (0x1002070003 : Cw40) &&& 0x00FCF8FFFC = 0 ∧ (fieldA 0x1002070003).extractLsb' 0 2 ≠ 3 ∧
    (word 0x1003000003 base).prog[(word 0x1003000003 base).pc]? = some 0x1003000003 := by decide
theorem witness_ControlBytesAndTheirRefusals :
    paramsOk (withOther []).par = true ∧ (withOther []).par.otherPresent = true ∧
    (∀ w, (0xA5 : Byte) ≠ ctrlWordByte base.par.bits w) ∧ ∀ w, (0x00 : Byte) ≠ ctrlWordByte base.par.bits w :=
  ⟨by decide, by decide, fun w => by cases w <;> decide, fun w => by cases w <;> decide⟩
/-- Idle, busy, a control word of `Other`, the end of a run. -/
theorem witness_StepRunsTheDecodedInstruction :
    ((word 0x2100000000 base).plan = [] ∧ (word 0x2100000000 base).upc = 0 ∧
      (word 0x2100000000 base).prog[(word 0x2100000000 base).pc]? = some 0x2100000000) ∧
    ({ base with upc := 2, cmd := 0x2000000000 }.upc ≠ 0 ∧ decode 0x2000000000 = .ok .twstart) ∧
    (paramsOk (withOther [.other (.write 0xBC 0x94)]).par = true ∧ decodeCtrl base.par.bits 0x94 = .ok .cwStop) ∧
    runEnded base = true ∧ base.plan = [] :=
  ⟨by decide, ⟨by decide, rfl⟩, ⟨by decide, rfl⟩, by decide, by decide⟩
theorem witness_ResetInputResetsEverything :
    (planned [.reset] { held .dataSent .W with upc := 3, pc := 1 }).plan = .reset :: [] := by decide
theorem witness_HostSidePortWritesOneByte :
    Memory.wf base.buf = true ∧ base.upc = 0 ∧ 255 < base.par.bufSize ∧ ¬ 256 < base.par.bufSize := by decide
theorem witness_ControlAndStatusReadBack : paramsOk (held .startSent .W).par = true := by decide
/-- Every register but `TW_CTRL`; `TW_DATA` with the flag at 1 and at 0. -/
theorem witness_RegisterWriteEffects :
    paramsOk (withOther []).par = true ∧ (withOther []).par.otherPresent = true ∧
    (∀ r ∈ allRegs, r ≠ .twCtrl →
      (afterStep (planned [.other (.write (regAddr base.par r) 0xFF)]
        { withOther [] with ctrl := { TwCtrl.reset with int := true } }) fun _ => ()) = some ()) ∧
    refusalOf (step (withOther [.other (.write 0xBB 0xFF)])) = some .dataWriteWhileBusy := by decide
theorem witness_AddressDecode :
    (∀ a ∈ ([0x00, 0x22, 0x2C, 0xBA, 0xBD, 0xFF] : List Byte), ∀ r ∈ allRegs, regAddr base.par r ≠ a) ∧
    (∀ r : Reg, r ∈ allRegs) ∧ base.upc = 0 ∧ base.plan = [] :=
  ⟨by decide, fun r => by rcases r with p | p | p | _ | _ | _ | _ <;> first | decide | (cases p <;> decide), by decide, by decide⟩
/-- Set and clear on a plain-storage register, and on another. -/
theorem witness_BitOperationsOfOther :
    (afterStep (withOther [.other (.bitSet 0x25 7)]) (·.portB.out) = some 0x80) ∧
    (afterStep { withOther [.other (.bitClear 0x25 7)] with portB := (portB 0 0xFF).portB } (·.portB.out) =
      some 0x7F) ∧
    refusalOf (step (withOther [.other (.bitSet 0x23 0)])) = some .bitopOnSideEffectRegister ∧
    refusalOf (step (withOther [.other (.bitClear 0xBB 0)])) = some .bitopOnSideEffectRegister := by decide
/-- No register, a plain-storage register, another register. -/
theorem witness_SetbitClrbitResult :
    base.upc = 0 ∧ base.plan = [] ∧ regAt base.par 0x22 = none ∧ regAt base.par 0x25 = some (.out .B) ∧
    regAt base.par 0x23 = some (.input .B) ∧ completes (.setbit 0x25 7) base = true ∧
    completes (.clrbit 0x25 0) base = true ∧
    completes (.setbit 0x25 7) { base with par := { base.par with bitopAtomic := false } } = true := by decide
theorem witness_TstbitResult :
    base.upc = 0 ∧ base.plan = [] ∧ regAt base.par 0x22 = none ∧ regAt base.par 0xBC = some .twCtrl ∧
    paramsOk base.par = true ∧ base.par.bits.int = 7 ∧ completes (.tstbit 0xBC 7) base = true := by decide
theorem witness_RegisterPrimitiveFrame :
    wellFormed base.par (.setbit 0x25 7) = true ∧ wellFormed base.par (.clrbit 0x24 0) = true ∧
    wellFormed base.par (.tstbit 0xBC 7) = true ∧ regAt base.par 0x25 ≠ some .twBitrate ∧
    regAt base.par 0x25 ≠ some (.dir .B) ∧ regAt base.par 0x25 ≠ some (.out .C) ∧
    completes (.setbit 0x25 7) base = true ∧
    completes (.clrbit 0x24 0) base = true ∧ completes (.tstbit 0xBC 7) base = true := by decide
/-- The four source states of a pin. -/
theorem witness_CfgpinOutResult :
    (∀ d ∈ [true, false], ∀ l ∈ [true, false],
      (b5 d l).upc = 0 ∧ (b5 d l).plan = [] ∧ pinPair (b5 d l) .B 5 = (d, l) ∧
      completes (.cfgpinOut .B 5 true) (b5 d l) = true) := by decide
theorem witness_CfgpinInputResults :
    (∀ d ∈ [true, false], ∀ l ∈ [true, false],
      completes (.cfgpinInpu .B 5) (b5 d l) = true ∧ completes (.cfgpinIn .B 5) (b5 d l) = true) := by decide
theorem witness_CfgpinTransitionTable :
    (b5 true true).par.bitopAtomic = true ∧ pinState (b5 true true) .B 5 = .outHigh ∧
    pinState (b5 true false) .B 5 = .outLow ∧ pinState (b5 false true) .B 5 = .inPullupOn ∧
    pinState (b5 false false) .B 5 = .inPullupOff := by decide
theorem witness_WrpinResult : completes (.wrpin .D 7 true) base = true ∧ completes (.wrpin .D 0 false) base = true := by
  decide
theorem witness_TglpinResult : base.upc = 0 ∧ base.plan = [] ∧ completes (.tglpin .C 7) base = true := by decide
theorem witness_RdpinResult : base.upc = 0 ∧ base.plan = [] ∧ completes (.rdpin .C 7) base = true := by decide
/-- The writing lines of the six commands run. -/
theorem witness_OneBitOfThePinAtATime :
    base.par.bitopAtomic = true ∧ gpioPin (.cfgpinIn .B 5) = some (.B, 5) ∧
    Line.bitSet (.dir .B) 5 ∈ commandLines base.par (.cfgpinIn .B 5) ∧
    lineStep (.bitSet (.dir .B) 5) base = .done (goto 1 { base with portB := { PortRegs.reset with dir := 0x20 } }) := by
  decide
theorem witness_GpioFrame :
    base.plan = [] ∧ base.par.bitopAtomic = true ∧ ((.C, 0) : Port × BitIx) ≠ (.B, 5) ∧
    ∀ i ∈ [Instr.cfgpinOut .B 5 false, .cfgpinInpu .B 5, .cfgpinIn .B 5, .wrpin .B 5 true, .tglpin .B 5, .rdpin .B 5],
      gpioPin i = some (.B, 5) ∧ completes i base = true := by decide
theorem witness_SetstateReachesItsTarget :
    (∀ d ∈ [true, false], ∀ l ∈ [true, false], (b5 d l).upc = 0 ∧ (b5 d l).plan = [] ∧
      ∀ t ∈ [PinState.outLow, .outHigh, .inPullupOn, .inPullupOff],
        (nextOf (execAll (setStateCommands .B 5 t) (b5 d l))).isSome = true) := by decide
/-- A pin of another port; beside the shared pins while the TWI is enabled; a shared pin while it is not. -/
theorem witness_PadsFollowThePair :
    onSharedPad (held .startSent .W) .B 4 = false ∧ onSharedPad (held .startSent .W) .C 3 = false ∧
    onSharedPad (held .startSent .W) .C 6 = false ∧ onSharedPad base .C 4 = false ∧
    onSharedPad (held .startSent .W) .C 4 = true ∧ onSharedPad (held .startSent .W) .C 5 = true := by decide
/-- After the snapshot (0,1), and after another. -/
theorem witness_StaleSnapshotIsFollowed :
    paramsOk (withOther []).par = true ∧ (withOther []).par.bitopAtomic = true ∧
    (∀ d ∈ [true, false], ∀ l ∈ [true, false],
      completes (.cfgpinOut .B 5 false)
        { withOther [.seq, .seq, .other (.write 0x25 0x20)] with portB := (b5 d l).portB } = true) := by decide
/-- I2. -/
theorem witness_TwoStepBitOperationLosesUpdate :
    after (.setbit 0x25 5) { base with
      par := { base.par with otherPresent := true, bitopAtomic := false }
      plan := [.seq, .other (.write 0x25 0x01)] } (·.portB.out) = some 0x20 := by decide
/-- I2, atomic: both orders. -/
theorem witness_AtomicBitOperationKeepsUpdate :
    after (.clrbit 0x25 5) (withOther [.other (.bitSet 0x25 0)]) (·.portB.out) = some 0x01 ∧
    after (.clrbit 0x25 5) (withOther [.seq, .other (.bitSet 0x25 0)]) (·.portB.out) = some 0x01 ∧
    after (.setbit 0x25 5) (withOther [.seq, .other (.bitClear 0x25 0)]) (·.portB.out) = some 0x20 ∧
    after (.setbit 0x25 5) (withOther [.other (.bitSet 0x25 0)]) (·.portB.out) = some 0x21 ∧
    after (.clrbit 0x25 5) (withOther [.seq, .other (.bitClear 0x25 0)]) (·.portB.out) = some 0x00 := by decide
/-- Free, another operation pending, a stop on its way with a fair engine, a stuck one and a free one. -/
theorem witness_ControlWordLaunches :
    EngineFree base ∧ EngineFree (held .dataSent .W) ∧
    (∀ w ∈ [CtrlWord.start, .stop, .xferNack, .xferAck], completes (ctrlInstr w) base = true) ∧
    ((launchedOp .startSent .W .xfer).phase ≠ .stop ∧ (launchedOp .startSent .W .xfer).pending ≠ .none) ∧
    (StopPending stopping ∧ stopping.par.engine = .fair ∧ completes .cwStart stopping = true) ∧
    (StopPending { stopping with par := stuck.par } ∧ stuck.par.engine = .stuck) ∧
    (StopPending { stopping with par := defaultParams } ∧ defaultParams.engine = .free) := by decide
/-- A start from idle, a repeated start, a stop. -/
theorem witness_EngineStartAndStopSteps :
    (∀ s ∈ [launchedOp .idle .W .start, launchedOp .dataSent .W .start, launchedOp .stop .W .stop],
      s.plan = .engine :: [] ∧ s.ctrl.en = true ∧ s.ctrl.int = false ∧ s.par.busFaults = false ∧
      (nextOf (step s)).isSome = true) ∧ (launchedOp .idle .W .start).pending = .start ∧
    (launchedOp .stop .W .stop).pending = .stop := by decide
/-- The address, the two phases of a transmit, the two phases of a receive. -/
theorem witness_EngineTransferSteps :
    ∀ s ∈ [launchedOp .startSent .W .xfer, launchedOp .addrSent .W .xfer, launchedOp .dataSent .W .xfer,
        launchedOp .addrSent .R .xfer, launchedOp .dataReceived .R .xfer],
      s.plan = .engine :: [] ∧ s.ctrl.en = true ∧ s.ctrl.int = false ∧ s.par.busFaults = false ∧
      s.pending = .xfer ∧ s.nack = false := by decide
/-- Each operation, with each of the two outcomes. -/
theorem witness_BusFaultOutcomes :
    ∀ o ∈ [EngineOutcome.arbLost, .busError],
      ∀ s ∈ [launchedOp .idle .W .start, launchedOp .startSent .W .xfer, launchedOp .addrSent .W .xfer,
        launchedOp .dataSent .W .xfer, launchedOp .addrSent .R .xfer, launchedOp .dataReceived .R .xfer],
        (afterStep { s with par := { s.par with busFaults := true }, outcomes := [o] }
          fun t => (t.ctrl.int, t.buslog)) = some (true, []) := by decide
/-- The engine's turn and the two commands, in both phases (T16). -/
theorem witness_TransferAfterReadNackRefused :
    ∀ ph ∈ [Phase.addrSent, .dataReceived],
      refusalOf (step { launchedOp ph .R .xfer with nack := true }) = some .xferAfterReadNack ∧
      QuietFair { held ph .R with nack := true } ∧ (held ph .R).pending = .none ∧ (held ph .R).ctrl.int = true := by
  decide
theorem witness_TransferInIdleHangs :
    ((launchedOp .idle .W .xfer).pending = .xfer ∧ (launchedOp .idle .W .xfer).phase = .idle) ∧
    (base.upc = 0 ∧ base.plan = [] ∧ paramsOk base.par = true ∧ base.phase = .idle ∧ base.pending = .none) ∧
    (planned [] (launchedOp .idle .W .xfer)).ctrl.int = false := by decide
/-- T34. -/
theorem witness_StuckEngineNeverAnswers :
    (paramsOk stuck.par = true ∧ stuck.par.engine = .stuck ∧ EngineFree stuck) ∧
    after .twstart stuck (fun t => (t.upc, t.rsp, ctrlByte t.par.bits t.ctrl)) = some (2, [], 0x24) ∧
    after .twstart { stuck with upc := 2 } (·.rsp) = some [] := by decide
/-- Not held, held, a stop on its way. -/
theorem witness_TwstartResult :
    ∀ s ∈ [base, held .dataSent .W, stopping], TwiReady s ∧ completes .twstart s = true := by decide
theorem witness_TwstopResult :
    (base.upc = 0 ∧ base.plan = [] ∧ EngineFree base) ∧ QuietFair stopping ∧ StopPending stopping ∧
    completes .twstop base = true ∧ completes .twstop stopping = true := by decide
/-- After a start; the two phases of a transmit. -/
theorem witness_TwtxSends :
    ∀ ph ∈ [Phase.startSent, .addrSent, .dataSent],
      XferReady (held ph .W) ∧ (held ph .W).ctrl.int = true ∧
      completes (.twtx 0xA0) { held ph .W with acks := [.nack] } = true := by decide
theorem witness_ReceivingCommands :
    ∀ ph ∈ [Phase.addrSent, .dataReceived],
      XferReady (held ph .R) ∧ (held ph .R).nack = false ∧ (held ph .R).ctrl.int = true ∧
      completes (.twrx false) { held ph .R with bytes := [0x5B] } = true := by decide
/-- T17 and its address form. -/
theorem witness_TwrxSendsStaleData :
    after (.twrx true) { held .addrSent .W with twData := 0xA0, acks := [.ack] } (·.rsp) =
      some [{ code := 0x28, data := 0xA0 }] ∧
    after (.twrx false) { held .startSent .W with twData := 0xA1, acks := [.ack] } (·.rsp) =
      some [{ code := 0x40, data := 0xA1 }] ∧ XferReady (held .dataSent .W) := by decide
/-- Each of the three clauses, in both phases. -/
theorem witness_TwregaResult :
    ∀ ph ∈ [Phase.addrSent, .dataSent],
      XferReady (held ph .W) ∧ (held ph .W).ctrl.int = true ∧ (held ph .W).dir = .W ∧
      completes (.twrega .w8 0xFFFF) { held ph .W with acks := [.nack] } = true ∧
      completes (.twrega .w16 0xFFFF) { held ph .W with acks := [.nack] } = true ∧
      completes (.twrega .w16 0xFFFF) { held ph .W with acks := [.ack, .nack] } = true := by decide
/-- Free, held, a stop on its way; a payload of 0 bytes and one that fills the buffer. -/
theorem witness_TwwrmemRefinesItsProcedure :
    (∀ s ∈ [base, held .dataSent .W, stopping], TwiReady s) ∧ (255 : Byte).toNat ≤ base.par.bufSize ∧
    completes (.twwrmem .w8 0x50 0 0x10) { base with acks := [.ack, .ack] } = true ∧
    completes (.twwrmem .w8 0x50 2 0x10) { stopping with acks := [.ack, .ack, .ack, .ack] } = true := by decide
theorem witness_TwrdmemRefinesItsProcedure :
    TwiReady base ∧ completes (.twrdmem .w8 0x50 0 0x10) { base with acks := [.ack, .ack, .ack] } = true ∧
    completes (.twrdmem .w8 0x50 1 0x10) { stopping with acks := [.ack, .ack, .ack], bytes := [0x11] } = true := by
  decide
/-- T33's kind of entry, T22, T26, T20, and a length of 0. -/
theorem witness_TwwrmemBusEvents :
    busHeld (held .dataSent .W) = true ∧ TwiReady (held .dataSent .W) ∧ busHeld base = false ∧ TwiReady base ∧
    2 < (regBytes .w8 0x10 ++ payload base 3).length ∧
    ([.ack, .ack, .ack, .nack] : List Ack) = List.replicate (1 + 2) .ack ++ .nack :: [] ∧
    ([.ack, .ack, .ack, .ack] : List Ack) =
      List.replicate (1 + (regBytes .w8 0x10 ++ payload base 2).length) .ack ++ [] ∧
    after (.twwrmem .w8 0x50 0 0x20) { base with acks := [.ack, .ack] } (fun t => (t.phase, t.ctrl.int)) =
      some (.dataSent, true) := by decide
/-- T21, T33, T29, T24's kind, and a NACK of the read address. -/
theorem witness_TwrdmemOutcomes :
    base.par.twOk ∉ [base.par.st.rstart, base.par.st.slawNack, base.par.st.dataTxNack] ∧ BufOk base ∧
    TwiReady base ∧ TwiReady (held .startSent .W) ∧ busHeld (held .startSent .W) = true ∧ busHeld base = false ∧
    after (.twrdmem .w8 0x50 2 0x10) { base with acks := List.replicate (2 + 1) .ack, bytes := [0x11, 0x22] }
      (·.buf) = some [(0, 0x11), (1, 0x22)] ∧
    after (.twrdmem .w16 0x50 2 0x10) { base with acks := List.replicate (1 + 1) .ack ++ .nack :: [] } (·.rsp) =
      some [{ code := 0x30, data := 0 }] ∧
    after (.twrdmem .w8 0x50 2 0x10) { base with acks := List.replicate (1 + 1) .ack ++ .nack :: [] } (·.rsp) =
      some [{ code := 0x48, data := 0 }] := by decide
/-- T11, a payload one byte too long, an operation pending. -/
theorem witness_TwiCommandsRefusedAtEntry :
    (base.upc = 0 ∧ base.plan = [] ∧ base.ctrl.int = false) ∧
    { base.par with bufSize := 2 }.bufSize < (3 : Byte).toNat ∧
    (planned [] (launchedOp .startSent .W .xfer)).phase ≠ .stop ∧
    refusalOf (exec .twstop (planned [] (launchedOp .startSent .W .xfer))) = some .ctrlWriteWhilePending := by decide
theorem witness_TwiFrame :
    ∀ i ∈ [Instr.twstart, .twstop, .twrx true, .cwStart, .cwStop, .cwXferNack, .cwXferAck],
      isTwi i = true ∧ base.plan = [] ∧ completes i base = true := by decide
theorem witness_TwrdmemStoresInsideItsPayload :
    base.upc = 0 ∧ base.plan = [] ∧ (2 : Byte).toNat ≤ 2 ∧
    after (.twrdmem .w8 0x50 2 0x10)
      { base with acks := [.ack, .ack, .ack], bytes := [0x11, 0x22], buf := [(2, 0x77)] } (bufRead 2) =
      some 0x77 := by decide
theorem witness_OnlyTheEngineSetsTheFlag :
    lineStep (.ctrl .start) base = .done (goto 1 { base with ctrl := ctrlAfter base .start false, pending := .start }) ∧
    EngineOk (held .dataSent .W) ∧ Turn.pad .B 0 .H ≠ .engine ∧
    agentTurn (.pad .B 0 .H) (held .dataSent .W) = .done (setExt .B 0 .H (held .dataSent .W)) := by decide
/-- With the engine's turn, from every operation, and with a command. -/
theorem witness_StepKeepsTheInvariant :
    (∀ s ∈ [launchedOp .idle .W .start, launchedOp .startSent .W .xfer,
        planned [.engine] stopping, word 0x2000000000 base],
      Inv s ∧ (nextOf (step { s with acks := [.ack] })).isSome = true) := by decide
theorem witness_StepNeverFaults :
    lineOk (word 0x2000000000 base) = true ∧
    lineOk { stuck with upc := 2, cmd := 0x2000000000 } = true ∧
    lineOk { stuck with upc := 5, cmd := 0x2000000000 } = false := by decide
theorem witness_OneResponsePerCommand :
    noReset (word 0x2000000000 base) = true ∧ (nextOf (step (word 0x2000000000 base))).isSome = true := by decide

end Sys2Proof.Tests
end

/-! SUPPORT. The position of the sequencer (R28, R29) through every line and every turn, the jumps inside each command's
pseudocode, and from them the safety of a step (R15, R230); which instruction a step runs (R26); the pads (R34). -/

section
namespace Sys2Proof.Machine

/-! ### What an operation leaves of the sequencer's position -/

/-- The command and the parameters are the same, and the sequencer stands at most `k` lines further on. -/
structure MovesAtMost (k : Nat) (s t : State) : Prop where
  par : t.par = s.par
  cmd : t.cmd = s.cmd
  upc : t.upc ≤ s.upc + k

theorem MovesAtMost.refl (s : State) : MovesAtMost 0 s s := ⟨rfl, rfl, le_rfl⟩

theorem MovesAtMost.trans {j k : Nat} {s t u : State} (h : MovesAtMost j s t) (h' : MovesAtMost k t u) :
    MovesAtMost (j + k) s u :=
  ⟨h'.par.trans h.par, h'.cmd.trans h.cmd, by have := h.upc; have := h'.upc; omega⟩

theorem goto_movesAtMost (k : Nat) (s : State) : MovesAtMost k s (goto k s) := ⟨rfl, rfl, le_rfl⟩

/-- Whatever state an attempt leaves, done or held, satisfies `P`. -/
def Attempt.Leaves (P : State → Prop) : Attempt → Prop
  | .done s => P s
  | .held s => P s
  | .refused _ => True

theorem Attempt.Leaves.mono {P Q : State → Prop} {a : Attempt} (h : a.Leaves P) (hPQ : ∀ s, P s → Q s) :
    a.Leaves Q := by
  cases a with
  | done s => exact hPQ s h
  | held s => exact hPQ s h
  | refused r => trivial

theorem setPort_movesAtMost (s : State) (p : Port) (r : PortRegs) : MovesAtMost 0 s (setPort s p r) := by
  refine ⟨?_, ?_, ?_⟩ <;> simp

theorem regRead_movesAtMost (r : Reg) (s : State) : MovesAtMost 0 s (regRead r s).2 := by
  cases r <;> exact ⟨rfl, rfl, le_rfl⟩

theorem ctrlWrite_leaves (w : CtrlWord) (s : State) : (ctrlWrite w s).Leaves (MovesAtMost 0 s) := by
  rcases ctrlWrite_cases w s with ⟨-, h⟩ | ⟨-, -, h⟩ | ⟨-, h⟩ <;> rw [h]
  · exact .refl s
  · trivial
  · exact ⟨rfl, rfl, le_rfl⟩

theorem regWrite_leaves (r : Reg) (v : Byte) (s : State) : (regWrite r v s).Leaves (MovesAtMost 0 s) := by
  cases r with
  | input p => exact setPort_movesAtMost s p _
  | dir p => exact setPort_movesAtMost s p _
  | out p => exact setPort_movesAtMost s p _
  | twBitrate => exact ⟨rfl, rfl, le_rfl⟩
  | twStatus => exact ⟨rfl, rfl, le_rfl⟩
  | twData =>
    simp only [regWrite]
    split
    · exact ⟨rfl, rfl, le_rfl⟩
    · trivial
  | twCtrl =>
    simp only [regWrite]
    split
    · exact ctrlWrite_leaves _ s
    · trivial

theorem bitSetReg_leaves (r : Reg) (b : BitIx) (s : State) : (bitSetReg r b s).Leaves (MovesAtMost 0 s) := by
  unfold bitSetReg
  split
  · exact regWrite_leaves r _ s
  · trivial

theorem bitClearReg_leaves (r : Reg) (b : BitIx) (s : State) : (bitClearReg r b s).Leaves (MovesAtMost 0 s) := by
  unfold bitClearReg
  split
  · exact regWrite_leaves r _ s
  · trivial

/-! ### The engine and the other agents leave the sequencer's position alone -/

theorem engineStart_movesAtMost (s : State) : MovesAtMost 0 s (engineStart s) := by
  by_cases h : s.phase = .idle
  · rw [engineStart_idle h]; exact ⟨rfl, rfl, le_rfl⟩
  · rw [engineStart_held h]; exact ⟨rfl, rfl, le_rfl⟩

theorem engineAddress_movesAtMost (s : State) : MovesAtMost 0 s (engineAddress s) := by
  rw [engineAddress_eq]; exact ⟨rfl, rfl, le_rfl⟩

theorem engineTransmit_movesAtMost (s : State) : MovesAtMost 0 s (engineTransmit s) := by
  rw [engineTransmit_eq]; exact ⟨rfl, rfl, le_rfl⟩

theorem engineReceive_movesAtMost (s : State) : MovesAtMost 0 s (engineReceive s) := by
  rw [engineReceive_eq]; exact ⟨rfl, rfl, le_rfl⟩

theorem engineArbLost_movesAtMost (s : State) : MovesAtMost 0 s (engineArbLost s) := ⟨rfl, rfl, le_rfl⟩

theorem engineBusError_movesAtMost (s : State) : MovesAtMost 0 s (engineBusError s) := ⟨rfl, rfl, le_rfl⟩

theorem engineStop_movesAtMost (s : State) : MovesAtMost 0 s (engineStop s) := ⟨rfl, rfl, le_rfl⟩

/-- The bus faults of R212 keep the position if the normal outcome does. -/
theorem withFaults_movesAtMost {f : State → State} (hf : ∀ s, MovesAtMost 0 s (f s)) (s : State) :
    MovesAtMost 0 s (withFaults f s) := by
  rcases withFaults_cases f s with h | ⟨s1, hs1, h⟩
  · rw [h]; exact hf s
  · have hdraw : MovesAtMost 0 s s1 := by rw [hs1]; exact ⟨rfl, rfl, le_rfl⟩
    rcases h with h | h | h <;> rw [h]
    · exact hdraw.trans (hf s1)
    · exact hdraw.trans (engineArbLost_movesAtMost s1)
    · exact hdraw.trans (engineBusError_movesAtMost s1)

theorem engineStep_leaves (s : State) : (engineStep s).Leaves (MovesAtMost 0 s) := by
  cases h : engineStep s with
  | done t =>
    obtain ⟨-, -, hstep⟩ := engineStep_cases h
    rcases hstep with ⟨-, rfl⟩ | ⟨-, rfl⟩ | ⟨-, -, rfl⟩ | ⟨-, -, -, rfl⟩ | ⟨-, -, -, -, rfl⟩
    · exact withFaults_movesAtMost engineStart_movesAtMost s
    · exact engineStop_movesAtMost s
    · exact withFaults_movesAtMost engineAddress_movesAtMost s
    · exact withFaults_movesAtMost engineTransmit_movesAtMost s
    · exact withFaults_movesAtMost engineReceive_movesAtMost s
  | held t => rw [engineStep_held h]; exact .refl s
  | refused r => trivial

theorem engineChance_leaves (s : State) : (engineChance s).Leaves (MovesAtMost 0 s) := by
  have hdraw : MovesAtMost 0 s { s with draws := s.draws + 1 } := ⟨rfl, rfl, le_rfl⟩
  rcases engineChance_cases s with h | h | h | h <;> rw [h]
  · exact engineStep_leaves s
  · exact .refl s
  · exact (engineStep_leaves _).mono fun _ => hdraw.trans
  · exact hdraw

theorem ctrlWriteWaiting_leaves (w : CtrlWord) (s : State) :
    (ctrlWriteWaiting w s).Leaves (MovesAtMost 0 s) := by
  have hw := ctrlWrite_leaves w s
  unfold ctrlWriteWaiting
  split
  next s1 h1 =>
    rw [h1] at hw
    have hc := engineChance_leaves s1
    split
    next s2 h2 =>
      rw [h2] at hc
      exact (ctrlWrite_leaves w s2).mono fun _ => (MovesAtMost.trans hw hc).trans
    next s2 h2 => rw [h2] at hc; exact MovesAtMost.trans hw hc
    next => trivial
  next s1 h1 => rw [h1] at hw; exact hw
  next => trivial

theorem busOp_leaves (op : BusOp) (s : State) : (busOp op s).Leaves (MovesAtMost 0 s) := by
  cases op with
  | read a =>
    simp only [busOp]
    split
    · trivial
    · exact regRead_movesAtMost _ s
  | write a v =>
    simp only [busOp]
    split
    · trivial
    · split
      · exact ctrlWriteWaiting_leaves _ s
      · trivial
    · exact regWrite_leaves _ v s
  | bitSet a b =>
    simp only [busOp]
    split
    · trivial
    · exact bitSetReg_leaves _ b s
  | bitClear a b =>
    simp only [busOp]
    split
    · trivial
    · exact bitClearReg_leaves _ b s

theorem orPass_leaves {P : State → Prop} {a : Attempt} (h : a.Leaves P) : (orPass a).Leaves P := by
  cases a <;> exact h

/-- The turn of another agent keeps the sequencer's position, or is a reset, which drops the command (R260). -/
theorem agentTurn_leaves (a : Turn) (s : State) :
    (agentTurn a s).Leaves fun t => MovesAtMost 0 s t ∨ (t.par = s.par ∧ t.upc = 0) := by
  cases a with
  | seq => exact .inl (.refl s)
  | engine => exact (orPass_leaves (engineStep_leaves s)).mono fun _ => .inl
  | pad p n e => exact .inl (setPort_movesAtMost s p _)
  | other op =>
    simp only [agentTurn]
    split
    · exact (orPass_leaves (busOp_leaves op s)).mono fun _ => .inl
    · exact .inl (.refl s)
  | host i v =>
    simp only [agentTurn]
    split
    · exact .inl ⟨rfl, rfl, le_rfl⟩
    · exact .inl (.refl s)
  | reset => exact .inr ⟨rfl, rfl⟩

/-! ### How far a line of pseudocode leads -/

/-- How many lines further on a line may lead; 0 for a line that ends the command or goes back. -/
def Line.reach : Line → Nat
  | .branch _ k | .skip k => k + 1
  | .back _ | .respond _ _ | .refuse _ => 0
  | .snapD _ _ | .snapL _ _ | .bitSet _ _ | .bitClear _ _ | .fetch _ | .putSet _ _ | .putClear _ _
  | .load _ | .store _ _ | .ctrl _ | .poll | .status | .takeData | .putBuf | .clearCnt | .incCnt => 1

theorem thenNext_leaves {a : Attempt} {s : State} (h : a.Leaves (MovesAtMost 0 s)) :
    (thenNext a).Leaves (MovesAtMost 1 s) := by
  cases a with
  | done t => exact MovesAtMost.trans h (goto_movesAtMost 1 t)
  | held t => exact ⟨h.par, h.cmd, Nat.le_succ_of_le h.upc⟩
  | refused r => trivial

theorem lineStep_leaves (l : Line) (s : State) : (lineStep l s).Leaves (MovesAtMost l.reach s) := by
  cases l with
  | snapD p n => exact ⟨rfl, rfl, le_rfl⟩
  | snapL p n => exact ⟨rfl, rfl, le_rfl⟩
  | bitSet r b => exact thenNext_leaves (bitSetReg_leaves r b s)
  | bitClear r b => exact thenNext_leaves (bitClearReg_leaves r b s)
  | fetch r =>
    simp only [lineStep]
    split
    · have h := regRead_movesAtMost r s
      exact ⟨h.par, h.cmd, Nat.succ_le_succ h.upc⟩
    · trivial
  | putSet r b => exact thenNext_leaves (regWrite_leaves r _ s)
  | putClear r b => exact thenNext_leaves (regWrite_leaves r _ s)
  | load r =>
    have h := regRead_movesAtMost r s
    exact ⟨h.par, h.cmd, Nat.succ_le_succ h.upc⟩
  | store r v => exact thenNext_leaves (regWrite_leaves r _ s)
  | ctrl w => exact thenNext_leaves (ctrlWrite_leaves w s)
  | poll =>
    simp only [lineStep]
    split
    · exact goto_movesAtMost 1 s
    · exact ⟨rfl, rfl, Nat.le_succ _⟩
  | status => exact ⟨rfl, rfl, le_rfl⟩
  | takeData => exact ⟨rfl, rfl, le_rfl⟩
  | putBuf =>
    simp only [lineStep]
    split
    · exact ⟨rfl, rfl, le_rfl⟩
    · trivial
  | clearCnt => exact ⟨rfl, rfl, le_rfl⟩
  | incCnt => exact ⟨rfl, rfl, le_rfl⟩
  | branch c k =>
    refine ⟨rfl, rfl, ?_⟩
    simp only [goto_upc, Line.reach]
    split <;> omega
  | skip k => exact goto_movesAtMost (k + 1) s
  | back k => exact ⟨rfl, rfl, Nat.sub_le _ _⟩
  | respond c d => exact ⟨rfl, rfl, Nat.zero_le _⟩
  | refuse r => trivial

/-! ### Pseudocode whose jumps stay inside -/

/-- No line leads past the end of `code` and the `m` lines that come after it. -/
def ClosedWith (m : Nat) : Lines → Prop
  | [] => True
  | l :: rest => l.reach ≤ rest.length + m ∧ ClosedWith m rest

@[simp] theorem closedWith_nil (m : Nat) : ClosedWith m [] := trivial

@[simp] theorem closedWith_cons (m : Nat) (l : Line) (rest : Lines) :
    ClosedWith m (l :: rest) ↔ l.reach ≤ rest.length + m ∧ ClosedWith m rest := Iff.rfl

@[simp] theorem closedWith_append (m : Nat) (a b : Lines) :
    ClosedWith m (a ++ b) ↔ ClosedWith (b.length + m) a ∧ ClosedWith m b := by
  induction a with
  | nil => simp
  | cons l rest ih => simp [ih, and_assoc, Nat.add_assoc]

theorem ClosedWith.mono {m n : Nat} {code : Lines} (h : ClosedWith m code) (hmn : m ≤ n) : ClosedWith n code := by
  induction code with
  | nil => trivial
  | cons l rest ih =>
    obtain ⟨hl, hrest⟩ := h
    exact ⟨by omega, ih hrest⟩

/-- Where the line at an index leads, the code has a line. -/
theorem ClosedWith.reach_le {m : Nat} {code : Lines} (h : ClosedWith m code) {u : Nat} {l : Line}
    (hl : code[u]? = some l) : u + 1 + l.reach ≤ code.length + m := by
  induction code generalizing u with
  | nil => simp at hl
  | cons l' rest ih =>
    obtain ⟨hl', hrest⟩ := h
    cases u with
    | zero =>
      obtain rfl : l' = l := by simpa using hl
      simp only [List.length_cons]; omega
    | succ u =>
      have := ih hrest (u := u) (by simpa using hl)
      simp only [List.length_cons]; omega

/-- Fragments that lead at most to the line after them, one after the other. -/
theorem ClosedWith.append {a b : Lines} (ha : ClosedWith 1 a) (hb : ClosedWith 1 b) : ClosedWith 1 (a ++ b) :=
  (closedWith_append ..).mpr ⟨ha.mono (by omega), hb⟩

theorem closedWith_ifThen {m : Nat} (c : Cond) {body : Lines} (hm : 1 ≤ m) (hb : ClosedWith m body) :
    ClosedWith m (ifThen c body) :=
  ⟨by simp only [Line.reach]; omega, hb⟩

theorem closedWith_ifElse {m : Nat} (c : Cond) {body other : Lines} (hm : 1 ≤ m)
    (hb : ClosedWith 1 body) (ho : ClosedWith m other) : ClosedWith m (ifElse c body other) := by
  simp only [ifElse, closedWith_cons, closedWith_append, Line.reach, List.length_append, List.length_cons]
  exact ⟨by omega, hb.mono (by omega), by omega, ho⟩

theorem closedWith_whileLoop {m : Nat} (c : Cond) {body : Lines} (hm : 1 ≤ m) (hb : ClosedWith (m + 1) body) :
    ClosedWith m (whileLoop c body) := by
  simp only [whileLoop, closedWith_cons, closedWith_append, Line.reach, List.length_append, List.length_singleton,
    closedWith_nil, and_true]
  exact ⟨by omega, hb.mono (by omega), Nat.zero_le _⟩

theorem closedWith_snapshotLines (p : Port) (n : BitIx) : ClosedWith 1 (snapshotLines p n) := by
  simp [snapshotLines, Line.reach]

theorem closedWith_bitSetLines (par : Params) (r : Reg) (b : BitIx) : ClosedWith 1 (bitSetLines par r b) := by
  unfold bitSetLines; split <;> simp [Line.reach]

theorem closedWith_bitClearLines (par : Params) (r : Reg) (b : BitIx) : ClosedWith 1 (bitClearLines par r b) := by
  unfold bitClearLines; split <;> simp [Line.reach]

theorem closedWith_startLines : ClosedWith 1 startLines := by simp [startLines, Line.reach]

theorem closedWith_stopLines : ClosedWith 1 stopLines := by simp [stopLines, Line.reach]

theorem closedWith_txLines (v : Src) : ClosedWith 1 (txLines v) := by simp [txLines, Line.reach]

theorem closedWith_rxLines (more : Bool) : ClosedWith 1 (rxLines more) := by simp [rxLines, Line.reach]

theorem closedWith_regaLines (par : Params) (rsz : RegSize) (reg : BitVec 16) :
    ClosedWith 1 (regaLines par rsz reg) := by
  cases rsz with
  | w8 => exact closedWith_txLines _
  | w16 =>
    refine (closedWith_append ..).mpr ⟨(closedWith_txLines _).mono (by omega), ?_⟩
    exact closedWith_ifElse _ le_rfl (closedWith_nil 1) (closedWith_txLines _)

/-! ### Complete pseudocode -/

/-- Pseudocode a sequencer can run from its first line without ever leaving it. -/
structure CompleteLines (code : Lines) : Prop where
  nonempty : 1 ≤ code.length
  closed : ClosedWith 0 code

/-- Pieces of pseudocode, then a line that ends the command. -/
theorem completeLines_concat {body : Lines} {l : Line} (hb : ClosedWith 1 body) (hl : l.reach = 0) :
    CompleteLines (body ++ [l]) where
  nonempty := by simp
  closed := by simpa [hl] using hb

theorem completeLines_refuse (r : Refusal) : CompleteLines [.refuse r] :=
  completeLines_concat (body := []) (closedWith_nil 1) rfl

/-! ### The transactions -/

/-- The abort of a failed step stays inside, if it is given how many lines of `wrmem` come after it and `m` lines
come after those. -/
def FailsInside (m : Nat) (fail : OnFail) : Prop := ∀ k, ClosedWith (k + m) (fail k)

theorem failsInside_abortAndRespond (m : Nat) : FailsInside m abortAndRespond := fun k => by
  simp only [abortAndRespond, stopLines, respondStatus, List.singleton_append, closedWith_cons, closedWith_nil,
    Line.reach, List.length_cons, List.length_nil, and_true]
  omega

theorem failsInside_abortInside {m : Nat} (par : Params) (hm : 1 ≤ m) : FailsInside m (abortInside par) := fun k => by
  simp only [abortInside, stopLines, respondStatus, ifThen, List.cons_append, List.nil_append, closedWith_cons,
    closedWith_nil, Line.reach, List.length_cons, List.length_nil, and_true]
  omega

theorem closedWith_expect {m : Nat} (v : Byte) {fail : OnFail} {rest : Lines} (hf : FailsInside m fail)
    (hr : ClosedWith m rest) (hm : 1 ≤ rest.length + m) : ClosedWith m (expect v fail rest) :=
  (closedWith_append ..).mpr ⟨closedWith_ifThen _ hm (hf _), hr⟩

theorem one_le_length_step (v : Byte) (proc : Lines) (fail : OnFail) (rest : Lines) :
    1 ≤ (proc ++ expect v fail rest).length := by
  simp only [expect, ifThen, List.length_append, List.length_cons]; omega

/-- A procedure, then a check of its status, then the rest: the shape of each step of a transaction (R168). -/
theorem closedWith_step {m : Nat} (v : Byte) {proc : Lines} {fail : OnFail} {rest : Lines} (hp : ClosedWith 1 proc)
    (hf : FailsInside m fail) (hr : ClosedWith m rest) (hm : 1 ≤ rest.length + m) :
    ClosedWith m (proc ++ expect v fail rest) := by
  have hlen := one_le_length_step v [] fail rest
  rw [List.nil_append] at hlen
  exact (closedWith_append ..).mpr ⟨hp.mono (by omega), closedWith_expect v hf hr hm⟩

theorem closedWith_sendPayload {m : Nat} (par : Params) (length : Byte) {fail : OnFail} {rest : Lines}
    (hf : FailsInside m fail) (hr : ClosedWith m rest) (hm : 1 ≤ rest.length + m) :
    ClosedWith m (sendPayload par length fail rest) := by
  refine ⟨?_, (closedWith_append ..).mpr ⟨closedWith_whileLoop _ hm ?_, hr⟩⟩
  · simp only [whileLoop, Line.reach, List.length_append, List.length_cons]; omega
  · simp only [closedWith_append, closedWith_cons, closedWith_nil, and_true, List.length_cons, List.length_nil,
      Line.reach]
    refine ⟨⟨(closedWith_txLines _).mono (by omega), ?_⟩, by omega⟩
    exact closedWith_ifThen _ (by omega) ((hf (rest.length + 2)).mono (by omega))

theorem one_le_length_sendPayload (par : Params) (length : Byte) (fail : OnFail) (rest : Lines) :
    1 ≤ (sendPayload par length fail rest).length := by
  simp only [sendPayload, List.length_cons]; omega

theorem closedWith_wrmemLines {m : Nat} (par : Params) (rsz : RegSize) (slave : BitVec 7) (length : Byte)
    (reg : BitVec 16) {fail : OnFail} {rest : Lines} (hf : FailsInside m fail) (hr : ClosedWith m rest)
    (hm : 1 ≤ rest.length + m) : ClosedWith m (wrmemLines par rsz slave length reg fail rest) := by
  refine closedWith_step _ closedWith_startLines hf ?_ (Nat.le_add_right_of_le (one_le_length_step ..))
  refine closedWith_step _ (closedWith_txLines _) hf ?_ (Nat.le_add_right_of_le (one_le_length_step ..))
  exact closedWith_step _ (closedWith_regaLines par rsz reg) hf (closedWith_sendPayload par length hf hr hm)
    (Nat.le_add_right_of_le (one_le_length_sendPayload ..))

theorem closedWith_receiveLoop (par : Params) (length : Byte) : ClosedWith 1 (receiveLoop par length) := by
  have hrx : ∀ (more : Bool) (v : Byte),
      ClosedWith 1 (rxLines more ++ ifThen (.stIsNot v) (abortAndRespond 0)) := fun more v =>
    (closedWith_rxLines more).append (closedWith_ifThen _ le_rfl (failsInside_abortAndRespond 1 0))
  refine closedWith_whileLoop _ le_rfl (ClosedWith.mono (m := 1) (.append ?_ ?_) (by omega))
  · exact closedWith_ifElse _ le_rfl (hrx true _) (hrx false _)
  · simp [Line.reach]

theorem closedWith_readPhase (par : Params) (slave : BitVec 7) (length : Byte) :
    ClosedWith 0 (readPhase par slave length) := by
  have hf := failsInside_abortAndRespond 0
  have hlast : ClosedWith 0 (receiveLoop par length ++ stopLines ++ [respondOk par]) :=
    (completeLines_concat ((closedWith_receiveLoop par length).append closedWith_stopLines) rfl).closed
  refine closedWith_step _ closedWith_startLines hf ?_ (Nat.le_add_right_of_le (one_le_length_step ..))
  refine closedWith_step _ (closedWith_txLines _) hf ⟨?_, hlast⟩ (Nat.succ_le_succ (Nat.zero_le _))
  simp only [Line.reach, List.length_append, List.length_cons]; omega

/-! ### Every command is complete -/

theorem completeLines_atAddress {par : Params} {a : Byte} {f : Reg → Lines} (hf : ∀ r, CompleteLines (f r)) :
    CompleteLines (atAddress par a f) := by
  unfold atAddress
  split
  · exact completeLines_refuse _
  · exact hf _

theorem completeLines_ifFits {par : Params} {length : Byte} {code : Lines} (h : CompleteLines code) :
    CompleteLines (ifFits par length code) := by
  unfold ifFits
  split
  · exact h
  · exact completeLines_refuse _

theorem completeLines_twwrmem (par : Params) (rsz : RegSize) (slave : BitVec 7) (length : Byte) (reg : BitVec 16) :
    CompleteLines (twwrmemLines par rsz slave length reg) := by
  have hrest : CompleteLines (stopIfPayload length ++ [respondOk par]) := by
    refine completeLines_concat ?_ rfl
    unfold stopIfPayload
    split
    · exact closedWith_nil 1
    · exact closedWith_stopLines
  exact completeLines_ifFits ⟨one_le_length_step .., closedWith_wrmemLines par rsz slave length reg
    (failsInside_abortAndRespond 0) hrest.closed hrest.nonempty⟩

theorem completeLines_twrdmem (par : Params) (rsz : RegSize) (slave : BitVec 7) (length : Byte) (reg : BitVec 16) :
    CompleteLines (twrdmemLines par rsz slave length reg) := by
  have hlen : 1 ≤ (readPhase par slave length).length := one_le_length_step ..
  refine completeLines_ifFits ⟨?_, (closedWith_append ..).mpr ⟨?_, closedWith_readPhase par slave length⟩⟩
  · rw [List.length_append]; omega
  · exact closedWith_wrmemLines par rsz slave 0 reg (failsInside_abortInside par hlen) (closedWith_nil _)
      (by rw [List.length_nil]; omega)

/-- Every command of R97 is complete; a control word has no lines. -/
theorem commandLines_complete (par : Params) {i : Instr} (hi : isCtrlWord i = false) :
    CompleteLines (commandLines par i) := by
  cases i with
  | setbit a b =>
    exact completeLines_atAddress fun r => completeLines_concat (closedWith_bitSetLines par r b) rfl
  | clrbit a b =>
    exact completeLines_atAddress fun r => completeLines_concat (closedWith_bitClearLines par r b) rfl
  | tstbit a b =>
    exact completeLines_atAddress fun r => completeLines_concat (body := [.load r]) ⟨le_rfl, trivial⟩ rfl
  | cfgpinOut p n pu =>
    exact completeLines_concat (((closedWith_snapshotLines p n).append
      (closedWith_ifThen _ le_rfl (closedWith_bitClearLines ..))).append (closedWith_bitSetLines ..)) rfl
  | cfgpinInpu p n =>
    exact completeLines_concat ((((closedWith_snapshotLines p n).append
      (closedWith_ifThen _ le_rfl (closedWith_bitSetLines ..))).append (closedWith_bitClearLines ..)).append
        (closedWith_bitSetLines ..)) rfl
  | cfgpinIn p n =>
    exact completeLines_concat ((((closedWith_snapshotLines p n).append
      (closedWith_ifThen _ le_rfl ((closedWith_bitSetLines ..).append (closedWith_bitClearLines ..)))).append
        (closedWith_bitClearLines ..)).append (closedWith_bitClearLines ..)) rfl
  | wrpin p n l =>
    refine completeLines_concat ?_ rfl
    split
    · exact closedWith_bitSetLines ..
    · exact closedWith_bitClearLines ..
  | tglpin p n => exact completeLines_concat (body := [.store (.input p) (.lit (oneHot n))]) ⟨le_rfl, trivial⟩ rfl
  | rdpin p n => exact completeLines_concat (body := [.load (.input p)]) ⟨le_rfl, trivial⟩ rfl
  | twstart => exact completeLines_concat closedWith_startLines rfl
  | twstop => exact completeLines_concat closedWith_stopLines rfl
  | twtx v => exact completeLines_concat (closedWith_txLines _) rfl
  | twrx more => exact completeLines_concat (closedWith_rxLines more) rfl
  | twrega rsz reg => exact completeLines_concat (closedWith_regaLines par rsz reg) rfl
  | twwrmem rsz slave n reg => exact completeLines_twwrmem par rsz slave n reg
  | twrdmem rsz slave n reg => exact completeLines_twrdmem par rsz slave n reg
  | cwStart => cases hi
  | cwStop => cases hi
  | cwXferNack => cases hi
  | cwXferAck => cases hi

/-! ### The position of the sequencer along a run -/

/-- With the command `cmd` under the parameters `par`, the sequencer is idle or stands at one of `n` lines (R29). -/
structure AtLine (par : Params) (cmd : Cw40) (n : Nat) (s : State) : Prop where
  par_eq : s.par = par
  busy : s.upc ≠ 0 → s.cmd = cmd ∧ s.upc ≤ n

theorem AtLine.moves {par : Params} {cmd : Cw40} {n k : Nat} {s t : State} (h : AtLine par cmd n s)
    (hu : s.upc ≠ 0) (hm : MovesAtMost k s t) (hk : s.upc + k ≤ n) : AtLine par cmd n t :=
  ⟨hm.par.trans h.par_eq, fun _ => ⟨hm.cmd.trans (h.busy hu).1, hm.upc.trans hk⟩⟩

theorem AtLine.stays {par : Params} {cmd : Cw40} {n : Nat} {s t : State} (h : AtLine par cmd n s)
    (hm : MovesAtMost 0 s t) : AtLine par cmd n t :=
  ⟨hm.par.trans h.par_eq, fun hu => by
    have hs : s.upc ≠ 0 := by have := hm.upc; omega
    obtain ⟨hcmd, hle⟩ := h.busy hs
    exact ⟨hm.cmd.trans hcmd, hm.upc.trans hle⟩⟩

/-- Another agent's turn leaves the sequencer at a line, a reset leaves it idle. -/
theorem AtLine.agentTurn {par : Params} {cmd : Cw40} {n : Nat} {s : State} (h : AtLine par cmd n s) (a : Turn) :
    (agentTurn a s).Leaves (AtLine par cmd n) :=
  (agentTurn_leaves a s).mono fun t ht => by
    rcases ht with ht | ⟨hpar, hupc⟩
    · exact h.stays ht
    · exact ⟨hpar.trans h.par_eq, fun hu => absurd hupc hu⟩

theorem AtLine.engineChance {par : Params} {cmd : Cw40} {n : Nat} {s : State} (h : AtLine par cmd n s) :
    (engineChance s).Leaves (AtLine par cmd n) :=
  (engineChance_leaves s).mono fun _ => h.stays

/-- A sequencer that stands at a line of closed code has a step, and stands at a line after it. -/
theorem AtLine.sequencerStep {par : Params} {cmd : Cw40} {code : Lines} {s : State} (hc : ClosedWith 0 code)
    (h : AtLine par cmd code.length s) (hu : s.upc ≠ 0) :
    ∃ a, sequencerStep code s = some a ∧ a.Leaves (AtLine par cmd code.length) := by
  obtain ⟨-, hle⟩ := h.busy hu
  have hlt : s.upc - 1 < code.length := by omega
  have hl : code[s.upc - 1]? = some code[s.upc - 1] := List.getElem?_eq_getElem hlt
  refine ⟨lineStep code[s.upc - 1] s, by simp only [Machine.sequencerStep, lineAt, hl, Option.map_some], ?_⟩
  have hreach := hc.reach_le hl
  exact (lineStep_leaves _ s).mono fun t ht => h.moves hu ht (by omega)

/-- Whatever state a turn leaves satisfies `P`, and the turn finds a line. -/
def Progress.Leaves (P : State → Prop) : Progress → Prop
  | .goesOn s => P s
  | .waits s => P s
  | .refused _ => True
  | .lost => False

theorem turn_leaves {par : Params} {cmd : Cw40} {code : Lines} {s : State} (hc : ClosedWith 0 code)
    (h : AtLine par cmd code.length s) (hu : s.upc ≠ 0) : (turn code s).Leaves (AtLine par cmd code.length) := by
  have hplan : ∀ rest, AtLine par cmd code.length { s with plan := rest } := fun _ => ⟨h.par_eq, h.busy⟩
  unfold turn
  split
  next =>
    obtain ⟨a, ha, hleaves⟩ := h.sequencerStep hc hu
    rw [ha]
    cases a with
    | done s1 => exact hleaves
    | refused r => trivial
    | held s1 =>
      have hchance := AtLine.engineChance hleaves
      dsimp only
      cases hs1 : Machine.engineChance s1 <;> rw [hs1] at hchance <;> exact hchance
  next rest _ =>
    obtain ⟨a, ha, hleaves⟩ := (hplan rest).sequencerStep hc hu
    rw [ha]
    cases a <;> exact hleaves
  next a rest _ _ =>
    have hturn := (hplan rest).agentTurn a
    cases ha : Machine.agentTurn a { s with plan := rest } <;> rw [ha] at hturn <;> exact hturn

/-- A step that does not fault, and whose next state, if it has one, satisfies `P`. -/
def Answers (P : State → Prop) : Host.Outcome State Fault Refusal → Prop
  | .next s => P s
  | .fault _ => False
  | .refused _ => True

theorem Answers.mono {P Q : State → Prop} {o : Host.Outcome State Fault Refusal} (h : Answers P o)
    (hPQ : ∀ s, P s → Q s) : Answers Q o := by
  cases o with
  | next s => exact hPQ s h
  | fault f => exact h.elim
  | refused r => trivial

theorem run_answers {par : Params} {cmd : Cw40} {code : Lines} (hc : ClosedWith 0 code) (k : Nat) (s : State)
    (h : AtLine par cmd code.length s) : Answers (AtLine par cmd code.length) (run k code s) := by
  induction k generalizing s with
  | zero => exact h
  | succ k ih =>
    by_cases hu : s.upc = 0
    · rw [run_idle _ _ hu]; exact h
    · have hturn := turn_leaves hc h hu
      cases ht : turn code s with
      | goesOn t => rw [run_goesOn hu ht]; rw [ht] at hturn; exact ih t hturn
      | waits t => rw [run_waits hu ht]; rw [ht] at hturn; exact hturn
      | refused r => rw [run_refused hu ht]; trivial
      | lost => rw [ht] at hturn; exact hturn.elim

theorem perform_answers {par : Params} {cmd : Cw40} {code : Lines} {s : State} (hc : CompleteLines code)
    (hpar : s.par = par) (hcmd : s.cmd = cmd) (hle : s.upc ≤ code.length) :
    Answers (AtLine par cmd code.length) (perform code s) := by
  refine run_answers hc.closed _ _ ?_
  split
  · exact ⟨hpar, fun _ => ⟨hcmd, hc.nonempty⟩⟩
  · exact ⟨hpar, fun _ => ⟨hcmd, hle⟩⟩

/-! ### Execution and the safety of a step -/

theorem exec_command {i : Instr} (hi : isCtrlWord i = false) (s : State) :
    exec i s = perform (commandLines s.par i) s := by
  cases i with
  | cwStart => cases hi
  | cwStop => cases hi
  | cwXferNack => cases hi
  | cwXferAck => cases hi
  | _ => rfl

theorem exec_ctrlInstr (w : CtrlWord) (s : State) : exec (ctrlInstr w) s = performCtrl w s := by
  cases w <;> rfl

theorem ctrlInstr_of_isCtrlWord {i : Instr} (hi : isCtrlWord i = true) : ∃ w, i = ctrlInstr w := by
  cases i with
  | cwStart => exact ⟨.start, rfl⟩
  | cwStop => exact ⟨.stop, rfl⟩
  | cwXferNack => exact ⟨.xferNack, rfl⟩
  | cwXferAck => exact ⟨.xferAck, rfl⟩
  | _ => cases hi

theorem performCtrl_answers (w : CtrlWord) (s : State) : Answers (MovesAtMost 0 s) (performCtrl w s) := by
  have h := ctrlWriteWaiting_leaves w s
  unfold performCtrl
  cases hw : ctrlWriteWaiting w s <;> rw [hw] at h <;> exact h

theorem lineOk_iff (s : State) :
    lineOk s = true ↔ s.upc = 0 ∨ ∃ i, decode s.cmd = .ok i ∧ s.upc ≤ (commandLines s.par i).length := by
  unfold lineOk
  cases decode s.cmd <;> simp

theorem lineOk_of_idle {s : State} (h : s.upc = 0) : lineOk s = true := (lineOk_iff s).mpr (.inl h)

theorem lineOk_of_atLine {par : Params} {cmd : Cw40} {i : Instr} {s : State} (hi : decode cmd = .ok i)
    (h : AtLine par cmd (commandLines par i).length s) : lineOk s = true := by
  by_cases hu : s.upc = 0
  · exact lineOk_of_idle hu
  · obtain ⟨hcmd, hle⟩ := h.busy hu
    exact (lineOk_iff s).mpr (.inr ⟨i, by rw [hcmd, hi], by rwa [h.par_eq]⟩)

theorem lineOk_of_movesAtMost {s t : State} (hs : lineOk s = true) (h : MovesAtMost 0 s t) : lineOk t = true := by
  have hupc := h.upc
  rcases (lineOk_iff s).mp hs with hu | ⟨i, hi, hle⟩
  · exact lineOk_of_idle (by omega)
  · exact (lineOk_iff t).mpr (.inr ⟨i, by rw [h.cmd, hi], by rw [h.par]; omega⟩)

/-- A control word keeps the sequencer where it is (R98). -/
theorem exec_ctrlInstr_answers (w : CtrlWord) {s : State} (hs : lineOk s = true) :
    Answers (lineOk · = true) (exec (ctrlInstr w) s) := by
  rw [exec_ctrlInstr]
  exact (performCtrl_answers w s).mono fun _ => lineOk_of_movesAtMost hs

/-- The command in `CMD` runs on from each of its lines without a fault. -/
theorem exec_answers {i : Instr} {s : State} (hi : decode s.cmd = .ok i)
    (hle : s.upc ≤ (commandLines s.par i).length) : Answers (lineOk · = true) (exec i s) := by
  cases hw : isCtrlWord i with
  | false =>
    rw [exec_command hw]
    exact (perform_answers (commandLines_complete s.par hw) rfl rfl hle).mono fun _ => lineOk_of_atLine hi
  | true =>
    obtain ⟨w, rfl⟩ := ctrlInstr_of_isCtrlWord hw
    exact exec_ctrlInstr_answers w ((lineOk_iff s).mpr (.inr ⟨_, hi, hle⟩))

theorem betweenCommands_answers (a : Turn) {s : State} (hs : lineOk s = true) :
    Answers (lineOk · = true) (betweenCommands a s) := by
  have h : (agentTurn a s).Leaves (lineOk · = true) := (agentTurn_leaves a s).mono fun t ht => by
    rcases ht with ht | ⟨-, hupc⟩
    · exact lineOk_of_movesAtMost hs ht
    · exact lineOk_of_idle hupc
  unfold betweenCommands
  cases ha : agentTurn a s <;> rw [ha] at h <;> exact h

theorem idleStep_answers {s : State} (hs : lineOk s = true) : Answers (lineOk · = true) (idleStep s) := by
  have h : (engineChance s).Leaves (lineOk · = true) :=
    (engineChance_leaves s).mono fun _ => lineOk_of_movesAtMost hs
  unfold idleStep
  split
  · exact lineOk_of_movesAtMost hs ⟨rfl, rfl, le_rfl⟩
  · cases hc : engineChance s <;> rw [hc] at h <;> exact h

theorem sequencerRun_answers {s : State} (hs : lineOk s = true) : Answers (lineOk · = true) (sequencerRun s) := by
  unfold sequencerRun
  split
  next hu =>
    split
    next => exact idleStep_answers hs
    next w _ =>
      split
      next i hi => exact exec_answers hi (by simp only [hu]; omega)
      next => trivial
  next hu =>
    rcases (lineOk_iff s).mp hs with h | ⟨i, hi, hle⟩
    · exact absurd h hu
    · rw [hi]; exact exec_answers hi hle

/-- The turn of `Other` that a step runs as an instruction is a control word. -/
theorem ctrlInstr_of_ctrlTurn {s : State} {a v : Byte} {i : Instr} (h : ctrlTurn s a v = some i) :
    ∃ w, i = ctrlInstr w := by
  unfold ctrlTurn decodeCtrl at h
  split at h
  · cases hw : decodeCtrlWord s.par.bits v with
    | ok w => rw [hw] at h; exact ⟨w, (Option.some.inj h).symm⟩
    | error e => rw [hw] at h; cases h
  · cases h

theorem step_answers {s : State} (hs : lineOk s = true) : Answers (lineOk · = true) (step s) := by
  have hplan : ∀ rest, lineOk { s with plan := rest } = true := fun _ =>
    lineOk_of_movesAtMost hs ⟨rfl, rfl, le_rfl⟩
  unfold step stepState
  split
  next => exact sequencerRun_answers hs
  next => exact sequencerRun_answers hs
  next a v rest _ =>
    split
    next i hi =>
      obtain ⟨w, rfl⟩ := ctrlInstr_of_ctrlTurn hi
      exact exec_ctrlInstr_answers w (hplan rest)
    next => exact betweenCommands_answers _ (hplan rest)
  next a rest _ _ _ => exact betweenCommands_answers a (hplan rest)

/-! ### A step as the execution of one instruction -/

/-- A step is the sequencer's where the plan is empty or gives it the next turn (R74). -/
theorem step_sequencer {s : State} (h : s.plan = [] ∨ s.plan.head? = some .seq) : step s = sequencerRun s := by
  rcases h with h | h
  · simp only [step, stepState, h]
  · obtain ⟨rest, h⟩ := List.head?_eq_some_iff.mp h
    simp only [step, stepState, h]

theorem step_idle {s : State} {w : Cw40} {i : Instr} (hp : s.plan = [] ∨ s.plan.head? = some .seq)
    (hu : s.upc = 0) (hw : s.prog[s.pc]? = some w) (hi : decode w = .ok i) : step s = exec i { s with cmd := w } := by
  rw [step_sequencer hp]
  simp [sequencerRun, fetch, hu, hw, hi]

theorem step_busy {s : State} {i : Instr} (hp : s.plan = [] ∨ s.plan.head? = some .seq) (hu : s.upc ≠ 0)
    (hi : decode s.cmd = .ok i) : step s = exec i s := by
  rw [step_sequencer hp]
  simp [sequencerRun, hu, hi]

theorem step_ctrlTurn {s : State} {rest : List Turn} {v : Byte} {i : Instr} (hok : paramsOk s.par = true)
    (ho : s.par.otherPresent = true) (hp : s.plan = .other (.write s.par.twCtrl v) :: rest)
    (hi : decodeCtrl s.par.bits v = .ok i) : step s = exec i { s with plan := rest } := by
  have hat : regAt s.par s.par.twCtrl = some .twCtrl := regAt_regAddr hok .twCtrl
  have hturn : ctrlTurn s s.par.twCtrl v = some i := by simp [ctrlTurn, ho, hat, hi, Except.toOption]
  simp [step, stepState, hp, hturn]

theorem engineStep_none {s : State} (h : s.pending = .none) : engineStep s = .held s := by
  simp [engineStep, h]

/-- An engine with nothing pending does nothing but perhaps draw (R213). -/
theorem engineChance_none {s : State} (h : s.pending = .none) :
    ∃ d, engineChance s = .held { s with draws := d } := by
  rcases engineChance_cases s with e | e | e | e
  · exact ⟨s.draws, e.trans (engineStep_none h)⟩
  · exact ⟨s.draws, e⟩
  · exact ⟨s.draws + 1, e.trans (engineStep_none (s := { s with draws := s.draws + 1 }) h)⟩
  · exact ⟨s.draws + 1, e⟩

theorem step_runEnded {s : State} (h : runEnded s = true) (hp : s.plan = []) :
    ∃ d, step s = .next { s with draws := d } := by
  simp only [runEnded, Bool.and_eq_true, decide_eq_true_eq, beq_iff_eq] at h
  obtain ⟨⟨hpc, hu⟩, hpend⟩ := h
  obtain ⟨d, hd⟩ := engineChance_none hpend
  refine ⟨d, ?_⟩
  rw [step_sequencer (.inl hp)]
  simp [sequencerRun, fetch, hu, hpc, idleStep, hp, hd]

/-! ### The pads -/

theorem onSharedPad_eq_false {s : State} {p : Port} {n : BitIx}
    (h : p = .C → s.ctrl.en = true → n ≠ s.par.sdaPin ∧ n ≠ s.par.sclPin) : onSharedPad s p n = false := by
  by_cases hp : p = .C
  · cases hen : s.ctrl.en with
    | false => simp [onSharedPad, hen]
    | true =>
      obtain ⟨hsda, hscl⟩ := h hp hen
      simp [onSharedPad, hsda, hscl]
  · simp [onSharedPad, hp]

/-- The pull-up is on in one state of the four (R12). -/
theorem decide_pairState_eq_inPullupOn (q : Bool × Bool) : decide (pairState q = .inPullupOn) = (!q.1 && q.2) := by
  obtain ⟨d, l⟩ := q
  cases d <;> cases l <;> rfl

/-! ### The statements of the scope -/

/-- Settles O57: every jump of a command's pseudocode stays inside it, so every line and every agent's turn leaves the
sequencer idle or at a line of its command. -/
theorem stepNeverFaults : Obligations.StepNeverFaults := by
  intro s hs
  have h := step_answers hs
  constructor
  · intro f hf
    rw [hf] at h
    exact h
  · intro t ht
    rw [ht] at h
    exact h

/-- Settles O9, by the four kinds of step: idle, busy, a control word of `Other`, the end of the run. -/
theorem stepRunsTheDecodedInstruction : Obligations.StepRunsTheDecodedInstruction :=
  ⟨fun _ _ _ hp hu hw hi => step_idle hp hu hw hi, fun _ _ hp hu hi => step_busy hp hu hi,
    fun _ _ _ _ hok ho hp hi => step_ctrlTurn hok ho hp hi, fun _ h hp => step_runEnded h hp⟩

/-- Settles O30: a pin that the bus does not share shows its pair (R34). -/
theorem padsFollowThePair : Obligations.PadsFollowThePair := by
  intro s p n h
  rw [pinState, decide_pairState_eq_inPullupOn]
  simp [padOut, onSharedPad_eq_false h]

end Sys2Proof.Machine
end

/-! SUPPORT. What one operation on the register bus, one line of pseudocode, one turn of an agent and one step of the
machine can do to the state (R13, R74), said once; from it the invariant of the machine and of its logs, and what the
TWI commands leave alone. -/

section
namespace Sys2Proof.Machine

/-! ### What one operation on the register bus can do -/

/-- What one operation on the register bus (R60), or a change of a pad (R40), can do: it stores in plain registers and
perhaps draws levels, or it is a control write that goes through (R201). -/
inductive BusEffect (s : State) : State → Prop
  | regs (b c d : PortRegs) (ps : BitVec 2) (data rate : Byte) (n : Nat) : BusEffect s
      { s with portB := b, portC := c, portD := d, ps := ps, twData := data, twBitrate := rate, draws := n }
  | ctrl (w : CtrlWord) (h : EngineFree s) : BusEffect s
      { s with
        ctrl := ctrlAfter s w false, pending := pendingOf w, phase := if w = .stop then .stop else s.phase }

/-- An attempt from `s` that, where it is done, satisfies `P`, and that changes nothing where it is held. -/
def Attempt.Yields (s : State) (P : State → Prop) : Attempt → Prop
  | .done t => P t
  | .held t => t = s
  | .refused _ => True

theorem Attempt.Yields.leaves {s : State} {P Q : State → Prop} {a : Attempt} (h : a.Yields s P) (hs : Q s)
    (hPQ : ∀ t, P t → Q t) : a.Leaves Q := by
  cases a with
  | done t => exact hPQ t h
  | held t => obtain rfl : t = s := h; exact hs
  | refused r => trivial

theorem Attempt.Yields.done {s t : State} {P : State → Prop} {a : Attempt} (h : a.Yields s P) (ha : a = .done t) :
    P t := by
  subst ha; exact h

theorem Attempt.Yields.held {s t : State} {P : State → Prop} {a : Attempt} (h : a.Yields s P) (ha : a = .held t) :
    t = s := by
  subst ha; exact h

theorem draws_busEffect (s : State) (n : Nat) : BusEffect s { s with draws := n } := .regs ..

theorem setPort_busEffect (s : State) (p : Port) (r : PortRegs) : BusEffect s (setPort s p r) := by
  cases p <;> exact .regs ..

theorem regRead_busEffect (r : Reg) (s : State) : BusEffect s (regRead r s).2 := by
  cases r <;> exact .regs ..

theorem ctrlWrite_yields (w : CtrlWord) (s : State) : (ctrlWrite w s).Yields s (BusEffect s) := by
  rcases ctrlWrite_cases w s with ⟨-, h⟩ | ⟨-, -, h⟩ | ⟨hfree, h⟩ <;> rw [h]
  · rfl
  · trivial
  · exact .ctrl w hfree

theorem regWrite_yields (r : Reg) (v : Byte) (s : State) : (regWrite r v s).Yields s (BusEffect s) := by
  cases r with
  | input p => exact setPort_busEffect s p _
  | dir p => exact setPort_busEffect s p _
  | out p => exact setPort_busEffect s p _
  | twBitrate => exact .regs ..
  | twStatus => exact .regs ..
  | twData =>
    simp only [regWrite]
    split
    · exact .regs ..
    · trivial
  | twCtrl =>
    simp only [regWrite]
    split
    · exact ctrlWrite_yields _ s
    · trivial

theorem bitSetReg_yields (r : Reg) (b : BitIx) (s : State) : (bitSetReg r b s).Yields s (BusEffect s) := by
  unfold bitSetReg
  split
  · exact regWrite_yields r _ s
  · trivial

theorem bitClearReg_yields (r : Reg) (b : BitIx) (s : State) : (bitClearReg r b s).Yields s (BusEffect s) := by
  unfold bitClearReg
  split
  · exact regWrite_yields r _ s
  · trivial

/-! ### What a line of pseudocode can do -/

/-- What one line of pseudocode can do: a write on the register bus, a change of latches and a jump, a store in the
buffer, a response. -/
inductive LineEffect (s : State) : State → Prop
  | write {t : State} (h : BusEffect s t) : LineEffect s (goto 1 t)
  | latches (snapD snapL : Bool) (st cnt rxb tmp : Byte) (upc n : Nat) : LineEffect s
      { s with
        snapD := snapD, snapL := snapL, st := st, cnt := cnt, rxb := rxb, tmp := tmp, upc := upc, draws := n }
  | store (h : s.cnt.toNat < s.par.bufSize) : LineEffect s (goto 1 (bufWrite s.cnt.toNat s.rxb s))
  | respond (c d : Byte) : LineEffect s (respond c d s)

theorem thenNext_yields {a : Attempt} {s : State} (h : a.Yields s (BusEffect s)) :
    (thenNext a).Yields s (LineEffect s) := by
  cases a with
  | done t => exact .write h
  | held t => exact h
  | refused r => trivial

/-- A register read into `t` (R72, R123, R138). -/
theorem readToTmp_lineEffect (r : Reg) (s : State) :
    LineEffect s (goto 1 { (regRead r s).2 with tmp := (regRead r s).1 }) := by
  cases r <;> exact .latches ..

/-- Everything a line can do; held, it changes nothing. -/
theorem lineStep_yields (l : Line) (s : State) : (lineStep l s).Yields s (LineEffect s) := by
  cases l with
  | snapD p n => exact .latches ..
  | snapL p n => exact .latches ..
  | bitSet r b => exact thenNext_yields (bitSetReg_yields r b s)
  | bitClear r b => exact thenNext_yields (bitClearReg_yields r b s)
  | fetch r =>
    simp only [lineStep]
    split
    · exact readToTmp_lineEffect r s
    · trivial
  | putSet r b => exact thenNext_yields (regWrite_yields r _ s)
  | putClear r b => exact thenNext_yields (regWrite_yields r _ s)
  | load r => exact readToTmp_lineEffect r s
  | store r v => exact thenNext_yields (regWrite_yields r _ s)
  | ctrl w => exact thenNext_yields (ctrlWrite_yields w s)
  | poll =>
    simp only [lineStep]
    split
    · exact .latches ..
    · rfl
  | status => exact .latches ..
  | takeData => exact .latches ..
  | putBuf =>
    simp only [lineStep]
    split
    next h => exact .store h
    next => trivial
  | clearCnt => exact .latches ..
  | incCnt => exact .latches ..
  | branch c k => exact .latches ..
  | skip k => exact .latches ..
  | back k => exact .latches ..
  | respond c d => exact .respond ..
  | refuse r => trivial

theorem lineStep_held {l : Line} {s t : State} (h : lineStep l s = .held t) : t = s := (lineStep_yields l s).held h

/-! ### What the engine leaves alone -/

/-- The state without what the bus engine may change (R42, R204 to R212). -/
def engineMasked (s : State) : State :=
  { s with
    acks := [], bytes := [], outcomes := [], draws := 0, ctrl := .reset, twCode := 0, twData := 0, phase := .idle,
    dir := .W, nack := false, pending := .none, buslog := [] }

/-- The engine's frame and its growing log (R44). -/
structure EngineFrame (s t : State) : Prop where
  masked : engineMasked t = engineMasked s
  buslog : ∃ es, t.buslog = s.buslog ++ es

theorem EngineFrame.rsp {s t : State} (h : EngineFrame s t) : t.rsp = s.rsp :=
  (congrArg State.rsp h.masked :)

theorem EngineFrame.pc {s t : State} (h : EngineFrame s t) : t.pc = s.pc :=
  (congrArg State.pc h.masked :)

theorem EngineFrame.upc {s t : State} (h : EngineFrame s t) : t.upc = s.upc :=
  (congrArg State.upc h.masked :)

theorem EngineFrame.plan {s t : State} (h : EngineFrame s t) : t.plan = s.plan :=
  (congrArg State.plan h.masked :)

theorem EngineFrame.program {s t : State} (h : EngineFrame s t) : SameProgram s t :=
  ⟨(congrArg State.par h.masked :), (congrArg State.prog h.masked :)⟩

theorem EngineFrame.trans {s t u : State} (h : EngineFrame s t) (h' : EngineFrame t u) : EngineFrame s u := by
  obtain ⟨es, hes⟩ := h.buslog
  obtain ⟨es', hes'⟩ := h'.buslog
  exact ⟨h'.masked.trans h.masked, es ++ es', by rw [hes', hes, List.append_assoc]⟩

theorem engineFrame_of_draws (s : State) (n : Nat) (o : List EngineOutcome) :
    EngineFrame s { s with outcomes := o, draws := n } := ⟨rfl, [], (List.append_nil _).symm⟩

theorem engineStart_frame (s : State) : EngineFrame s (engineStart s) := by
  by_cases h : s.phase = .idle
  · rw [engineStart_idle h]; exact ⟨rfl, _, rfl⟩
  · rw [engineStart_held h]; exact ⟨rfl, _, rfl⟩

theorem engineAddress_frame (s : State) : EngineFrame s (engineAddress s) := by
  rw [engineAddress_eq]; exact ⟨rfl, _, rfl⟩

theorem engineTransmit_frame (s : State) : EngineFrame s (engineTransmit s) := by
  rw [engineTransmit_eq]; exact ⟨rfl, _, rfl⟩

theorem engineReceive_frame (s : State) : EngineFrame s (engineReceive s) := by
  rw [engineReceive_eq]; exact ⟨rfl, _, rfl⟩

/-- A completion step, with or without bus faults, keeps what every outcome keeps (R212). -/
theorem withFaults_keeps {P : State → Prop} {f : State → State} {s : State}
    (hf : ∀ n o, P (f { s with outcomes := o, draws := n }))
    (harb : ∀ n o, P (engineArbLost { s with outcomes := o, draws := n }))
    (herr : ∀ n o, P (engineBusError { s with outcomes := o, draws := n })) : P (withFaults f s) := by
  rcases withFaults_cases f s with h | ⟨s1, hs1, h⟩
  · rw [h]; exact hf s.draws s.outcomes
  · rw [hs1] at h
    rcases h with h | h | h <;> rw [h]
    · exact hf ..
    · exact harb ..
    · exact herr ..

theorem withFaults_frame {f : State → State} (hf : ∀ s, EngineFrame s (f s)) (s : State) :
    EngineFrame s (withFaults f s) :=
  withFaults_keeps (fun n o => (engineFrame_of_draws s n o).trans (hf _))
    (fun _ _ => ⟨rfl, [], (List.append_nil _).symm⟩) (fun _ _ => ⟨rfl, [], (List.append_nil _).symm⟩)

theorem engineStep_frame {s t : State} (h : engineStep s = .done t) : EngineFrame s t := by
  obtain ⟨-, -, hstep⟩ := engineStep_cases h
  rcases hstep with ⟨-, rfl⟩ | ⟨-, rfl⟩ | ⟨-, -, rfl⟩ | ⟨-, -, -, rfl⟩ | ⟨-, -, -, -, rfl⟩
  · exact withFaults_frame engineStart_frame s
  · exact ⟨rfl, _, rfl⟩
  · exact withFaults_frame engineAddress_frame s
  · exact withFaults_frame engineTransmit_frame s
  · exact withFaults_frame engineReceive_frame s

theorem engineChance_done {s t : State} (h : engineChance s = .done t) :
    ∃ n, engineStep { s with draws := n } = .done t := by
  rcases engineChance_cases s with e | e | e | e <;> rw [e] at h
  · exact ⟨s.draws, h⟩
  · cases h
  · exact ⟨_, h⟩
  · cases h

theorem engineChance_held {s t : State} (h : engineChance s = .held t) : ∃ n, t = { s with draws := n } := by
  rcases engineChance_cases s with e | e | e | e <;> rw [e] at h
  · exact ⟨s.draws, engineStep_held h⟩
  · cases h; exact ⟨s.draws, rfl⟩
  · exact ⟨_, engineStep_held h⟩
  · cases h; exact ⟨_, rfl⟩

/-- A control write that waits, by its parts: a draw, an engine step from phase STOP, a control write (R203). -/
theorem ctrlWriteWaiting_keeps {P : State → Prop} {w : CtrlWord} {s : State} (hdraw : ∀ n, P { s with draws := n })
    (hengine : ∀ n t, s.phase = .stop → engineStep { s with draws := n } = .done t → P t)
    (hwrite : ∀ u t, P u → ctrlWrite w u = .done t → P t) : (ctrlWriteWaiting w s).Leaves P := by
  have hs : P s := hdraw s.draws
  unfold ctrlWriteWaiting
  rcases ctrlWrite_cases w s with ⟨hphase, hw⟩ | ⟨-, -, hw⟩ | ⟨hfree, hw⟩
  · rw [hw]
    dsimp only
    split
    next s2 h2 =>
      obtain ⟨n, hn⟩ := engineChance_done h2
      have h := hengine n s2 hphase hn
      cases hw2 : ctrlWrite w s2 with
      | done t => exact hwrite s2 t h hw2
      | held t => rw [(ctrlWrite_yields w s2).held hw2]; exact h
      | refused r => trivial
    next s2 h2 =>
      obtain ⟨n, rfl⟩ := engineChance_held h2
      exact hdraw n
    next => trivial
  · rw [hw]; trivial
  · rw [hw]; exact hwrite s _ hs hw

/-- An operation of `Other` is a control write, or does what one operation on the register bus can do (R75). -/
theorem busOp_yields (op : BusOp) (s : State) :
    (∃ w, busOp op s = ctrlWriteWaiting w s) ∨ (busOp op s).Yields s (BusEffect s) := by
  cases op with
  | read a =>
    simp only [busOp]
    split
    · exact .inr trivial
    · exact .inr (regRead_busEffect _ s)
  | write a v =>
    simp only [busOp]
    split
    · exact .inr trivial
    · split
      next w _ => exact .inl ⟨w, rfl⟩
      next => exact .inr trivial
    · exact .inr (regWrite_yields _ v s)
  | bitSet a b =>
    simp only [busOp]
    split
    · exact .inr trivial
    · exact .inr (bitSetReg_yields _ b s)
  | bitClear a b =>
    simp only [busOp]
    split
    · exact .inr trivial
    · exact .inr (bitClearReg_yields _ b s)

/-! ### A step as a chain of effects -/

/-- One indivisible step of an agent (R13, R74), or the model's own bookkeeping: the plan's next turn taken (log 2). -/
inductive Effect (s : State) : State → Prop
  | line {t : State} (busy : s.upc ≠ 0) (h : LineEffect s t) : Effect s t
  | engine {t : State} (h : engineStep s = .done t) : Effect s t
  | bus {t : State} (h : BusEffect s t) : Effect s t
  | host (i : Nat) (v : Byte) (h : i < s.par.bufSize) : Effect s (bufWrite i v s)
  | turn {a : Turn} {rest : List Turn} (h : s.plan = a :: rest) (ha : a ≠ .reset) : Effect s { s with plan := rest }
  | reset {rest : List Turn} (h : s.plan = .reset :: rest) : Effect s (applyReset { s with plan := rest })

/-- A chain of effects. -/
abbrev Effects : State → State → Prop := Relation.ReflTransGen Effect

theorem effects_of_draws {s t : State} (h : Effects s t) (n : Nat) : Effects s { t with draws := n } :=
  h.tail (.bus (draws_busEffect t n))

theorem engineChance_effects {s t : State} (h : engineChance s = .done t ∨ engineChance s = .held t) :
    Effects s t := by
  rcases h with h | h
  · obtain ⟨n, hn⟩ := engineChance_done h
    exact (effects_of_draws .refl n).tail (.engine hn)
  · obtain ⟨n, rfl⟩ := engineChance_held h
    exact effects_of_draws .refl n

theorem ctrlWriteWaiting_effects (w : CtrlWord) (s : State) : (ctrlWriteWaiting w s).Leaves (Effects s) :=
  ctrlWriteWaiting_keeps (fun n => effects_of_draws .refl n)
    (fun n _ _ h => (effects_of_draws .refl n).tail (.engine h))
    (fun u _ hu h => hu.tail (.bus ((ctrlWrite_yields w u).done h)))

theorem engineStep_effects (s : State) : (engineStep s).Leaves (Effects s) := by
  cases h : engineStep s with
  | done t => exact .single (.engine h)
  | held t => rw [engineStep_held h]; exact .refl
  | refused r => trivial

theorem busOp_effects (op : BusOp) (s : State) : (busOp op s).Leaves (Effects s) := by
  rcases busOp_yields op s with ⟨w, h⟩ | h
  · rw [h]; exact ctrlWriteWaiting_effects w s
  · exact h.leaves .refl fun _ ht => .single (.bus ht)

theorem agentTurn_effects {a : Turn} (ha : a ≠ .reset) (s : State) : (agentTurn a s).Leaves (Effects s) := by
  cases a with
  | seq => exact .refl
  | engine => exact orPass_leaves (engineStep_effects s)
  | pad p n e => exact .single (.bus (setPort_busEffect s p _))
  | other op =>
    simp only [agentTurn]
    split
    · exact orPass_leaves (busOp_effects op s)
    · exact .refl
  | host i v =>
    simp only [agentTurn]
    split
    next h => exact .single (.host i v h.2)
    next => exact .refl
  | reset => exact absurd rfl ha

/-- The plan's next turn, taken by its agent. -/
theorem plannedTurn_effects {a : Turn} {rest : List Turn} {s : State} (h : s.plan = a :: rest) :
    (agentTurn a { s with plan := rest }).Leaves (Effects s) := by
  by_cases ha : a = .reset
  · subst ha; exact .single (.reset h)
  · exact (agentTurn_effects ha _).mono fun _ => (Relation.ReflTransGen.single (.turn h ha)).trans

/-- A turn that waits: the sequencer is held, and the engine's chance brings nothing (R213). -/
theorem turn_waits_cases {code : Lines} {s t : State} (h : turn code s = .waits t) :
    s.plan = [] ∧ ∃ l, lineAt code s = some l ∧ lineStep l s = .held s ∧ engineChance s = .held t := by
  unfold turn at h
  split at h
  next hp =>
    unfold sequencerStep at h
    cases hl : lineAt code s with
    | none => simp [hl] at h
    | some l =>
      cases hs : lineStep l s with
      | done s1 => simp [hl, hs] at h
      | refused r => simp [hl, hs] at h
      | held s1 =>
        obtain rfl := lineStep_held hs
        cases hc : engineChance s1 with
        | held s2 =>
          simp only [hl, hs, hc, Option.map_some, Progress.waits.injEq] at h
          exact ⟨hp, l, rfl, hs, by rw [h]⟩
        | done s2 => simp [hl, hs, hc] at h
        | refused r => simp [hl, hs, hc] at h
  next =>
    split at h <;> cases h
  next =>
    split at h <;> cases h

theorem turn_effects {code : Lines} {s t : State} (hu : s.upc ≠ 0)
    (h : turn code s = .goesOn t ∨ turn code s = .waits t) : Effects s t := by
  rcases h with h | h
  · rcases turn_cases h with ⟨l, s0, -, hs0, hl⟩ | ⟨l, s1, -, -, hl, hc⟩ | ⟨a, rest, hp, -, ha⟩
    · have h0 : Effects s s0 ∧ s0.upc ≠ 0 := by
        rcases hs0 with rfl | ⟨rest, hp, rfl⟩
        · exact ⟨.refl, hu⟩
        · exact ⟨.single (.turn hp (by decide)), hu⟩
      rcases hl with hl | ⟨-, hl⟩
      · exact h0.1.tail (.line h0.2 ((lineStep_yields l s0).done hl))
      · rw [lineStep_held hl]; exact h0.1
    · rw [lineStep_held hl] at hc
      exact engineChance_effects (.inl hc)
    · have hleaves := plannedTurn_effects hp
      rcases ha with ha | ha <;> rw [ha] at hleaves <;> exact hleaves
  · obtain ⟨-, l, -, -, hc⟩ := turn_waits_cases h
    exact engineChance_effects (.inr hc)

theorem run_effects {k : Nat} {code : Lines} {s t : State} (h : run k code s = .next t) : Effects s t :=
  run_keeps (P := Effects s) (fun _ _ hs hu ht => hs.trans (turn_effects hu (.inl ht)))
    (fun _ _ hs hu ht => hs.trans (turn_effects hu (.inr ht))) k s t .refl h

/-- The sequencer takes up a command: it goes on where it is, or it is idle and issues the next one of the program
(R26). -/
inductive Issues (s : State) : State → Prop
  | goesOn : Issues s s
  | next {w : Cw40} (u : Nat) (idle : s.upc = 0) (h : fetch s = some w) : Issues s { s with cmd := w, upc := u }

theorem performCtrl_effects {w : CtrlWord} {s t : State} (h : performCtrl w s = .next t) : Effects s t := by
  have hleaves := ctrlWriteWaiting_effects w s
  unfold performCtrl at h
  split at h
  next hw => rw [hw] at hleaves; cases h; exact hleaves
  next hw => rw [hw] at hleaves; cases h; exact hleaves
  next => cases h

/-- From its first line if the sequencer is idle, else from where it is (R26, R29). -/
theorem exec_effects {i : Instr} {s t : State} (h : exec i s = .next t) :
    Effects s t ∨ (s.upc = 0 ∧ Effects { s with upc := 1 } t) := by
  cases hi : isCtrlWord i with
  | true =>
    obtain ⟨w, rfl⟩ := ctrlInstr_of_isCtrlWord hi
    rw [exec_ctrlInstr] at h
    exact .inl (performCtrl_effects h)
  | false =>
    rw [exec_command hi, perform] at h
    split at h
    next hu => exact .inr ⟨hu, run_effects h⟩
    next => exact .inl (run_effects h)

theorem idleStep_effects {s t : State} (h : idleStep s = .next t) : Effects s t := by
  unfold idleStep at h
  split at h
  next rest hp => cases h; exact .single (.turn hp (by decide))
  next =>
    split at h
    next hc => cases h; exact engineChance_effects (.inl hc)
    next hc => cases h; exact engineChance_effects (.inr hc)
    next => cases h

theorem sequencerRun_effects {s t : State} (h : sequencerRun s = .next t) : ∃ s0, Issues s s0 ∧ Effects s0 t := by
  unfold sequencerRun at h
  split at h
  next hu =>
    split at h
    next => exact ⟨s, .goesOn, idleStep_effects h⟩
    next w hw =>
      split at h
      next i _ =>
        rcases exec_effects h with h | ⟨-, h⟩
        · exact ⟨_, .next s.upc hu hw, h⟩
        · exact ⟨_, .next 1 hu hw, h⟩
      next => cases h
  next hu =>
    split at h
    next =>
      rcases exec_effects h with h | ⟨h0, -⟩
      · exact ⟨s, .goesOn, h⟩
      · exact absurd h0 hu
    next => cases h

theorem betweenCommands_effects {a : Turn} {rest : List Turn} {s t : State} (hp : s.plan = a :: rest)
    (h : betweenCommands a { s with plan := rest } = .next t) : Effects s t := by
  have hleaves := plannedTurn_effects hp
  unfold betweenCommands at h
  split at h
  next ha => rw [ha] at hleaves; cases h; exact hleaves
  next ha => rw [ha] at hleaves; cases h; exact hleaves
  next => cases h

/-- Everything a step can do: take up a command, if it is the sequencer's turn, then a chain of indivisible steps of the
agents (R13, R26, R74; log 1). -/
theorem step_effects {s t : State} (h : step s = .next t) : ∃ s0, Issues s s0 ∧ Effects s0 t := by
  unfold step stepState at h
  split at h
  next => exact sequencerRun_effects h
  next => exact sequencerRun_effects h
  next a v rest hp =>
    split at h
    next i hi =>
      obtain ⟨w, rfl⟩ := ctrlInstr_of_ctrlTurn hi
      rw [exec_ctrlInstr] at h
      exact ⟨s, .goesOn, (performCtrl_effects h).head (.turn hp Turn.noConfusion)⟩
    next => exact ⟨s, .goesOn, betweenCommands_effects hp h⟩
  next a rest _ _ hp => exact ⟨s, .goesOn, betweenCommands_effects hp h⟩

/-! ### The invariant of the machine -/

/-- What no step of the bus engine touches of the invariant: the logs, the buffer and the position. -/
abbrev SequencerOk (s : State) : Prop := LogOk s ∧ BufOk s ∧ ProgOk s

theorem busEffect_engineOk {s t : State} (hs : EngineOk s) (h : BusEffect s t) : EngineOk t := by
  cases h with
  | regs b c d ps data rate n => exact hs
  | ctrl w hfree =>
    obtain ⟨hnone, hphase⟩ := hfree
    obtain ⟨-, -, -, -, hidle, hstart, hsent, hrecv, hwc, -⟩ := hs
    cases w <;> simp_all [EngineOk, ctrlAfter, pendingOf]

theorem engineStart_engineOk {s : State} (hs : EngineOk s) (hp : s.pending = .start) : EngineOk (engineStart s) := by
  obtain ⟨-, -, hsto, -, -, -, -, -, hwc, hie⟩ := hs
  by_cases h : s.phase = .idle
  · rw [engineStart_idle h]; simp_all [EngineOk]
  · rw [engineStart_held h]; simp_all [EngineOk]

theorem engineStop_engineOk {s : State} (hs : EngineOk s) (hp : s.pending = .stop) : EngineOk (engineStop s) := by
  rw [engineStop_eq]; simp_all [EngineOk]

theorem engineAddress_engineOk {s : State} (hs : EngineOk s) (hp : s.pending = .xfer) :
    EngineOk (engineAddress s) := by
  rw [engineAddress_eq]; simp_all [EngineOk]

theorem engineTransmit_engineOk {s : State} (hs : EngineOk s) (hp : s.pending = .xfer) (hd : s.dir = .W) :
    EngineOk (engineTransmit s) := by
  rw [engineTransmit_eq]; simp_all [EngineOk]

theorem engineReceive_engineOk {s : State} (hs : EngineOk s) (hp : s.pending = .xfer) (hd : s.dir = .R) :
    EngineOk (engineReceive s) := by
  rw [engineReceive_eq]; simp_all [EngineOk]

/-- The faults of R212 keep the engine's invariants where no stop is pending. -/
theorem withFaults_engineOk {f : State → State} {s : State} (hs : EngineOk s) (hp : s.pending ≠ .stop)
    (hf : ∀ n o, EngineOk (f { s with outcomes := o, draws := n })) : EngineOk (withFaults f s) := by
  refine withFaults_keeps hf (fun n o => ?_) (fun n o => ?_)
  · simp_all [EngineOk, engineArbLost, complete, setCode]
  · simp_all [EngineOk, engineBusError, complete, setCode]

theorem engineStep_engineOk {s t : State} (hs : EngineOk s) (h : engineStep s = .done t) : EngineOk t := by
  obtain ⟨-, -, hstep⟩ := engineStep_cases h
  rcases hstep with ⟨hp, rfl⟩ | ⟨hp, rfl⟩ | ⟨hp, -, rfl⟩ | ⟨hp, hd, -, rfl⟩ | ⟨hp, hd, -, -, rfl⟩
  · exact withFaults_engineOk hs (by simp [hp]) fun _ _ => engineStart_engineOk hs hp
  · exact engineStop_engineOk hs hp
  · exact withFaults_engineOk hs (by simp [hp]) fun _ _ => engineAddress_engineOk hs hp
  · exact withFaults_engineOk hs (by simp [hp]) fun _ _ => engineTransmit_engineOk hs hp hd
  · exact withFaults_engineOk hs (by simp [hp]) fun _ _ => engineReceive_engineOk hs hp hd

theorem sequencerOk_of_engineFrame {s t : State} (hs : SequencerOk s) (h : EngineFrame s t) : SequencerOk t := by
  have ht : SequencerOk (engineMasked t) := by rw [h.masked]; exact hs
  exact ht

theorem busEffect_inv {s t : State} (hs : Inv s) (h : BusEffect s t) : Inv t := by
  refine ⟨busEffect_engineOk hs.1 h, ?_⟩
  cases h <;> exact hs.2

theorem goto_inv {s : State} (k : Nat) (hs : Inv s) (hu : s.upc ≠ 0) : Inv (goto k s) := by
  obtain ⟨heng, hlog, hbuf, hle, hlt⟩ := hs
  exact ⟨heng, hlog, hbuf, hle, fun _ => hlt hu⟩

theorem bufWrite_inv {s : State} {i : Nat} (v : Byte) (hs : Inv s) (hi : i < s.par.bufSize) :
    Inv (bufWrite i v s) := by
  obtain ⟨heng, hlog, hbuf, hprog⟩ := hs
  exact ⟨heng, hlog, bufWrite_bufOk i v s hi hbuf, hprog⟩

theorem busEffect_upc {s t : State} (h : BusEffect s t) : t.upc = s.upc := by
  cases h <;> rfl

theorem lineEffect_inv {s t : State} (hs : Inv s) (hu : s.upc ≠ 0) (h : LineEffect s t) : Inv t := by
  cases h with
  | write h => exact goto_inv 1 (busEffect_inv hs h) (by rwa [busEffect_upc h])
  | latches =>
    obtain ⟨heng, hlog, hbuf, hle, hlt⟩ := hs
    exact ⟨heng, hlog, hbuf, hle, fun _ => hlt hu⟩
  | store h => exact goto_inv 1 (bufWrite_inv s.rxb hs h) hu
  | respond c d =>
    obtain ⟨heng, hlog, hbuf, -, hlt⟩ := hs
    exact ⟨heng, by simp [LogOk, hlog], hbuf, hlt hu, fun h => absurd rfl h⟩

theorem applyReset_inv {s : State} (hs : Inv s) : Inv (applyReset s) := by
  obtain ⟨-, -, hbuf, -⟩ := hs
  exact ⟨by simp [EngineOk, applyReset, State.reset, TwCtrl.reset], rfl, hbuf, Nat.zero_le _, fun h => absurd rfl h⟩

theorem effect_inv {s t : State} (hs : Inv s) (h : Effect s t) : Inv t := by
  cases h with
  | line hu h => exact lineEffect_inv hs hu h
  | engine h => exact ⟨engineStep_engineOk hs.1 h, sequencerOk_of_engineFrame hs.2 (engineStep_frame h)⟩
  | bus h => exact busEffect_inv hs h
  | host i v hi => exact bufWrite_inv v hs hi
  | turn => exact hs
  | reset => exact applyReset_inv (s := { s with plan := _ }) hs

theorem effects_inv {s t : State} (hs : Inv s) (h : Effects s t) : Inv t := by
  induction h with
  | refl => exact hs
  | tail _ h ih => exact effect_inv ih h

theorem issues_inv {s t : State} (hs : Inv s) (h : Issues s t) : Inv t := by
  cases h with
  | goesOn => exact hs
  | next u _ hw =>
    obtain ⟨heng, hlog, hbuf, hle, -⟩ := hs
    obtain ⟨hlt, -⟩ := List.getElem?_eq_some_iff.mp hw
    exact ⟨heng, hlog, hbuf, hle, fun _ => hlt⟩

/-- Settles O55: the command taken up and each effect of the step keep the invariant. -/
theorem stepKeepsTheInvariant : Obligations.StepKeepsTheInvariant := by
  intro s t hs h
  obtain ⟨s0, hissue, heffects⟩ := step_effects h
  exact effects_inv (issues_inv hs hissue) heffects

/-! ### Responses and the bus log -/

/-- From `s` to `t` no response, the same `pc`, and the sequencer idle if it was; or one response of a busy sequencer,
which advances `pc` and is then idle (R27, R28). The bus log only grows (R44). -/
structure OneResponse (s t : State) : Prop where
  rsp : (t.rsp = s.rsp ∧ t.pc = s.pc ∧ (s.upc = 0 → t.upc = 0)) ∨
    (s.upc ≠ 0 ∧ ∃ r, t.rsp = s.rsp ++ [r] ∧ t.pc = s.pc + 1 ∧ t.upc = 0)
  buslog : ∃ es, t.buslog = s.buslog ++ es

theorem OneResponse.refl (s : State) : OneResponse s s := ⟨.inl ⟨rfl, rfl, id⟩, [], (List.append_nil _).symm⟩

/-- A response leaves the sequencer idle, so no second one follows. -/
theorem OneResponse.trans {s t u : State} (h : OneResponse s t) (h' : OneResponse t u) : OneResponse s u := by
  obtain ⟨es, hes⟩ := h.buslog
  obtain ⟨es', hes'⟩ := h'.buslog
  refine ⟨?_, es ++ es', by rw [hes', hes, List.append_assoc]⟩
  rcases h.rsp with ⟨hrsp, hpc, hidle⟩ | ⟨hbusy, r, hrsp, hpc, hidle⟩
  · rcases h'.rsp with ⟨hrsp', hpc', hidle'⟩ | ⟨hbusy', r, hrsp', hpc', hidle'⟩
    · exact .inl ⟨hrsp'.trans hrsp, hpc'.trans hpc, hidle' ∘ hidle⟩
    · exact .inr ⟨mt hidle hbusy', r, by rw [hrsp', hrsp], by rw [hpc', hpc], hidle'⟩
  · rcases h'.rsp with ⟨hrsp', hpc', hidle'⟩ | ⟨hbusy', -⟩
    · exact .inr ⟨hbusy, r, hrsp'.trans hrsp, hpc'.trans hpc, hidle' hidle⟩
    · exact absurd hidle hbusy'

theorem busEffect_logs {s t : State} (h : BusEffect s t) :
    t.rsp = s.rsp ∧ t.pc = s.pc ∧ t.buslog = s.buslog := by
  cases h <;> exact ⟨rfl, rfl, rfl⟩

theorem busEffect_program {s t : State} (h : BusEffect s t) : SameProgram s t ∧ t.plan = s.plan := by
  cases h <;> exact ⟨⟨rfl, rfl⟩, rfl⟩

theorem lineEffect_oneResponse {s t : State} (hu : s.upc ≠ 0) (h : LineEffect s t) : OneResponse s t := by
  cases h with
  | write h =>
    obtain ⟨hrsp, hpc, hbuslog⟩ := busEffect_logs h
    exact ⟨.inl ⟨hrsp, hpc, fun h0 => absurd h0 hu⟩, [], by rw [goto_buslog, hbuslog, List.append_nil]⟩
  | latches => exact ⟨.inl ⟨rfl, rfl, fun h0 => absurd h0 hu⟩, [], (List.append_nil _).symm⟩
  | store => exact ⟨.inl ⟨rfl, rfl, fun h0 => absurd h0 hu⟩, [], (List.append_nil _).symm⟩
  | respond c d => exact ⟨.inr ⟨hu, _, rfl, rfl, rfl⟩, [], (List.append_nil _).symm⟩

theorem engineFrame_oneResponse {s t : State} (h : EngineFrame s t) : OneResponse s t :=
  ⟨.inl ⟨h.rsp, h.pc, fun h0 => h.upc.trans h0⟩, h.buslog⟩

theorem effect_oneResponse {s t : State} (hr : noReset s = true) (h : Effect s t) : OneResponse s t := by
  cases h with
  | line hu h => exact lineEffect_oneResponse hu h
  | engine h => exact engineFrame_oneResponse (engineStep_frame h)
  | bus h =>
    obtain ⟨hrsp, hpc, hbuslog⟩ := busEffect_logs h
    exact ⟨.inl ⟨hrsp, hpc, fun h0 => (busEffect_upc h).trans h0⟩, [], by rw [hbuslog, List.append_nil]⟩
  | host => exact ⟨(OneResponse.refl s).rsp, [], (List.append_nil _).symm⟩
  | turn => exact ⟨(OneResponse.refl s).rsp, [], (List.append_nil _).symm⟩
  | reset hp => simp [noReset, hp] at hr

theorem lineEffect_program {s t : State} (h : LineEffect s t) : SameProgram s t ∧ t.plan = s.plan := by
  cases h with
  | write h =>
    have hprogram := busEffect_program h
    exact hprogram
  | _ => exact ⟨⟨rfl, rfl⟩, rfl⟩

theorem effect_noReset {s t : State} (hr : noReset s = true) (h : Effect s t) : noReset t = true := by
  cases h with
  | line _ h => rwa [noReset, (lineEffect_program h).2]
  | engine h => rwa [noReset, (engineStep_frame h).plan]
  | bus h => rwa [noReset, (busEffect_program h).2]
  | host => exact hr
  | turn hp =>
    simp only [noReset, hp, List.all_cons, Bool.and_eq_true] at hr ⊢
    exact hr.2
  | reset hp => simp [noReset, hp] at hr

theorem effects_oneResponse {s t : State} (hr : noReset s = true) (h : Effects s t) :
    OneResponse s t ∧ noReset t = true := by
  induction h with
  | refl => exact ⟨.refl s, hr⟩
  | tail _ h ih => exact ⟨ih.1.trans (effect_oneResponse ih.2 h), effect_noReset ih.2 h⟩

theorem effect_sameProgram {s t : State} (h : Effect s t) : SameProgram s t := by
  cases h with
  | line _ h => exact (lineEffect_program h).1
  | engine h => exact (engineStep_frame h).program
  | bus h => exact (busEffect_program h).1
  | _ => exact ⟨rfl, rfl⟩

theorem effects_sameProgram {s t : State} (h : Effects s t) : SameProgram s t := by
  induction h with
  | refl => exact ⟨rfl, rfl⟩
  | tail _ h ih =>
    obtain ⟨hpar, hprog⟩ := effect_sameProgram h
    exact ⟨hpar.trans ih.1, hprog.trans ih.2⟩

/-- Settles O58: a response ends a step's chain of lines, and each effect keeps the logs and the program. -/
theorem oneResponsePerCommand : Obligations.OneResponsePerCommand := by
  intro s t h
  obtain ⟨s0, hissue, heffects⟩ := step_effects h
  have hresponse : noReset s0 = true → OneResponse s0 t := fun hr => (effects_oneResponse hr heffects).1
  have hprogram := effects_sameProgram heffects
  cases hissue with
  | goesOn =>
    refine ⟨hprogram, fun hr => ⟨?_, (hresponse hr).buslog⟩⟩
    exact (hresponse hr).rsp.imp (fun ⟨hrsp, hpc, _⟩ => ⟨hrsp, hpc⟩) And.right
  | next =>
    refine ⟨hprogram, fun hr => ⟨?_, (hresponse hr).buslog⟩⟩
    exact (hresponse hr).rsp.imp (fun ⟨hrsp, hpc, _⟩ => ⟨hrsp, hpc⟩) And.right

/-! ### The host's side port and the pin levels -/

/-- Settles O12: the host's turn between two commands is one write of the buffer (R45). -/
theorem hostSidePortWritesOneByte : Obligations.HostSidePortWritesOneByte := by
  intro s rest i v hwf hu hi hp
  refine ⟨bufWrite i v { s with plan := rest }, ?_, fun j => ?_, rfl⟩
  · simp [step, stepState, hp, betweenCommands, agentTurn, hu, hi]
  · split
    next hj => rw [hj]; exact Memory.read_write_same s.buf i v hwf
    next hj => exact Memory.read_write_other s.buf i j v hj

/-- The level of a pin where the model of `IN` is not free, as R41 has it: an output's, then an input's. -/
theorem pinLevel_instantaneous (d l : Bool) (e : Drive) (x : Bool) :
    pinLevel .instantaneous d l e x =
      if d = true then
        if e = .Z ∨ (e = .L ∧ l = false) ∨ (e = .H ∧ l = true) then l else x
      else if e = .L then false
      else if e = .H then true
      else if l = true then true
      else x := by
  cases d with
  | true => cases e <;> cases l <;> rfl
  | false => cases e <;> cases l <;> rfl

/-- Settles O26: the byte read is assembled from the level of each pin (R33, R41). -/
theorem pinLevelOfARead : Obligations.PinLevelOfARead := by
  intro s p n
  refine ⟨rfl, ?_⟩
  simp only [regRead, inByte, testBit_byteOf, pinPair]
  split
  next h => rw [h]; rfl
  next h =>
    have hmodel : s.par.inModel = .instantaneous := by cases hm : s.par.inModel <;> simp_all
    rw [hmodel]
    exact pinLevel_instantaneous ..

/-! ### The interrupt flag -/

theorem busEffect_flag {s t : State} (h : BusEffect s t) :
    (t.ctrl.int = true → s.ctrl.int = true) ∧ t.buslog = s.buslog ∧ t.twCode = s.twCode := by
  cases h with
  | regs => exact ⟨id, rfl, rfl⟩
  | ctrl => exact ⟨fun h => (Bool.false_ne_true h).elim, rfl, rfl⟩

theorem lineEffect_flag {s t : State} (h : LineEffect s t) :
    (t.ctrl.int = true → s.ctrl.int = true) ∧ t.buslog = s.buslog ∧ t.twCode = s.twCode := by
  cases h with
  | write h =>
    have hflag := busEffect_flag h
    exact hflag
  | _ => exact ⟨id, rfl, rfl⟩

/-- A control write that waits lets the engine do the pending stop at most, which does not set the flag (R205). -/
theorem ctrlWriteWaiting_flag (w : CtrlWord) {s : State} (hs : EngineOk s) :
    (ctrlWriteWaiting w s).Leaves fun t => t.ctrl.int = true → s.ctrl.int = true := by
  obtain ⟨-, hstop, -⟩ := hs
  refine ctrlWriteWaiting_keeps (fun _ => id) (fun n t hphase h => ?_)
    (fun u _ hu h hint => hu ((busEffect_flag ((ctrlWrite_yields w u).done h)).1 hint))
  obtain ⟨-, -, hstep⟩ := engineStep_cases h
  have hpend : s.pending = .stop := hstop.mp hphase
  rcases hstep with ⟨hp, -⟩ | ⟨-, rfl⟩ | ⟨hp, -⟩ | ⟨hp, -⟩ | ⟨hp, -⟩
  · exact absurd (hpend.symm.trans hp) (by decide)
  · exact id
  all_goals exact absurd (hpend.symm.trans hp) (by decide)

theorem busOp_flag (op : BusOp) {s : State} (hs : EngineOk s) :
    (busOp op s).Leaves fun t => t.ctrl.int = true → s.ctrl.int = true := by
  rcases busOp_yields op s with ⟨w, h⟩ | h
  · rw [h]; exact ctrlWriteWaiting_flag w hs
  · exact h.leaves id fun _ ht => (busEffect_flag ht).1

theorem agentTurn_flag {a : Turn} (ha : a ≠ .engine) {s : State} (hs : EngineOk s) :
    (agentTurn a s).Leaves fun t => t.ctrl.int = true → s.ctrl.int = true := by
  cases a with
  | seq => exact id
  | engine => exact absurd rfl ha
  | pad p n e => exact (busEffect_flag (setPort_busEffect s p _)).1
  | other op =>
    simp only [agentTurn]
    split
    · exact orPass_leaves (busOp_flag op hs)
    · exact id
  | host i v =>
    simp only [agentTurn]
    split <;> exact id
  | reset => exact fun h => (Bool.false_ne_true h).elim

/-- Settles O54: every effect of a line, and every turn but the engine's, leaves the flag or clears it. -/
theorem onlyTheEngineSetsTheFlag : Obligations.OnlyTheEngineSetsTheFlag := by
  refine ⟨fun l s t h => lineEffect_flag ((lineStep_yields l s).done h), fun a s t hs ha h => ?_⟩
  have hleaves := agentTurn_flag ha hs
  rw [h] at hleaves
  exact hleaves

/-! ### Refusals at the first line -/

/-- A command that no other agent interrupts is refused where its first line is. -/
theorem perform_refused {code : Lines} {l : Line} {s : State} {r : Refusal} (hu : s.upc = 0) (hp : s.plan = [])
    (hl : code[0]? = some l) (hr : lineStep l { s with upc := 1 } = .refused r) : perform code s = .refused r := by
  rw [perform_start hu hp]
  exact run_refused (k := 4095) Nat.one_ne_zero (turn_refused hp (lineAt_of (u := 0) rfl hl) hr)

/-- The data register is not written while the flag is 0 (R37, R68). -/
theorem lineStep_storeData_refused {s : State} (h : s.ctrl.int = false) (v : Src) :
    lineStep (.store .twData v) s = .refused .dataWriteWhileBusy := by
  simp [lineStep, regWrite, thenNext, h]

/-- A control write is refused while an operation other than a stop is pending (R201). -/
theorem lineStep_ctrl_refused {s : State} (hphase : s.phase ≠ .stop) (hpend : s.pending ≠ .none) (w : CtrlWord) :
    lineStep (.ctrl w) s = .refused .ctrlWriteWhilePending := by
  simp [lineStep, ctrlWrite, thenNext, hphase, hpend]

theorem ifFits_of_le {par : Params} {length : Byte} {code : Lines} (h : length.toNat ≤ par.bufSize) :
    ifFits par length code = code := if_pos h

theorem ifFits_of_lt {par : Params} {length : Byte} {code : Lines} (h : par.bufSize < length.toNat) :
    ifFits par length code = [.refuse .lengthExceedsBuffer] := if_neg (Nat.not_le_of_lt h)

/-- A transaction whose payload exceeds the buffer is refused (R86). -/
theorem perform_ifFits_refused {s : State} {length : Byte} (code : Lines) (hu : s.upc = 0) (hp : s.plan = [])
    (h : s.par.bufSize < length.toNat) :
    perform (ifFits s.par length code) s = .refused .lengthExceedsBuffer := by
  rw [ifFits_of_lt h]
  exact perform_refused hu hp rfl rfl

/-- Settles O51: the first line of each command is the one refused. -/
theorem twiCommandsRefusedAtEntry : Obligations.TwiCommandsRefusedAtEntry := by
  intro s rsz slave length reg more v hu hp
  refine ⟨fun hint => ?_, fun hlen => ?_, fun hphase hpend => ?_⟩
  · have hdata := fun x => lineStep_storeData_refused (s := { s with upc := 1 }) hint x
    refine ⟨perform_refused hu hp rfl (hdata _), ?_⟩
    cases rsz <;> exact perform_refused hu hp rfl (hdata _)
  · exact ⟨perform_ifFits_refused _ hu hp hlen, perform_ifFits_refused _ hu hp hlen⟩
  · have hctrl := fun w => lineStep_ctrl_refused (s := { s with upc := 1 }) hphase hpend w
    refine ⟨perform_refused hu hp rfl (hctrl _), perform_refused hu hp rfl (hctrl _),
      perform_refused hu hp rfl (hctrl _), fun hlen => ?_⟩
    constructor
    · exact perform_refused hu hp (by rw [twwrmemLines, ifFits_of_le hlen]; rfl) (hctrl _)
    · exact perform_refused hu hp (by rw [twrdmemLines, ifFits_of_le hlen]; rfl) (hctrl _)

/-! ### Commands that no other agent interrupts -/

theorem lineStep_plan {l : Line} {s t : State} (h : lineStep l s = .done t) : t.plan = s.plan :=
  (lineEffect_program ((lineStep_yields l s).done h)).2

/-- What the lines of a command, the engine's steps and the draws keep, the command keeps where no other agent has a
turn. -/
theorem run_alone {P : State → Prop} {code : Lines}
    (hline : ∀ l s t, lineAt code s = some l → s.upc ≠ 0 → P s → lineStep l s = .done t → P t)
    (hengine : ∀ s t, P s → engineStep s = .done t → P t) (hdraw : ∀ s n, P s → P { s with draws := n })
    {k : Nat} {s t : State} (hp : s.plan = []) (hs : P s) (h : run k code s = .next t) : P t := by
  refine (run_keeps (P := fun x => x.plan = [] ∧ P x) ?_ ?_ k s t ⟨hp, hs⟩ h).2
  · rintro s t ⟨hp, hs⟩ hu ht
    rcases turn_cases ht with ⟨l, s0, hl, hs0, hdone⟩ | ⟨l, s1, -, -, hheld, hc⟩ | ⟨a, rest, hp', -⟩
    · have hseq : ∀ rest, s.plan ≠ .seq :: rest := by simp [hp]
      obtain rfl : s0 = s := hs0.resolve_right fun ⟨rest, hp', _⟩ => hseq rest hp'
      have hdone := hdone.resolve_right fun ⟨⟨rest, hp'⟩, _⟩ => hseq rest hp'
      exact ⟨(lineStep_plan hdone).trans hp, hline l s0 t hl hu hs hdone⟩
    · obtain rfl := lineStep_held hheld
      obtain ⟨n, hn⟩ := engineChance_done hc
      exact ⟨(engineStep_frame hn).plan.trans hp, hengine _ t (hdraw s1 n hs) hn⟩
    · simp [hp] at hp'
  · rintro s t ⟨hp, hs⟩ - ht
    obtain ⟨-, l, -, -, hc⟩ := turn_waits_cases ht
    obtain ⟨n, rfl⟩ := engineChance_held hc
    exact ⟨hp, hdraw s n hs⟩

theorem perform_alone {P : State → Prop} {code : Lines}
    (hline : ∀ l s t, lineAt code s = some l → s.upc ≠ 0 → P s → lineStep l s = .done t → P t)
    (hengine : ∀ s t, P s → engineStep s = .done t → P t) (hdraw : ∀ s n, P s → P { s with draws := n })
    {s t : State} (hp : s.plan = []) (hstart : s.upc = 0 → P { s with upc := 1 }) (hs : s.upc ≠ 0 → P s)
    (h : perform code s = .next t) : P t := by
  unfold perform at h
  split at h
  next hu => exact run_alone (P := P) hline hengine hdraw (s := { s with upc := 1 }) hp (hstart hu) h
  next hu => exact run_alone hline hengine hdraw hp (hs hu) h

/-! ### The frame of the TWI commands -/

/-- The lines TWI commands are made of; whether stores in the buffer and changes of the loop index are among them (R160
to R183). -/
@[simp] def Line.isTwi (stores counts : Bool) : Line → Bool
  | .store r _ => r == .twData
  | .putBuf => stores
  | .clearCnt | .incCnt => counts
  | .ctrl _ | .poll | .status | .takeData | .branch _ _ | .skip _ | .back _ | .respond _ _
  | .refuse _ => true
  | .snapD _ _ | .snapL _ _ | .bitSet _ _ | .bitClear _ _ | .fetch _ | .putSet _ _ | .putClear _ _
  | .load _ => false

/-- All lines of a piece of pseudocode are lines of the TWI. -/
def TwiLines (stores counts : Bool) (code : Lines) : Prop := ∀ l ∈ code, l.isTwi stores counts = true

section
variable {b c : Bool}

@[simp] theorem twiLines_nil : TwiLines b c [] := by simp [TwiLines]

@[simp] theorem twiLines_cons (l : Line) (code : Lines) :
    TwiLines b c (l :: code) ↔ l.isTwi b c = true ∧ TwiLines b c code := by simp [TwiLines]

@[simp] theorem twiLines_append (code rest : Lines) :
    TwiLines b c (code ++ rest) ↔ TwiLines b c code ∧ TwiLines b c rest := by simp [TwiLines, or_imp, forall_and]

@[simp] theorem twiLines_ifThen (d : Cond) (body : Lines) : TwiLines b c (ifThen d body) ↔ TwiLines b c body := by
  simp [ifThen]

@[simp] theorem twiLines_ifElse (d : Cond) (body other : Lines) :
    TwiLines b c (ifElse d body other) ↔ TwiLines b c body ∧ TwiLines b c other := by simp [ifElse]

@[simp] theorem twiLines_whileLoop (d : Cond) (body : Lines) :
    TwiLines b c (whileLoop d body) ↔ TwiLines b c body := by simp [whileLoop]

@[simp] theorem twiLines_startLines : TwiLines b c startLines := by simp [startLines]

@[simp] theorem twiLines_stopLines : TwiLines b c stopLines := by simp [stopLines]

@[simp] theorem twiLines_txLines (v : Src) : TwiLines b c (txLines v) := by simp [txLines]

@[simp] theorem twiLines_rxLines (more : Bool) : TwiLines b c (rxLines more) := by simp [rxLines]

@[simp] theorem twiLines_regaLines (par : Params) (rsz : RegSize) (reg : BitVec 16) :
    TwiLines b c (regaLines par rsz reg) := by
  cases rsz with
  | w8 => exact twiLines_txLines _
  | w16 => simp [regaLines]

@[simp] theorem twiLines_abortAndRespond (k : Nat) : TwiLines b c (abortAndRespond k) := by
  simp [abortAndRespond, respondStatus]

@[simp] theorem twiLines_abortInside (par : Params) (k : Nat) : TwiLines b c (abortInside par k) := by
  simp [abortInside, respondStatus]

@[simp] theorem twiLines_expect (v : Byte) (fail : OnFail) (rest : Lines) :
    TwiLines b c (expect v fail rest) ↔ TwiLines b c (fail rest.length) ∧ TwiLines b c rest := by simp [expect]

theorem twiLines_wrmemLines (par : Params) (rsz : RegSize) (slave : BitVec 7) (length : Byte)
    (reg : BitVec 16) {fail : OnFail} {rest : Lines} (hf : ∀ k, TwiLines b true (fail k))
    (hr : TwiLines b true rest) : TwiLines b true (wrmemLines par rsz slave length reg fail rest) := by
  simp [wrmemLines, sendPayload, hf, hr]

theorem twiLines_readPhase (par : Params) (slave : BitVec 7) (length : Byte) :
    TwiLines true true (readPhase par slave length) := by
  simp [readPhase, receiveLoop, respondOk]

theorem twiLines_ifFits (par : Params) (length : Byte) {code : Lines} (h : TwiLines b c code) :
    TwiLines b c (ifFits par length code) := by
  unfold ifFits
  split
  · exact h
  · simp

end

/-- The one command that stores in the buffer (R183). -/
def storesInBuf : Instr → Bool
  | .twrdmem _ _ _ _ => true
  | _ => false

theorem commandLines_twi (par : Params) {i : Instr} (hi : isTwi i = true) :
    TwiLines (storesInBuf i) true (commandLines par i) := by
  cases i with
  | twstart => simp [commandLines, twstartLines, respondStatus]
  | twstop => simp [commandLines, twstopLines]
  | twtx v => simp [commandLines, twtxLines, respondStatus]
  | twrx more => simp [commandLines, twrxLines]
  | twrega rsz reg => simp [commandLines, twregaLines, respondStatus]
  | twwrmem rsz slave n reg =>
    refine twiLines_ifFits _ _ (twiLines_wrmemLines _ _ _ _ _ twiLines_abortAndRespond ?_)
    unfold stopIfPayload
    split <;> simp [respondOk]
  | twrdmem rsz slave n reg =>
    exact twiLines_ifFits _ _ ((twiLines_append ..).mpr
      ⟨twiLines_wrmemLines _ _ _ _ _ (twiLines_abortInside par) twiLines_nil, twiLines_readPhase par slave n⟩)
  | cwStart => exact twiLines_nil
  | cwStop => exact twiLines_nil
  | cwXferNack => exact twiLines_nil
  | cwXferAck => exact twiLines_nil
  | _ => cases hi

/-- The state without what the engine and such lines may change (R181, R183). -/
def twiMasked (stores counts : Bool) (s : State) : State :=
  { engineMasked s with
    st := 0, rxb := 0, pc := 0, upc := 0, rsp := [], buf := if stores then [] else s.buf,
    cnt := if counts then 0 else s.cnt }

theorem EngineFrame.twiMasked {s t : State} (h : EngineFrame s t) (b c : Bool) :
    twiMasked b c t = twiMasked b c s :=
  (congrArg (Machine.twiMasked b c) h.masked :)

theorem ctrlWrite_engineMasked {w : CtrlWord} {s t : State} (h : ctrlWrite w s = .done t) :
    engineMasked t = engineMasked s := by
  rcases ctrlWrite_cases w s with ⟨-, e⟩ | ⟨-, -, e⟩ | ⟨-, e⟩ <;> rw [e] at h <;> cases h
  rfl

theorem thenNext_done {a : Attempt} {t : State} (h : thenNext a = .done t) : ∃ u, a = .done u ∧ t = goto 1 u := by
  cases a <;> cases h
  exact ⟨_, rfl, rfl⟩

theorem lineStep_twiMasked {b c : Bool} {l : Line} (hl : l.isTwi b c = true) {s t : State}
    (h : lineStep l s = .done t) : twiMasked b c t = twiMasked b c s := by
  cases l with
  | store r v =>
    obtain rfl : r = .twData := by simpa using hl
    obtain ⟨u, hu, rfl⟩ := thenNext_done h
    simp only [regWrite] at hu
    split at hu <;> cases hu
    rfl
  | ctrl w =>
    obtain ⟨u, hu, rfl⟩ := thenNext_done h
    exact (congrArg (twiMasked b c) (ctrlWrite_engineMasked hu) :)
  | poll =>
    simp only [lineStep] at h
    split at h <;> cases h
    rfl
  | putBuf =>
    obtain rfl : b = true := hl
    simp only [lineStep] at h
    split at h <;> cases h
    rfl
  | status => cases h; rfl
  | takeData => cases h; rfl
  | clearCnt => obtain rfl : c = true := hl; cases h; rfl
  | incCnt => obtain rfl : c = true := hl; cases h; rfl
  | branch d k => cases h; rfl
  | skip k => cases h; rfl
  | back k => cases h; rfl
  | respond v w => cases h; rfl
  | refuse r => cases h
  | _ => cases hl

theorem lineAt_mem {code : Lines} {s : State} {l : Line} (h : lineAt code s = some l) : l ∈ code :=
  List.mem_of_getElem? h

theorem perform_twiMasked {b c : Bool} {code : Lines} (hc : TwiLines b c code) {s t : State} (hp : s.plan = [])
    (h : perform code s = .next t) : twiMasked b c t = twiMasked b c s :=
  perform_alone (P := fun x => twiMasked b c x = twiMasked b c s)
    (fun l _ _ hl _ hs hdone => (lineStep_twiMasked (hc l (lineAt_mem hl)) hdone).trans hs)
    (fun _ _ hs he => ((engineStep_frame he).twiMasked b c).trans hs) (fun _ _ hs => hs) hp (fun _ => rfl)
    (fun _ => rfl) h

/-- The only engine step that writes `TW_DATA` is the data receive, which is not enabled in phase STOP (R208). -/
theorem engineStep_twData {s t : State} (hphase : s.phase = .stop) (h : engineStep s = .done t) :
    t.twData = s.twData := by
  obtain ⟨-, -, hstep⟩ := engineStep_cases h
  rcases hstep with ⟨-, rfl⟩ | ⟨-, rfl⟩ | ⟨-, hp, -⟩ | ⟨-, -, hp, -⟩ | ⟨-, -, -, hp, -⟩
  · refine withFaults_keeps (P := fun x => x.twData = s.twData) (fun n o => ?_) (fun _ _ => rfl) (fun _ _ => rfl)
    rw [engineStart_held (by simp [hphase])]
  · rfl
  all_goals simp [hphase] at hp

/-- A control word by itself changes nothing but the engine and its log, and not `TW_DATA` (R201). -/
theorem performCtrl_frame {w : CtrlWord} {s t : State} (h : performCtrl w s = .next t) :
    engineMasked t = engineMasked s ∧ t.twData = s.twData := by
  have hleaves : (ctrlWriteWaiting w s).Leaves fun x => engineMasked x = engineMasked s ∧ x.twData = s.twData := by
    refine ctrlWriteWaiting_keeps (fun _ => ⟨rfl, rfl⟩) (fun n t hphase ht => ?_) (fun u t hu ht => ?_)
    · exact ⟨(engineStep_frame ht).masked, engineStep_twData (s := { s with draws := n }) hphase ht⟩
    · refine ⟨(ctrlWrite_engineMasked ht).trans hu.1, ?_⟩
      rcases ctrlWrite_cases w u with ⟨-, e⟩ | ⟨-, -, e⟩ | ⟨-, e⟩ <;> rw [e] at ht <;> cases ht
      exact hu.2
  unfold performCtrl at h
  split at h
  next hw => rw [hw] at hleaves; cases h; exact hleaves
  next hw => rw [hw] at hleaves; cases h; exact hleaves
  next => cases h

/-- Settles O52: each line and each engine step of a TWI command changes only what is masked. -/
theorem twiFrame : Obligations.TwiFrame := by
  intro i s t hi hp h
  have hframe : twiMasked (storesInBuf i) true t = twiMasked (storesInBuf i) true s ∧
      (isCtrlWord i = true → t.rsp = s.rsp ∧ t.pc = s.pc ∧ t.upc = s.upc ∧ t.twData = s.twData) := by
    cases hw : isCtrlWord i with
    | false =>
      rw [exec_command hw] at h
      exact ⟨perform_twiMasked (commandLines_twi s.par hi) hp h, Bool.noConfusion⟩
    | true =>
      obtain ⟨w, rfl⟩ := ctrlInstr_of_isCtrlWord hw
      rw [exec_ctrlInstr] at h
      obtain ⟨hmask, hdata⟩ := performCtrl_frame h
      exact ⟨(congrArg (twiMasked _ _) hmask :), fun _ =>
        ⟨(congrArg State.rsp hmask :), (congrArg State.pc hmask :), (congrArg State.upc hmask :), hdata⟩⟩
  obtain ⟨hmask, hctrl⟩ := hframe
  refine ⟨⟨(congrArg State.portB hmask :), (congrArg State.portC hmask :), (congrArg State.portD hmask :)⟩,
    (congrArg State.ps hmask :), (congrArg State.twBitrate hmask :), (congrArg State.snapD hmask :),
    (congrArg State.snapL hmask :), (congrArg State.tmp hmask :), (congrArg State.cmd hmask :),
    ⟨(congrArg State.par hmask :), (congrArg State.prog hmask :)⟩, fun hne => ?_, hctrl⟩
  have hstores : storesInBuf i = false := by
    cases i with
    | twrdmem rsz slave length reg => exact absurd rfl (hne rsz slave length reg)
    | _ => rfl
  rw [hstores] at hmask
  have hbuf : t.buf = s.buf := (congrArg State.buf hmask :)
  exact ⟨hbuf, fun a => by rw [bufRead, hbuf, bufRead]⟩

/-! ### The stores of TWRDMEM -/

/-- Where a line of a program with one counting loop stands: before the loop, at its head, in its body, at the count, at
the jump back, or after the loop. -/
theorem getElem?_countingLoop {pre body post : Lines} {d : Cond} {u : Nat} {l : Line}
    (h : (pre ++ whileLoop d (body ++ [.incCnt]) ++ post)[u]? = some l) :
    (u < pre.length ∧ pre[u]? = some l) ∨
    (u = pre.length ∧ l = .branch d (body.length + 2)) ∨
    (pre.length < u ∧ u ≤ pre.length + body.length ∧ l ∈ body) ∨
    (u = pre.length + body.length + 1 ∧ l = .incCnt) ∨
    (u = pre.length + body.length + 2 ∧ l = .back (body.length + 2)) ∨
    (pre.length + body.length + 2 < u ∧ l ∈ post) := by
  have hloop : pre ++ whileLoop d (body ++ [.incCnt]) ++ post =
      pre ++ .branch d (body.length + 2) :: (body ++ .incCnt :: .back (body.length + 2) :: post) := by
    simp [whileLoop]
  rw [hloop] at h
  simp only [List.getElem?_append, List.getElem?_cons] at h
  split_ifs at h with hpre hhead hbody hcount hback
  · exact .inl ⟨hpre, h⟩
  · exact .inr (.inl ⟨by omega, (Option.some.inj h).symm⟩)
  · exact .inr (.inr (.inl ⟨by omega, by omega, List.mem_of_getElem? h⟩))
  · exact .inr (.inr (.inr (.inl ⟨by omega, (Option.some.inj h).symm⟩)))
  · exact .inr (.inr (.inr (.inr (.inl ⟨by omega, (Option.some.inj h).symm⟩))))
  · exact .inr (.inr (.inr (.inr (.inr ⟨by omega, List.mem_of_getElem? h⟩))))

/-- Pseudocode with one loop that counts below `n`: nothing stores but the loop's body, which leaves the count alone,
and only the loop's head leads into the body. -/
structure StoresInLoop (n : Nat) (code pre body post : Lines) : Prop where
  code_eq : code = pre ++ whileLoop (.cntBelow n) (body ++ [.incCnt]) ++ post
  pre_lines : TwiLines false true pre
  pre_closed : ClosedWith 1 pre
  body_lines : TwiLines true false body
  post_lines : TwiLines false true post
  post_forward : ∀ l ∈ post, ∀ s t, lineStep l s = .done t → t.upc = 0 ∨ s.upc ≤ t.upc

/-- Where the sequencer is in the loop's body, lines `lo` to `hi`, the count is below `n`; and from index `n` on
the buffer reads as in `s`. -/
structure StoresBelow (n lo hi : Nat) (s t : State) : Prop where
  guarded : lo ≤ t.upc → t.upc ≤ hi → t.cnt.toNat < n
  buf : ∀ a, n ≤ a → bufRead a t = bufRead a s

theorem bufRead_of_buf {s t : State} (h : t.buf = s.buf) (a : Nat) : bufRead a t = bufRead a s := by
  rw [bufRead, h, bufRead]

/-- A line that is not in the body stores nothing, and leads into the body if the count is below `n` only. -/
theorem StoresBelow.outside {n lo hi : Nat} {r s t : State} {l : Line} (hs : StoresBelow n lo hi r s)
    (hl : l.isTwi false true = true) (h : lineStep l s = .done t)
    (hg : lo ≤ t.upc → t.upc ≤ hi → t.cnt.toNat < n) : StoresBelow n lo hi r t :=
  ⟨hg, fun a ha => (bufRead_of_buf (congrArg State.buf (lineStep_twiMasked hl h) :) a).trans (hs.buf a ha)⟩

/-- A line of the body keeps the count, and stores at the count. -/
theorem StoresBelow.inside {n lo hi : Nat} {r s t : State} {l : Line} (hs : StoresBelow n lo hi r s)
    (hlo : lo ≤ s.upc) (hhi : s.upc ≤ hi) (hl : l.isTwi true false = true) (h : lineStep l s = .done t) :
    StoresBelow n lo hi r t := by
  have hlt := hs.guarded hlo hhi
  have hcnt : t.cnt = s.cnt := (congrArg State.cnt (lineStep_twiMasked hl h) :)
  refine ⟨fun _ _ => by rwa [hcnt], fun a ha => ?_⟩
  by_cases hput : l = .putBuf
  · subst hput
    simp only [lineStep] at h
    split at h <;> cases h
    exact (Memory.read_write_other _ _ _ _ (by omega)).trans (hs.buf a ha)
  · have hl' : l.isTwi false false = true := by cases l <;> simp_all
    exact (bufRead_of_buf (congrArg State.buf (lineStep_twiMasked hl' h) :) a).trans (hs.buf a ha)

theorem StoresInLoop.line {n : Nat} {code pre body post : Lines} (hc : StoresInLoop n code pre body post)
    {r s t : State} {l : Line} (hl : lineAt code s = some l)
    (hs : StoresBelow n (pre.length + 2) (pre.length + body.length + 1) r s) (h : lineStep l s = .done t) :
    StoresBelow n (pre.length + 2) (pre.length + body.length + 1) r t := by
  rw [lineAt, hc.code_eq] at hl
  rcases getElem?_countingLoop hl with
    ⟨-, hl⟩ | ⟨hat, rfl⟩ | ⟨hfirst, hlast, hl⟩ | ⟨hat, rfl⟩ | ⟨hat, rfl⟩ | ⟨hafter, hl⟩
  · have hmove := lineStep_leaves l s
    rw [h] at hmove
    have hupc : t.upc ≤ s.upc + l.reach := hmove.upc
    have hreach := hc.pre_closed.reach_le hl
    exact hs.outside (hc.pre_lines l (List.mem_of_getElem? hl)) h (by omega)
  · refine hs.outside rfl h fun hfirst hlast => ?_
    cases h
    by_cases hcond : condHolds s (.cntBelow n) = true
    · simpa [condHolds] using hcond
    · rw [goto_upc, if_neg hcond] at hlast
      omega
  · exact hs.inside (by omega) (by omega) (hc.body_lines l hl) h
  · refine hs.outside rfl h fun _ hlast => ?_
    cases h
    simp only [goto_upc] at hlast
    omega
  · refine hs.outside rfl h fun hfirst _ => ?_
    cases h
    simp only at hfirst
    omega
  · refine hs.outside (hc.post_lines l hl) h fun hfirst hlast => ?_
    rcases hc.post_forward l hl s t h with h0 | hle <;> omega

/-- A command with such a loop, from its first line on, changes no byte of the buffer from index `n` on. -/
theorem StoresInLoop.perform {n : Nat} {code pre body post : Lines} (hc : StoresInLoop n code pre body post)
    {s t : State} (hp : s.plan = []) (hu : s.upc = 0) (h : perform code s = .next t) (a : Nat) (ha : n ≤ a) :
    bufRead a t = bufRead a s := by
  refine StoresBelow.buf (perform_alone (P := StoresBelow n (pre.length + 2) (pre.length + body.length + 1) s)
    (fun _ _ _ hl _ hs hdone => hc.line hl hs hdone) (fun x y hx he => ?_) (fun _ _ hx => ⟨hx.1, hx.2⟩) hp
    (fun _ => ⟨fun hfirst => ?_, fun _ _ => rfl⟩) (absurd hu) h) a ha
  · have hframe := (engineStep_frame he).masked
    have hupc : y.upc = x.upc := (congrArg State.upc hframe :)
    have hcnt : y.cnt = x.cnt := (congrArg State.cnt hframe :)
    exact ⟨by rw [hupc, hcnt]; exact hx.guarded,
      fun a ha => (bufRead_of_buf (congrArg State.buf hframe :) a).trans (hx.buf a ha)⟩
  · simp only at hfirst
    omega

/-- Steps 3 to 7 of `rdmem`, up to the loop (R183). -/
def readHead (par : Params) (slave : BitVec 7) : Lines :=
  startLines ++ ifThen (.stIsNot par.st.rstart) (abortAndRespond 0) ++ txLines (.lit (addressByte slave .R)) ++
    ifThen (.stIsNot par.st.slarAck) (abortAndRespond 0) ++ [.clearCnt]

/-- The loop's body without the count (R183). -/
def receiveBody (par : Params) (length : Byte) : Lines :=
  ifElse (.cntBelow (length.toNat - 1))
      (rxLines true ++ ifThen (.stIsNot par.st.dataRxAck) (abortAndRespond 0))
      (rxLines false ++ ifThen (.stIsNot par.st.dataRxNack) (abortAndRespond 0))
    ++ [.putBuf]

theorem readPhase_eq (par : Params) (slave : BitVec 7) (length : Byte) :
    readPhase par slave length =
      readHead par slave ++ whileLoop (.cntBelow length.toNat) (receiveBody par length ++ [.incCnt]) ++
        (stopLines ++ [respondOk par]) := by
  simp [readPhase, readHead, receiveBody, receiveLoop, expect, abortAndRespond]

theorem closedWith_readHead (par : Params) (slave : BitVec 7) : ClosedWith 1 (readHead par slave) := by
  have habort := fun v => closedWith_ifThen (.stIsNot v) le_rfl (failsInside_abortAndRespond 1 0)
  exact (((closedWith_startLines.append (habort _)).append (closedWith_txLines _)).append (habort _)).append
    ⟨le_rfl, trivial⟩

theorem storesInLoop_twrdmem (par : Params) (rsz : RegSize) (slave : BitVec 7) (length : Byte) (reg : BitVec 16) :
    StoresInLoop length.toNat (wrmemLines par rsz slave 0 reg (abortInside par) [] ++ readPhase par slave length)
      (wrmemLines par rsz slave 0 reg (abortInside par) [] ++ readHead par slave) (receiveBody par length)
      (stopLines ++ [respondOk par]) where
  code_eq := by rw [readPhase_eq]; simp only [List.append_assoc]
  pre_lines := (twiLines_append ..).mpr
    ⟨twiLines_wrmemLines _ _ _ _ _ (twiLines_abortInside par) twiLines_nil, by simp [readHead]⟩
  pre_closed := (closedWith_append ..).mpr
    ⟨closedWith_wrmemLines _ _ _ _ _ (failsInside_abortInside par (Nat.le_add_left ..)) (closedWith_nil _)
      (Nat.le_add_left ..), closedWith_readHead par slave⟩
  body_lines := by simp [receiveBody]
  post_lines := by simp [respondOk]
  post_forward := by
    simp only [stopLines, respondOk, List.singleton_append, List.forall_mem_cons]
    refine ⟨fun s t h => .inr ?_, fun s t h => ?_, by simp⟩
    · obtain ⟨u, hu, rfl⟩ := thenNext_done h
      rw [goto_upc, busEffect_upc ((ctrlWrite_yields .stop s).done hu)]
      exact Nat.le_succ _
    · cases h; exact .inl rfl

/-- Settles O53: the count guards the store, and a payload that does not fit is refused. -/
theorem twrdmemStoresInsideItsPayload : Obligations.TwrdmemStoresInsideItsPayload := by
  intro rsz slave length reg s t hu hp h a ha
  rw [exec_command rfl, commandLines, twrdmemLines] at h
  rcases Nat.lt_or_ge s.par.bufSize length.toNat with hlen | hlen
  · rw [perform_ifFits_refused _ hu hp hlen] at h
    cases h
  · rw [ifFits_of_le hlen] at h
    exact (storesInLoop_twrdmem s.par rsz slave length reg).perform hp hu h a ha

end Sys2Proof.Machine
end

/-! SUPPORT. The register bus (R60 to R75): what a read shows, what a write and a bit operation of `Other` or of a
command leave, where they are refused, and how a bit operation of a command and one of `Other` interleave. -/

section
namespace Sys2Proof.Machine

/-! ### What a read shows -/

/-- The flags stand at distinct positions (R8), so each shows alone (R69). -/
theorem ctrlByte_bit {par : Params} (h : paramsOk par = true) (c : TwCtrl) (n : BitIx) :
    testBit (ctrlByte par.bits c) n =
      if n = par.bits.int then c.int else if n = par.bits.ea then c.ea else if n = par.bits.sta then c.sta
      else if n = par.bits.sto then c.sto else if n = par.bits.wc then c.wc else if n = par.bits.en then c.en
      else if n = par.bits.ie then c.ie else false := by
  have hb := paramsOk_bits h
  simp only [ctrlBitList, List.nodup_cons, List.mem_cons, List.not_mem_nil, or_false, not_or] at hb
  simp only [ctrlByte, testBit_or, testBit_flagAt]
  split_ifs <;> simp_all

theorem statusByte_toNat (s : State) : (statusByte s).toNat = s.twCode.toNat * 8 + s.ps.toNat := by
  have hps : s.ps.toNat < 2 ^ 2 := s.ps.isLt
  rw [statusByte, BitVec.toNat_append, BitVec.toNat_append, ← Nat.shiftLeft_add_eq_or_of_lt hps]
  simp [Nat.shiftLeft_eq, Nat.mul_assoc]

/-- Settles O13: the flags stand at distinct positions, and only a read of `IN` draws (R36, R69). -/
theorem controlAndStatusReadBack : Obligations.ControlAndStatusReadBack :=
  fun s h => ⟨ctrlByte_bit h s.ctrl, statusByte_toNat s, rfl, rfl⟩

theorem regRead_plain_state {r : Reg} (h : plainStorage r = true) (s : State) : (regRead r s).2 = s := by
  cases r with
  | input p => cases h
  | _ => rfl

/-- What a read shows does not depend on the plan or on the sequencer (R60). -/
theorem regRead_sequencer (r : Reg) (plan : List Turn) (upc : Nat) (tmp : Byte) (s : State) :
    (regRead r { s with plan := plan, upc := upc, tmp := tmp }).1 = (regRead r s).1 := by
  cases r <;> rfl

theorem regRead_draws {r : Reg} (h : ∀ p, r ≠ .input p) (s : State) : (regRead r s).2.draws = s.draws := by
  cases r with
  | input p => exact absurd rfl (h p)
  | _ => rfl

@[simp] theorem regRead_goto (r : Reg) (k : Nat) (s : State) : (regRead r (goto k s)).1 = (regRead r s).1 := by
  cases r <;> rfl

@[simp] theorem regRead_respond (r : Reg) (c d : Byte) (s : State) :
    (regRead r (respond c d s)).1 = (regRead r s).1 := by
  cases r <;> rfl

/-! ### What a store in a plain-storage register leaves alone -/

@[simp] theorem storeReg_par (r : Reg) (v : Byte) (s : State) : (storeReg r v s).par = s.par := by
  cases r <;> simp [storeReg]

@[simp] theorem storeReg_plan (r : Reg) (v : Byte) (s : State) : (storeReg r v s).plan = s.plan := by
  cases r <;> simp [storeReg]

@[simp] theorem storeReg_upc (r : Reg) (v : Byte) (s : State) : (storeReg r v s).upc = s.upc := by
  cases r <;> simp [storeReg]

@[simp] theorem storeReg_pc (r : Reg) (v : Byte) (s : State) : (storeReg r v s).pc = s.pc := by
  cases r <;> simp [storeReg]

@[simp] theorem storeReg_rsp (r : Reg) (v : Byte) (s : State) : (storeReg r v s).rsp = s.rsp := by
  cases r <;> simp [storeReg]

@[simp] theorem storeReg_tmp (r : Reg) (v : Byte) (s : State) : (storeReg r v s).tmp = s.tmp := by
  cases r <;> simp [storeReg]

/-- A store does not touch the plan or the sequencer (R60). -/
theorem storeReg_sequencer (r : Reg) (v : Byte) (plan : List Turn) (upc : Nat) (tmp : Byte) (s : State) :
    storeReg r v { s with plan := plan, upc := upc, tmp := tmp } =
      { storeReg r v s with plan := plan, upc := upc, tmp := tmp } := by
  cases r with
  | dir p => cases p <;> rfl
  | out p => cases p <;> rfl
  | _ => rfl

/-- A response takes no note of the line the sequencer stood at (R28, R29). -/
theorem respond_storeReg (r : Reg) (v c d : Byte) (u : Nat) (s : State) :
    respond c d (storeReg r v { s with upc := u }) = respond c d (storeReg r v s) := by
  rw [storeReg_sequencer r v s.plan u s.tmp s]
  simp only [respond, storeReg_plan, storeReg_tmp]

theorem testBit_setBit_eq_or (v : Byte) (b n : BitIx) : testBit (setBit v b) n = (decide (n = b) || testBit v n) := by
  rw [testBit_setBit]
  by_cases h : n = b <;> simp [h]

theorem testBit_clearBit_eq_and (v : Byte) (b n : BitIx) :
    testBit (clearBit v b) n = (!decide (n = b) && testBit v n) := by
  rw [testBit_clearBit]
  by_cases h : n = b <;> simp [h]

/-! ### Operations of `Other` -/

section
variable {s t : State} {op : BusOp} {rest : List Turn}

/-- A turn of `Other` that is no write of `TW_CTRL`, between two commands (R74, R75). -/
theorem step_other (hp : s.plan = .other op :: rest) (hop : ∀ a v, op = .write a v → regAt s.par a ≠ some .twCtrl) :
    step s = betweenCommands (.other op) { s with plan := rest } := by
  cases op with
  | write a v =>
    have hturn : ctrlTurn s a v = none := by simp [ctrlTurn, hop a v rfl]
    simp [step, stepState, hp, hturn]
  | _ => simp [step, stepState, hp]

theorem agentTurn_other (ho : s.par.otherPresent = true) : agentTurn (.other op) s = orPass (busOp op s) := by
  simp [agentTurn, ho]

theorem step_other_done (ho : s.par.otherPresent = true) (hp : s.plan = .other op :: rest)
    (hop : ∀ a v, op = .write a v → regAt s.par a ≠ some .twCtrl) (h : busOp op { s with plan := rest } = .done t) :
    step s = .next t := by
  rw [step_other hp hop, betweenCommands, agentTurn_other (s := { s with plan := rest }) ho, h, orPass]

theorem step_other_refused {e : Refusal} (ho : s.par.otherPresent = true) (hp : s.plan = .other op :: rest)
    (hop : ∀ a v, op = .write a v → regAt s.par a ≠ some .twCtrl)
    (h : busOp op { s with plan := rest } = .refused e) : step s = .refused e := by
  rw [step_other hp hop, betweenCommands, agentTurn_other (s := { s with plan := rest }) ho, h, orPass]

end

theorem busOp_write {s : State} {a : Byte} {r : Reg} (h : regAt s.par a = some r) (hr : r ≠ .twCtrl) (v : Byte) :
    busOp (.write a v) s = regWrite r v s := by
  cases r with
  | twCtrl => exact absurd rfl hr
  | _ => simp only [busOp, h]

theorem busOp_bitSet {s : State} {a : Byte} {r : Reg} (h : regAt s.par a = some r) (b : BitIx) :
    busOp (.bitSet a b) s = bitSetReg r b s := by simp only [busOp, h]

theorem busOp_bitClear {s : State} {a : Byte} {r : Reg} (h : regAt s.par a = some r) (b : BitIx) :
    busOp (.bitClear a b) s = bitClearReg r b s := by simp only [busOp, h]

/-- None of the four operations has an effect outside the 13 registers (R61). -/
theorem busOp_unmapped {s : State} {a : Byte} (h : regAt s.par a = none) (b : BitIx) (v : Byte) :
    ∀ op ∈ [BusOp.read a, .write a v, .bitSet a b, .bitClear a b], busOp op s = .refused .unmappedAddress := by
  simp [busOp, h]

theorem ne_twCtrl_of_plainStorage {r : Reg} (h : plainStorage r = true) : r ≠ .twCtrl := by
  rintro rfl; cases h

/-- Settles O14, register by register (R62 to R68); what plain storage then reads as is what was stored. -/
theorem registerWriteEffects : Obligations.RegisterWriteEffects := by
  intro s rest r v hok ho hr hp
  have hat := regAt_regAddr hok r
  have hop : ∀ a w, BusOp.write (regAddr s.par r) v = .write a w → regAt s.par a ≠ some .twCtrl := by
    rintro a w ⟨⟩
    simpa [hat] using hr
  have hbus := busOp_write (s := { s with plan := rest }) hat hr v
  have hdone : ∀ t, regWrite r v { s with plan := rest } = .done t → step s = .next t := fun _ h =>
    step_other_done ho hp hop (hbus.trans h)
  refine ⟨?_, fun hplain => ⟨_, hdone _ (regWrite_plain hplain v _), regRead_storeReg hplain v _⟩⟩
  cases r with
  | twCtrl => exact absurd rfl hr
  | twData =>
    cases hint : s.ctrl.int with
    | true => exact hdone _ (if_pos hint)
    | false => exact step_other_refused ho hp hop (hbus.trans (if_neg (by simp [hint])))
  | _ => exact hdone _ rfl

/-! ### Addresses outside the block -/

/-- A command aimed at an address that is none of the 13 is refused at its first line (R61). -/
theorem perform_atAddress_unmapped {s : State} {a : Byte} (h : regAt s.par a = none) (f : Reg → Lines)
    (hu : s.upc = 0) (hp : s.plan = []) : perform (atAddress s.par a f) s = .refused .unmappedAddress := by
  simp only [atAddress, h]
  exact perform_refused hu hp rfl rfl

/-- Settles O15: address decode inverts the register map, and where it finds none every access is refused (R61). -/
theorem addressDecode : Obligations.AddressDecode := by
  refine ⟨fun par r hok => regAt_regAddr hok r, fun s a ha => ?_⟩
  have hat := regAt_eq_none ha
  refine ⟨fun bit hu hp => ⟨perform_atAddress_unmapped hat _ hu hp, perform_atAddress_unmapped hat _ hu hp,
    perform_atAddress_unmapped hat _ hu hp⟩, fun rest bit v ho op hop hp => ?_⟩
  refine step_other_refused ho hp (fun b w e => ?_) (busOp_unmapped (s := { s with plan := rest }) hat bit v op hop)
  obtain ⟨rfl, -⟩ : b = a ∧ w = v := by simpa [e] using hop
  simp [hat]

/-! ### Bit operations of `Other` -/

theorem bitSetReg_refused {r : Reg} (h : plainStorage r = false) (b : BitIx) (s : State) :
    bitSetReg r b s = .refused .bitopOnSideEffectRegister := by simp [bitSetReg, h]

theorem bitClearReg_refused {r : Reg} (h : plainStorage r = false) (b : BitIx) (s : State) :
    bitClearReg r b s = .refused .bitopOnSideEffectRegister := by simp [bitClearReg, h]

/-- Settles O16: a bit operation stores the byte held with one bit changed, or is refused (R71). -/
theorem bitOperationsOfOther : Obligations.BitOperationsOfOther := by
  intro s rest r b hok ho
  have hat := regAt_regAddr hok r
  have hread : (regRead r { s with plan := rest }).1 = (regRead r s).1 := regRead_sequencer r rest s.upc s.tmp s
  constructor
  · intro hp
    have hbus := busOp_bitSet (s := { s with plan := rest }) hat b
    cases hplain : plainStorage r with
    | true =>
      refine ⟨_, step_other_done ho hp (by simp) (hbus.trans (bitSetReg_plain hplain b _)), ?_⟩
      simp [regRead_storeReg hplain, hread, testBit_setBit_eq_or]
    | false => exact step_other_refused ho hp (by simp) (hbus.trans (bitSetReg_refused hplain b _))
  · intro hp
    have hbus := busOp_bitClear (s := { s with plan := rest }) hat b
    cases hplain : plainStorage r with
    | true =>
      refine ⟨_, step_other_done ho hp (by simp) (hbus.trans (bitClearReg_plain hplain b _)), ?_⟩
      simp [regRead_storeReg hplain, hread, testBit_clearBit_eq_and]
    | false => exact step_other_refused ho hp (by simp) (hbus.trans (bitClearReg_refused hplain b _))

/-! ### Turns of a command while others have theirs -/

/-- A planned turn of the sequencer takes its line (R74). -/
theorem Reaches.plannedLine {code : Lines} {s t : State} {rest : List Turn} {u : Nat} {l : Line} (hu : s.upc = u + 1)
    (hp : s.plan = .seq :: rest) (hl : code[u]? = some l) (h : lineStep l { s with plan := rest } = .done t) :
    Reaches code 1 s t :=
  ⟨1, le_rfl, fun _ => run_goesOn (by omega) (by
    simp [turn, hp, sequencerStep, lineAt_of (s := { s with plan := rest }) hu hl, h])⟩

/-- A planned turn of `Other` in the midst of a command (R74, R75). -/
theorem Reaches.other {code : Lines} {s t : State} {rest : List Turn} {op : BusOp} (hu : s.upc ≠ 0)
    (ho : s.par.otherPresent = true) (hp : s.plan = .other op :: rest)
    (h : busOp op { s with plan := rest } = .done t) : Reaches code 1 s t :=
  ⟨1, le_rfl, fun _ => run_goesOn hu (by
    simp [turn, hp, agentTurn_other (s := { s with plan := rest }) ho, h, orPass])⟩

/-- A command of few turns, started by an idle sequencer, answers the idle state that its lines reach (log 27). -/
theorem Reaches.perform {code : Lines} {n : Nat} {s t : State} (hu : s.upc = 0) (ht : t.upc = 0) (hn : n ≤ turnBudget)
    (h : Reaches code n { s with upc := 1 } t) : perform code s = .next t := by
  rw [Machine.perform, if_pos hu]
  exact h.answers ht (hn.trans (Nat.le_add_left ..))

/-- The response at the end of a command (R27). -/
theorem Reaches.respond {code : Lines} {s : State} {u : Nat} {c d : Src} (hu : s.upc = u + 1) (hp : s.plan = [])
    (hl : code[u]? = some (.respond c d)) : Reaches code 1 s (respond (srcVal s c) (srcVal s d) s) :=
  Reaches.line (by omega) hp (lineAt_of hu hl) rfl

/-! ### Bit operations of a command -/

/-- The lines of a bit operation on a register that stores `f` of the byte held: one line, or a read and a write
(R71, R72). -/
inductive BitOpLines (r : Reg) (f : Byte → Byte) : Bool → Lines → Prop
  | oneStep {l : Line} (h : ∀ s, lineStep l s =
      thenNext (if plainStorage r then regWrite r (f (regRead r s).1) s else .refused .bitopOnSideEffectRegister)) :
      BitOpLines r f true [l]
  | twoSteps {l : Line} (h : ∀ s, lineStep l s = thenNext (regWrite r (f s.tmp) s)) :
      BitOpLines r f false [.fetch r, l]

theorem lineStep_fetch {r : Reg} (h : plainStorage r = true) (s : State) :
    lineStep (.fetch r) s = .done (goto 1 { s with tmp := (regRead r s).1 }) := by
  simp [lineStep, h, regRead_plain_state h]

theorem bitSetLines_bitOp (par : Params) (r : Reg) (b : BitIx) :
    BitOpLines r (setBit · b) par.bitopAtomic (bitSetLines par r b) := by
  unfold bitSetLines
  cases par.bitopAtomic with
  | true => exact .oneStep fun _ => rfl
  | false => exact .twoSteps fun _ => rfl

theorem bitClearLines_bitOp (par : Params) (r : Reg) (b : BitIx) :
    BitOpLines r (clearBit · b) par.bitopAtomic (bitClearLines par r b) := by
  unfold bitClearLines
  cases par.bitopAtomic with
  | true => exact .oneStep fun _ => rfl
  | false => exact .twoSteps fun _ => rfl

section
variable {r : Reg} {f : Byte → Byte} {atomic : Bool} {ls code pre post : Lines} {s : State}

/-- A bit operation of a command that no other agent interrupts, wherever it stands in it: the byte is stored; in two
steps, `t` holds what was read (R71, R72). -/
theorem BitOpLines.reaches (h : BitOpLines r f atomic ls) (hr : plainStorage r = true)
    (hcode : code = pre ++ (ls ++ post)) (hp : s.plan = []) (hu : s.upc = pre.length + 1) :
    ∃ x, (atomic = true → x = s.tmp) ∧
      Reaches code 2 s (goto ls.length (storeReg r (f (regRead r s).1) { s with tmp := x })) := by
  subst hcode
  cases h with
  | @oneStep l h =>
    refine ⟨s.tmp, fun _ => rfl, (Reaches.line (l := l) (by omega) hp (lineAt_of hu (by simp)) ?_).mono (by omega)⟩
    rw [h, if_pos hr, regWrite_plain hr]
    rfl
  | @twoSteps l h =>
    refine ⟨(regRead r s).1, Bool.noConfusion, ?_⟩
    have hfetch : Reaches (pre ++ ([.fetch r, l] ++ post)) 1 s (goto 1 { s with tmp := (regRead r s).1 }) :=
      Reaches.line (l := .fetch r) (by omega) hp (lineAt_of hu (by simp)) (lineStep_fetch hr s)
    refine hfetch.trans (Reaches.line (l := l) (by simp) hp
      (lineAt_of (u := pre.length + 1) (by simp [hu]) (by simp)) ?_)
    rw [h, regWrite_plain hr, thenNext]
    cases r with
    | dir p => cases p <;> rfl
    | out p => cases p <;> rfl
    | _ => rfl

/-- A bit operation that is the last thing a command does before its response. -/
theorem BitOpLines.reaches_response {c d : Byte} (h : BitOpLines r f atomic ls) (hr : plainStorage r = true)
    (hcode : code = pre ++ (ls ++ [.respond (.lit c) (.lit d)])) (hp : s.plan = []) (hu : s.upc = pre.length + 1) :
    ∃ x, (atomic = true → x = s.tmp) ∧
      Reaches code 3 s (Machine.respond c d (storeReg r (f (regRead r s).1) { s with tmp := x })) := by
  obtain ⟨x, hx, hreach⟩ := h.reaches hr hcode hp hu
  subst hcode
  exact ⟨x, hx, hreach.trans (Reaches.respond (u := pre.length + ls.length) (c := .lit c) (d := .lit d)
    (by simp; omega) (by simpa using hp) (by simp))⟩

theorem BitOpLines.perform (h : BitOpLines r f atomic ls) (hr : plainStorage r = true) (hu : s.upc = 0)
    (hp : s.plan = []) :
    ∃ x, (atomic = true → x = s.tmp) ∧ perform (ls ++ [.respond (.lit 0) (.lit 0)]) s =
      .next (Machine.respond 0 0 (storeReg r (f (regRead r s).1) { s with tmp := x })) := by
  obtain ⟨x, hx, hreach⟩ := h.reaches_response (pre := []) (s := { s with upc := 1 }) hr rfl hp rfl
  refine ⟨x, hx, ?_⟩
  rw [← respond_storeReg r _ 0 0 1, ← regRead_sequencer r s.plan 1 s.tmp s]
  exact hreach.perform hu rfl (by decide)

/-- A bit operation on a register whose write has side effects is refused at its first line (R71). -/
theorem BitOpLines.perform_refused (h : BitOpLines r f atomic ls) (hr : plainStorage r = false) (hu : s.upc = 0)
    (hp : s.plan = []) : Machine.perform (ls ++ post) s = .refused .bitopOnSideEffectRegister := by
  cases h with
  | oneStep h => exact Machine.perform_refused hu hp rfl (by simp [h, hr, thenNext])
  | twoSteps h => exact Machine.perform_refused hu hp rfl (by simp [lineStep, hr])

end

/-! ### SETBIT, CLRBIT, TSTBIT -/

theorem atAddress_mapped {par : Params} {a : Byte} {r : Reg} (h : regAt par a = some r) (f : Reg → Lines) :
    atAddress par a f = f r := by simp only [atAddress, h]

theorem exec_setbit {s : State} {a : Byte} {r : Reg} (h : regAt s.par a = some r) (b : BitIx) :
    exec (.setbit a b) s = perform (bitSetLines s.par r b ++ [.respond (.lit 0) (.lit 0)]) s :=
  congrArg (perform · s) (atAddress_mapped h _)

theorem exec_clrbit {s : State} {a : Byte} {r : Reg} (h : regAt s.par a = some r) (b : BitIx) :
    exec (.clrbit a b) s = perform (bitClearLines s.par r b ++ [.respond (.lit 0) (.lit 0)]) s :=
  congrArg (perform · s) (atAddress_mapped h _)

/-- Settles O17: the lines of the operation store one byte, or the first of them is refused (R71, R72). -/
theorem setbitClrbitResult : Obligations.SetbitClrbitResult := by
  intro s addr bit hu hp
  cases hat : regAt s.par addr with
  | none => exact ⟨perform_atAddress_unmapped hat _ hu hp, perform_atAddress_unmapped hat _ hu hp⟩
  | some r =>
    dsimp only
    rw [exec_setbit hat, exec_clrbit hat]
    cases hplain : plainStorage r with
    | true =>
      obtain ⟨x, hx, hsetDone⟩ := (bitSetLines_bitOp s.par r bit).perform hplain hu hp
      obtain ⟨y, hy, hclearDone⟩ := (bitClearLines_bitOp s.par r bit).perform hplain hu hp
      exact ⟨⟨_, x, _, testBit_setBit_eq_or _ bit, hx, rfl, hsetDone, by simp [regRead_storeReg hplain]⟩,
        _, y, _, testBit_clearBit_eq_and _ bit, hy, rfl, hclearDone, by simp [regRead_storeReg hplain]⟩
    | false =>
      exact ⟨(bitSetLines_bitOp s.par r bit).perform_refused hplain hu hp,
        (bitClearLines_bitOp s.par r bit).perform_refused hplain hu hp⟩

/-- Settles O18: one read into `t`, one bit of `t` responded (R123). -/
theorem tstbitResult : Obligations.TstbitResult := by
  intro s addr bit hu hp
  cases hat : regAt s.par addr with
  | none => exact perform_atAddress_unmapped hat _ hu hp
  | some r =>
    refine ⟨⟨(regRead r s).1, (regRead r s).2.draws, fun hin => regRead_draws hin s, ?_⟩, ?_⟩
    · have hload : Reaches [.load r, .respond (.lit 0) (.tBit bit)] 1 { s with upc := 1 }
          { s with upc := 2, tmp := (regRead r s).1, draws := (regRead r s).2.draws } :=
        Reaches.line Nat.one_ne_zero hp rfl (by cases r <;> rfl)
      have hend := hload.trans (Reaches.respond (u := 1) rfl hp rfl)
      exact (congrArg (perform · s) (atAddress_mapped hat _)).trans (hend.perform hu rfl (by decide))
    · rintro hok rfl rfl
      exact intFlag_eq s hok

/-! ### `Other` between the steps of a command -/

/-- Settles O32: the second step writes back the byte that the first one read (R72). -/
theorem twoStepBitOperationLosesUpdate : Obligations.TwoStepBitOperationLosesUpdate := by
  intro s r bit v hok hr ho hatomic hu hp
  have hat := regAt_regAddr hok r
  have hcode : bitSetLines s.par r bit = [.fetch r, .putSet r bit] := by simp [bitSetLines, hatomic]
  rw [exec_setbit hat, hcode]
  have hfetch : Reaches ([.fetch r, .putSet r bit] ++ [.respond (.lit 0) (.lit 0)]) 1 { s with upc := 1 }
      { s with plan := [.other (.write (regAddr s.par r) v)], upc := 2, tmp := (regRead r s).1 } :=
    Reaches.plannedLine (u := 0) rfl hp rfl (by
      rw [lineStep_fetch hr, regRead_sequencer r _ 1 s.tmp s]
      rfl)
  have hother := hfetch.trans (Reaches.other (by simp) ho rfl
    ((busOp_write (s := { s with plan := [], upc := 2, tmp := (regRead r s).1 }) hat
      (ne_twCtrl_of_plainStorage hr) v).trans (regWrite_plain hr v _)))
  have hput := hother.trans (Reaches.line (l := .putSet r bit) (by simp) (by simp)
    (lineAt_of (u := 1) (by simp) rfl) (by rw [lineStep, regWrite_plain hr, thenNext]))
  have hend := hput.trans (Reaches.respond (u := 2) (c := .lit 0) (d := .lit 0) (by simp) (by simp) rfl)
  refine ⟨_, hend.perform hu rfl (by decide), ?_, ?_⟩
  · simp only [regRead_respond, regRead_goto, regRead_storeReg hr, storeReg_tmp]
    rfl
  · simp [Responded, srcVal]

section
variable {r : Reg} {f g : Byte → Byte} {ls : Lines} {s : State} {op : BusOp} {first : List Turn}

/-- A one-step bit operation of a command and an operation of `Other` on the same register: each works on what the
other left, in the order of the plan (R71, R74). -/
theorem BitOpLines.perform_interleaved (h : BitOpLines r f true ls) (hr : plainStorage r = true)
    (ho : s.par.otherPresent = true) (hu : s.upc = 0) (hfirst : first ∈ [[], [Turn.seq]])
    (hp : s.plan = first ++ [.other op])
    (hop : ∀ u : State, u.par = s.par → busOp op u = .done (storeReg r (g (regRead r u).1) u)) :
    ∃ t, Machine.perform (ls ++ [.respond (.lit 0) (.lit 0)]) s = .next t ∧
      ((regRead r t).1 = f (g (regRead r s).1) ∨ (regRead r t).1 = g (f (regRead r s).1)) := by
  obtain rfl | rfl : first = [] ∨ first = [.seq] := by simpa using hfirst
  · have hother := Reaches.other (code := ls ++ [.respond (.lit 0) (.lit 0)]) (s := { s with upc := 1 })
      Nat.one_ne_zero ho hp (hop _ rfl)
    obtain ⟨x, -, hown⟩ := h.reaches_response (pre := []) hr rfl (storeReg_plan r _ { s with plan := [], upc := 1 })
      (storeReg_upc ..)
    refine ⟨_, (hother.trans hown).perform hu rfl (by decide), .inl ?_⟩
    simp only [regRead_respond, regRead_storeReg hr]
    exact congrArg (f <| g ·) (regRead_sequencer r [] 1 s.tmp s)
  · cases h with
    | @oneStep l h =>
      have hown : Reaches ([l] ++ [.respond (.lit 0) (.lit 0)]) 1 { s with upc := 1 }
          { storeReg r (f (regRead r s).1) s with plan := [.other op], upc := 2, tmp := s.tmp } :=
        Reaches.plannedLine (u := 0) (l := l) rfl hp rfl (by
          rw [h, if_pos hr, regWrite_plain hr, regRead_sequencer r _ 1 s.tmp s, storeReg_sequencer r _ _ 1 s.tmp s]
          rfl)
      have hother := hown.trans (Reaches.other (by simp) (by simpa using ho) rfl (hop _ (storeReg_par ..)))
      have hend := hother.trans (Reaches.respond (u := 1) (c := .lit 0) (d := .lit 0) (by simp) (by simp) rfl)
      refine ⟨_, hend.perform hu rfl (by decide), .inr ?_⟩
      simp only [regRead_respond, regRead_storeReg hr]
      rw [regRead_sequencer r [] 2 s.tmp, regRead_storeReg hr]

/-- Neither of two bit operations on different bits of a register undoes the other (R71, R124). -/
theorem BitOpLines.perform_keeps_both {bit c : BitIx} {x y : Bool} (h : BitOpLines r f true ls)
    (hr : plainStorage r = true) (ho : s.par.otherPresent = true) (hu : s.upc = 0)
    (hfirst : first ∈ [[], [Turn.seq]]) (hp : s.plan = first ++ [.other op])
    (hop : ∀ u : State, u.par = s.par → busOp op u = .done (storeReg r (g (regRead r u).1) u)) (hne : c ≠ bit)
    (hf : ∀ v m, testBit (f v) m = if m = bit then x else testBit v m)
    (hg : ∀ v m, testBit (g v) m = if m = c then y else testBit v m) :
    ∃ t, Machine.perform (ls ++ [.respond (.lit 0) (.lit 0)]) s = .next t ∧
      testBit (regRead r t).1 c = y ∧ testBit (regRead r t).1 bit = x := by
  obtain ⟨t, ht, hread⟩ := h.perform_interleaved hr ho hu hfirst hp hop
  refine ⟨t, ht, ?_⟩
  rcases hread with hread | hread <;> simp [hread, hf, hg, hne, hne.symm]

end

/-- Settles O33: whichever of the two comes first, the other works on the byte it left (R71, R124). -/
theorem atomicBitOperationKeepsUpdate : Obligations.AtomicBitOperationKeepsUpdate := by
  intro s r bit c first hok hr ho hatomic hu hne hfirst
  have hat := regAt_regAddr hok r
  have hset := bitSetLines_bitOp s.par r bit
  have hclear := bitClearLines_bitOp s.par r bit
  rw [hatomic] at hset hclear
  have hotherSet : ∀ u : State, u.par = s.par →
      busOp (.bitSet (regAddr s.par r) c) u = .done (storeReg r (setBit (regRead r u).1 c) u) := fun u hpar =>
    (busOp_bitSet (by rw [hpar, hat]) c).trans (bitSetReg_plain hr c u)
  have hotherClear : ∀ u : State, u.par = s.par →
      busOp (.bitClear (regAddr s.par r) c) u = .done (storeReg r (clearBit (regRead r u).1 c) u) := fun u hpar =>
    (busOp_bitClear (by rw [hpar, hat]) c).trans (bitClearReg_plain hr c u)
  rw [exec_setbit hat, exec_clrbit hat]
  exact ⟨fun hp => hclear.perform_keeps_both hr ho hu hfirst hp hotherSet hne (testBit_clearBit · bit)
      (testBit_setBit · c),
    fun hp => hset.perform_keeps_both hr ho hu hfirst hp hotherClear hne (testBit_setBit · bit)
      (testBit_clearBit · c),
    fun hp => hset.perform_keeps_both hr ho hu hfirst hp hotherSet hne (testBit_setBit · bit) (testBit_setBit · c),
    fun hp => hclear.perform_keeps_both hr ho hu hfirst hp hotherClear hne (testBit_clearBit · bit)
      (testBit_clearBit · c)⟩

theorem condHolds_snapIs {s : State} {d l : Bool} : condHolds s (.snapIs d l) = true ↔ (s.snapD, s.snapL) = (d, l) := by
  simp [condHolds]

/-- What is left of `CFGPIN .., OUT` after its snapshot, where no other agent has a turn any more (R132): the branch
follows the snapshot, whatever the registers hold by now (R142). `x` is the latch `t` of R72. -/
theorem cfgpinOut_reaches_of_snapshot {par : Params} {s : State} (p : Port) (n : BitIx) (hp : s.plan = [])
    (hu : s.upc = 3) :
    ∃ x, (par.bitopAtomic = true → x = s.tmp) ∧ Reaches (cfgpinOutLines par p n) 6 s
      (respond par.resSuccess 0 (setPort { s with tmp := x } p
        { getPort s p with
          dir := setBit (getPort s p).dir n
          out := if (s.snapD, s.snapL) = (false, true) then clearBit (getPort s p).out n else (getPort s p).out })) := by
  have hset := bitSetLines_bitOp par (.dir p) n
  have hclear := bitClearLines_bitOp par (.out p) n
  have hcode : cfgpinOutLines par p n =
      (snapshotLines p n ++ [.branch (.snapIs false true) (bitClearLines par (.out p) n).length]) ++
        (bitClearLines par (.out p) n ++ (bitSetLines par (.dir p) n ++ [respondSuccess par])) := by
    simp [cfgpinOutLines, ifThen]
  have hcodeSet := hcode.trans (List.append_assoc ..).symm
  have hbranch : Reaches (cfgpinOutLines par p n) 1 s
      (goto (if condHolds s (.snapIs false true) then 1 else (bitClearLines par (.out p) n).length + 1) s) :=
    Reaches.line (by omega) hp (lineAt_of (u := 2) hu (by rw [hcode]; rfl)) rfl
  by_cases hsnap : (s.snapD, s.snapL) = (false, true)
  · rw [if_pos (condHolds_snapIs.mpr hsnap)] at hbranch
    obtain ⟨x, hx, hclearDone⟩ := hclear.reaches rfl hcode (s := goto 1 s) hp (by simp [hu, snapshotLines])
    obtain ⟨y, hy, hsetDone⟩ := hset.reaches_response rfl hcodeSet
      (s := goto (bitClearLines par (.out p) n).length
        (storeReg (.out p) (clearBit (getPort s p).out n) { goto 1 s with tmp := x }))
      (by simpa using hp) (by simp [hu, snapshotLines]; omega)
    refine ⟨y, fun ha => (hy ha).trans (by simpa using hx ha), ?_⟩
    rw [if_pos hsnap]
    convert (hbranch.trans hclearDone).trans hsetDone using 1
    cases p <;> simp [respond, goto, storeReg, setPort, getPort, regRead]
  · rw [if_neg (mt condHolds_snapIs.mp hsnap)] at hbranch
    obtain ⟨y, hy, hsetDone⟩ := hset.reaches_response rfl hcodeSet
      (s := goto ((bitClearLines par (.out p) n).length + 1) s) hp (by simp [hu, snapshotLines]; omega)
    refine ⟨y, hy, ?_⟩
    rw [if_neg hsnap]
    refine Reaches.mono ?_ (n := 4) (by decide)
    convert hbranch.trans hsetDone using 1
    cases p <;> simp [respond, goto, storeReg, setPort, getPort, regRead]

/-- The state right after the snapshot of a `CFGPIN` (R131), with what is left of the plan. -/
def snapped (plan : List Turn) (p : Port) (n : BitIx) (s : State) : State :=
  { s with plan := plan, upc := 3, snapD := (pinPair s p n).1, snapL := (pinPair s p n).2 }

/-- Two planned turns of the sequencer take the snapshot (R74, R131). -/
theorem Reaches.snapshot {code : Lines} {s : State} {rest : List Turn} {p : Port} {n : BitIx}
    (hp : s.plan = .seq :: .seq :: rest) (hD : code[0]? = some (.snapD p n)) (hL : code[1]? = some (.snapL p n)) :
    Reaches code 2 { s with upc := 1 } (snapped rest p n s) := by
  have hsnapD : Reaches code 1 { s with upc := 1 }
      { s with plan := .seq :: rest, upc := 2, snapD := (pinPair s p n).1 } :=
    Reaches.plannedLine (u := 0) rfl hp hD rfl
  exact hsnapD.trans (Reaches.plannedLine (u := 1) rfl rfl hL rfl)

/-- Settles O31: the branch tests the two latches of the snapshot, the bit operations read the register anew (R74,
R131, R132). -/
theorem staleSnapshotIsFollowed : Obligations.StaleSnapshotIsFollowed := by
  intro s p n pu v hok ho _ hu hp
  have hwrite := busOp_write (s := snapped [] p n s) (regAt_regAddr hok (.out p)) Reg.noConfusion v
  have hsnap : Reaches (cfgpinOutLines s.par p n) 2 _ _ := Reaches.snapshot hp rfl rfl
  have hother := hsnap.trans (Reaches.other (Nat.succ_ne_zero 2) ho rfl hwrite)
  obtain ⟨x, -, hrest⟩ := cfgpinOut_reaches_of_snapshot (par := s.par) (s := storeReg (.out p) v (snapped [] p n s))
    p n (storeReg_plan ..) (storeReg_upc ..)
  refine ⟨_, (hother.trans hrest).perform hu rfl (by decide), ?_, ?_, ?_⟩
  · simp [pinPair, testBit_setBit]
  · simp [storeReg, snapped, clearBit]
  · simp [Responded, snapped]

end Sys2Proof.Machine
end

/-! SUPPORT. The decoder and the encoder (R90 to R101, R200): what each format of a command word decodes to and from
which word it comes, and from that the round trips, the refusals at decode, the opcode map and the operands. -/

section
namespace Sys2Proof
open Machine

/-! ### Bit strings -/

/-- A string whose high bits are 0 is the string of its low bits, filled up. -/
theorem eq_zero_append {m k : Nat} {x : BitVec (m + k)} (h : x.extractLsb' k m = 0) :
    x = 0#m ++ x.extractLsb' 0 k := by
  rw [← BitVec.ofNat_eq_ofNat, ← h, BitVec.extractLsb'_append_extractLsb']

/-- A mask of the high bits clears a string exactly if they are 0. -/
theorem and_highMask_eq_zero {m k : Nat} (x : BitVec (m + k)) :
    x &&& (BitVec.allOnes m ++ 0#k) = 0 ↔ x.extractLsb' k m = 0 := by
  have hx : x &&& (BitVec.allOnes m ++ 0#k) = x.extractLsb' k m ++ 0#k := by
    conv_lhs => rw [← BitVec.extractLsb'_append_extractLsb' (x := x)]
    rw [BitVec.and_append, BitVec.and_allOnes, BitVec.and_zero]
  rw [hx, BitVec.ofNat_eq_ofNat, ← BitVec.zero_append_zero]
  exact BitVec.append_left_inj _

theorem extractLsb'_one {n : Nat} (x : BitVec n) (k : Nat) : x.extractLsb' k 1 = BitVec.ofBool (x.getLsbD k) := by
  ext i hi
  obtain rfl : i = 0 := by omega
  simp

/-- The must-be-zero bits of `A` and of `B` (R91 to R95). -/
theorem mask_byte (x : Byte) :
    (x &&& 255#8 = 0#8 ↔ x = 0#8) ∧ (x &&& 254#8 = 0#8 ↔ x.extractLsb' 1 7 = 0#7) ∧
    (x &&& 252#8 = 0#8 ↔ x.extractLsb' 2 6 = 0#6) ∧ (x &&& 248#8 = 0#8 ↔ x.extractLsb' 3 5 = 0#5) :=
  ⟨(and_highMask_eq_zero (m := 8) (k := 0) x).trans (by simp), and_highMask_eq_zero (m := 7) (k := 1) x,
    and_highMask_eq_zero (m := 6) (k := 2) x, and_highMask_eq_zero (m := 5) (k := 3) x⟩

/-- The must-be-zero bits of `C` (R91 to R95). -/
theorem mask_half (x : BitVec 16) :
    (x &&& 65535#16 = 0#16 ↔ x = 0#16) ∧ (x &&& 65534#16 = 0#16 ↔ x.extractLsb' 1 15 = 0#15) ∧
    (x &&& 65532#16 = 0#16 ↔ x.extractLsb' 2 14 = 0#14) ∧ (x &&& 65528#16 = 0#16 ↔ x.extractLsb' 3 13 = 0#13) ∧
    (x &&& 65280#16 = 0#16 ↔ x.extractLsb' 8 8 = 0#8) :=
  ⟨(and_highMask_eq_zero (m := 16) (k := 0) x).trans (by simp), and_highMask_eq_zero (m := 15) (k := 1) x,
    and_highMask_eq_zero (m := 14) (k := 2) x, and_highMask_eq_zero (m := 13) (k := 3) x,
    and_highMask_eq_zero (m := 8) (k := 8) x⟩

/-! ### Fields of the words the encoder writes -/

@[simp] theorem regSizeOf_regSizeBit (rsz : RegSize) : regSizeOf (regSizeBit rsz) = rsz := by cases rsz <;> rfl

@[simp] theorem regSizeBit_regSizeOf (b : Bool) : regSizeBit (regSizeOf b) = b := by cases b <;> rfl

@[simp] theorem portOf_portCode (p : Port) : portOf (portCode p) = some p := by cases p <;> rfl

theorem portOf_eq_some {c : BitVec 2} {p : Port} (h : portOf c = some p) : c = portCode p := by
  unfold portOf at h
  split_ifs at h with hB hC hD
  all_goals
    cases h
    assumption

theorem portOf_eq_none_iff (c : BitVec 2) : portOf c = none ↔ c = 3 := by revert c; decide

theorem ifZero_eq_ok {mbz : Bool} {i j : Instr} : ifZero mbz i = .ok j ↔ mbz = true ∧ i = j := by
  cases mbz <;> simp [ifZero]

theorem encPort_high (p : Port) : (encPort p).extractLsb' 2 6 = 0 := BitVec.extractLsb'_append_eq_left
theorem encPort_low (p : Port) : (encPort p).extractLsb' 0 2 = portCode p := BitVec.extractLsb'_append_eq_right
theorem encPin_high (n : BitIx) : (encPin n).extractLsb' 3 5 = 0 := BitVec.extractLsb'_append_eq_left
theorem encPin_low (n : BitIx) : (encPin n).extractLsb' 0 3 = n := BitVec.extractLsb'_append_eq_right

/-! ### Each format, from the encoded word and back -/

theorem decodeR_cw40 (op a : Byte) (n : BitIx) (mk : Byte → BitIx → Instr) :
    decodeR (cw40 op a 0 (0#13 ++ n)) mk = .ok (mk a n) := by
  have hhigh : (0#13 ++ n).extractLsb' 3 13 = 0 := BitVec.extractLsb'_append_eq_left
  have hlow : (0#13 ++ n).extractLsb' 0 3 = n := BitVec.extractLsb'_append_eq_right
  simp [decodeR, ifZero, hhigh, hlow]

theorem decodeP_cw40 (op : Byte) (p : Port) (n : BitIx) (c : BitVec 16) (mk : Port → BitIx → Instr) :
    decodeP (cw40 op (encPort p) (encPin n) c) true mk = .ok (mk p n) := by
  simp [decodeP, encPort_high, encPort_low, encPin_high, encPin_low]

theorem decodeM_cw40 (op length : Byte) (rsz : RegSize) (slave : BitVec 7) (reg : BitVec 16)
    (mk : RegSize → BitVec 7 → Byte → BitVec 16 → Instr) :
    decodeM (cw40 op (encSlave rsz slave) length reg) mk = mk rsz slave length reg := by
  have hlow : (encSlave rsz slave).extractLsb' 0 7 = slave := BitVec.extractLsb'_append_eq_right
  have hbit : (encSlave rsz slave).getLsbD 7 = regSizeBit rsz := by
    rw [encSlave, BitVec.getLsbD_append]
    simp
  rw [decodeM, fieldA_cw40, fieldB_cw40, fieldC_cw40, hlow, hbit, regSizeOf_regSizeBit]

section
variable {par : Params} {w : Cw40} {op : Byte} {i : Instr}

theorem encode_of_decodeR {mk : Byte → BitIx → Instr} (hop : fieldOp w = op)
    (henc : ∀ a n, encode par (mk a n) = .cw40 (cw40 op a 0 (0#13 ++ n))) (h : decodeR w mk = .ok i) :
    encode par i = .cw40 w := by
  obtain ⟨hz, rfl⟩ := ifZero_eq_ok.mp h
  simp only [Bool.and_eq_true, beq_iff_eq] at hz
  obtain ⟨hB, hC⟩ := hz
  rw [henc, ← eq_zero_append (m := 13) (k := 3) hC, ← hB, ← hop, cw40_fields]

theorem encode_of_decodeP {zeroC : Bool} {mk : Port → BitIx → Instr} (hop : fieldOp w = op)
    (henc : ∀ p n, zeroC = true → encode par (mk p n) = .cw40 (cw40 op (encPort p) (encPin n) (fieldC w)))
    (h : decodeP w zeroC mk = .ok i) : encode par i = .cw40 w := by
  unfold decodeP at h
  split at h
  next hz =>
    simp only [Bool.and_eq_true, beq_iff_eq] at hz
    obtain ⟨⟨hA, hB⟩, hC⟩ := hz
    split at h
    next p hport =>
      cases h
      have hportA : encPort p = fieldA w := by
        rw [encPort, ← portOf_eq_some hport, ← eq_zero_append (m := 6) (k := 2) hA]
      rw [henc _ _ hC, hportA, encPin, ← eq_zero_append (m := 5) (k := 3) hB, ← hop, cw40_fields]
    next => cases h
  next => cases h

theorem encode_of_decodeM {mk : RegSize → BitVec 7 → Byte → BitVec 16 → Instr} (hop : fieldOp w = op)
    (henc : ∀ rsz slave n reg, encode par (mk rsz slave n reg) = .cw40 (cw40 op (encSlave rsz slave) n reg))
    (h : Except.ok (decodeM w mk) = (.ok i : Except DecodeError Instr)) : encode par i = .cw40 w := by
  cases h
  have hA : encSlave (regSizeOf ((fieldA w).getLsbD 7)) ((fieldA w).extractLsb' 0 7) = fieldA w := by
    rw [encSlave, regSizeBit_regSizeOf, ← extractLsb'_one]
    exact BitVec.extractLsb'_append_extractLsb' (w := 1) (len := 7)
  rw [decodeM, henc, hA, ← hop, cw40_fields]

/-- A word without operands. -/
theorem encode_of_ifZero {a b : Byte} {c : BitVec 16} {mbz : Bool} {j : Instr} (hop : fieldOp w = op)
    (henc : encode par j = .cw40 (cw40 op a b c)) (hz : mbz = true → fieldA w = a ∧ fieldB w = b ∧ fieldC w = c)
    (h : ifZero mbz j = .ok i) : encode par i = .cw40 w := by
  obtain ⟨hmbz, rfl⟩ := ifZero_eq_ok.mp h
  obtain ⟨hA, hB, hC⟩ := hz hmbz
  rw [henc, ← hA, ← hB, ← hC, ← hop, cw40_fields]

end

/-! ### The decoder, opcode by opcode (R97, R100) -/

section
variable {w : Cw40}

theorem decode_setbit (h : fieldOp w = 0x01) : decode w = decodeR w .setbit := by rw [decode, h]; rfl

theorem decode_clrbit (h : fieldOp w = 0x02) : decode w = decodeR w .clrbit := by rw [decode, h]; rfl

theorem decode_tstbit (h : fieldOp w = 0x03) : decode w = decodeR w .tstbit := by rw [decode, h]; rfl

theorem decode_cfgpin (h : fieldOp w = 0x10) :
    decode w = decodeP w ((fieldC w).extractLsb' 2 14 == 0) (cfgpinForm (fieldC w)) := by rw [decode, h]; rfl

theorem decode_wrpin (h : fieldOp w = 0x11) :
    decode w = decodeP w ((fieldC w).extractLsb' 1 15 == 0) fun p n => .wrpin p n ((fieldC w).getLsbD 0) := by
  rw [decode, h]; rfl

theorem decode_tglpin (h : fieldOp w = 0x12) : decode w = decodeP w (fieldC w == 0) .tglpin := by rw [decode, h]; rfl

theorem decode_rdpin (h : fieldOp w = 0x13) : decode w = decodeP w (fieldC w == 0) .rdpin := by rw [decode, h]; rfl

theorem decode_twstart (h : fieldOp w = 0x20) :
    decode w = ifZero (fieldA w == 0 && fieldB w == 0 && fieldC w == 0) .twstart := by rw [decode, h]; rfl

theorem decode_twstop (h : fieldOp w = 0x21) :
    decode w = ifZero (fieldA w == 0 && fieldB w == 0 && fieldC w == 0) .twstop := by rw [decode, h]; rfl

theorem decode_twtx (h : fieldOp w = 0x22) :
    decode w = ifZero (fieldA w == 0 && fieldB w == 0 && (fieldC w).extractLsb' 8 8 == 0)
      (.twtx ((fieldC w).extractLsb' 0 8)) := by rw [decode, h]; rfl

theorem decode_twrx (h : fieldOp w = 0x23) :
    decode w = ifZero (fieldA w == 0 && fieldB w == 0 && (fieldC w).extractLsb' 1 15 == 0)
      (.twrx ((fieldC w).getLsbD 0)) := by rw [decode, h]; rfl

theorem decode_twrega (h : fieldOp w = 0x24) :
    decode w = ifZero ((fieldA w).extractLsb' 1 7 == 0 && fieldB w == 0)
      (.twrega (regSizeOf ((fieldA w).getLsbD 0)) (fieldC w)) := by rw [decode, h]; rfl

theorem decode_twwrmem (h : fieldOp w = 0x28) : decode w = .ok (decodeM w .twwrmem) := by rw [decode, h]; rfl

theorem decode_twrdmem (h : fieldOp w = 0x29) : decode w = .ok (decodeM w .twrdmem) := by rw [decode, h]; rfl

theorem decode_reserved (h : fieldOp w ∉ mbzMasks.map Prod.fst) : decode w = .error .reservedOpcode := by
  simp only [mbzMasks, List.map_cons, List.map_nil, List.mem_cons, List.not_mem_nil, or_false, not_or] at h
  unfold decode
  simp only [h, if_false]

/-- A word that decodes has one of the fourteen opcodes (R97, R100). -/
theorem fieldOp_of_decode {i : Instr} (h : decode w = .ok i) : fieldOp w ∈ mbzMasks.map Prod.fst := by
  by_contra hop
  rw [decode_reserved hop] at h
  cases h

end

/-! ### The round trips -/

/-- A command word is decoded to what it was encoded from, whatever the parameters (R90 to R97). -/
theorem decode_of_encode {par : Params} {w : Cw40} {i : Instr} (h : encode par i = .cw40 w) : decode w = .ok i := by
  cases i with
  | setbit a n => cases h; exact (decode_setbit (fieldOp_cw40 ..)).trans (decodeR_cw40 ..)
  | clrbit a n => cases h; exact (decode_clrbit (fieldOp_cw40 ..)).trans (decodeR_cw40 ..)
  | tstbit a n => cases h; exact (decode_tstbit (fieldOp_cw40 ..)).trans (decodeR_cw40 ..)
  | cfgpinOut p n pu =>
    cases h
    rw [decode_cfgpin (fieldOp_cw40 ..), fieldC_cw40]
    cases pu <;> exact decodeP_cw40 ..
  | cfgpinInpu p n => cases h; rw [decode_cfgpin (fieldOp_cw40 ..), fieldC_cw40]; exact decodeP_cw40 ..
  | cfgpinIn p n => cases h; rw [decode_cfgpin (fieldOp_cw40 ..), fieldC_cw40]; exact decodeP_cw40 ..
  | wrpin p n level =>
    cases h
    rw [decode_wrpin (fieldOp_cw40 ..), fieldC_cw40]
    cases level <;> exact decodeP_cw40 ..
  | tglpin p n => cases h; rw [decode_tglpin (fieldOp_cw40 ..), fieldC_cw40]; exact decodeP_cw40 ..
  | rdpin p n => cases h; rw [decode_rdpin (fieldOp_cw40 ..), fieldC_cw40]; exact decodeP_cw40 ..
  | twstart => cases h; rfl
  | twstop => cases h; rfl
  | twtx v =>
    have hhigh : (0#8 ++ v).extractLsb' 8 8 = 0 := BitVec.extractLsb'_append_eq_left
    have hlow : (0#8 ++ v).extractLsb' 0 8 = v := BitVec.extractLsb'_append_eq_right
    cases h
    rw [decode_twtx (fieldOp_cw40 ..), ifZero_eq_ok]
    simp [hhigh, hlow]
  | twrx more => cases h; cases more <;> rfl
  | twrega rsz reg =>
    cases h
    rw [decode_twrega (fieldOp_cw40 ..), ifZero_eq_ok, fieldA_cw40, fieldB_cw40, fieldC_cw40]
    cases rsz <;> exact ⟨rfl, rfl⟩
  | twwrmem rsz slave n reg =>
    cases h; exact (decode_twwrmem (fieldOp_cw40 ..)).trans (congrArg _ (decodeM_cw40 ..))
  | twrdmem rsz slave n reg =>
    cases h; exact (decode_twrdmem (fieldOp_cw40 ..)).trans (congrArg _ (decodeM_cw40 ..))
  | cwStart => cases h
  | cwStop => cases h
  | cwXferNack => cases h
  | cwXferAck => cases h

/-- The forms of `CFGPIN` share out the two low bits of `C` (R97). -/
theorem encode_cfgpinForm (par : Params) {c : BitVec 16} (h : c.extractLsb' 2 14 = 0) (p : Port) (n : BitIx) :
    encode par (cfgpinForm c p n) = .cw40 (cw40 0x10 (encPort p) (encPin n) c) := by
  have hlow : c.extractLsb' 0 2 = BitVec.ofBool (c.getLsbD 1) ++ BitVec.ofBool (c.getLsbD 0) := by
    rw [← extractLsb'_one, ← extractLsb'_one, BitVec.extractLsb'_append_extractLsb'_eq_extractLsb' (start₁ := 0) (len₁ := 1) rfl]
  have hc : c = 0#14 ++ (BitVec.ofBool (c.getLsbD 1) ++ BitVec.ofBool (c.getLsbD 0)) :=
    (eq_zero_append (m := 14) (k := 2) h).trans (by rw [hlow])
  unfold cfgpinForm
  cases h0 : c.getLsbD 0 with
  | true =>
    rw [h0] at hc
    cases h1 : c.getLsbD 1 <;> rw [hc, h1] <;> rfl
  | false =>
    rw [h0] at hc
    cases h1 : c.getLsbD 1 <;> rw [hc, h1] <;> rfl

theorem encode_of_decode (par : Params) {w : Cw40} {i : Instr} (h : decode w = .ok i) : encode par i = .cw40 w := by
  have hop := fieldOp_of_decode h
  simp only [mbzMasks, List.map_cons, List.map_nil, List.mem_cons, List.not_mem_nil, or_false] at hop
  rcases hop with hop | hop | hop | hop | hop | hop | hop | hop | hop | hop | hop | hop | hop | hop
  · exact encode_of_decodeR hop (fun _ _ => rfl) (decode_setbit hop ▸ h)
  · exact encode_of_decodeR hop (fun _ _ => rfl) (decode_clrbit hop ▸ h)
  · exact encode_of_decodeR hop (fun _ _ => rfl) (decode_tstbit hop ▸ h)
  · exact encode_of_decodeP hop (fun p n hC => encode_cfgpinForm par (eq_of_beq hC) p n) (decode_cfgpin hop ▸ h)
  · refine encode_of_decodeP hop (fun p n hC => ?_) (decode_wrpin hop ▸ h)
    rw [encode, ← extractLsb'_one, ← eq_zero_append (m := 15) (k := 1) (eq_of_beq hC)]
  · refine encode_of_decodeP hop (fun p n hC => ?_) (decode_tglpin hop ▸ h)
    rw [encode, ← eq_of_beq hC]
  · refine encode_of_decodeP hop (fun p n hC => ?_) (decode_rdpin hop ▸ h)
    rw [encode, ← eq_of_beq hC]
  · exact encode_of_ifZero hop rfl (by simp [and_assoc]) (decode_twstart hop ▸ h)
  · exact encode_of_ifZero hop rfl (by simp [and_assoc]) (decode_twstop hop ▸ h)
  · refine encode_of_ifZero hop rfl (fun hz => ?_) (decode_twtx hop ▸ h)
    simp only [Bool.and_eq_true, beq_iff_eq] at hz
    obtain ⟨⟨hA, hB⟩, hC⟩ := hz
    exact ⟨hA, hB, eq_zero_append (m := 8) (k := 8) hC⟩
  · refine encode_of_ifZero hop rfl (fun hz => ?_) (decode_twrx hop ▸ h)
    simp only [Bool.and_eq_true, beq_iff_eq] at hz
    obtain ⟨⟨hA, hB⟩, hC⟩ := hz
    exact ⟨hA, hB, (eq_zero_append (m := 15) (k := 1) hC).trans (by rw [extractLsb'_one])⟩
  · refine encode_of_ifZero hop rfl (fun hz => ?_) (decode_twrega hop ▸ h)
    simp only [Bool.and_eq_true, beq_iff_eq] at hz
    obtain ⟨hA, hB⟩ := hz
    exact ⟨(eq_zero_append (m := 7) (k := 1) hA).trans (by rw [extractLsb'_one, regSizeBit_regSizeOf]), hB, rfl⟩
  · exact encode_of_decodeM hop (fun _ _ _ _ => rfl) (decode_twwrmem hop ▸ h)
  · exact encode_of_decodeM hop (fun _ _ _ _ => rfl) (decode_twrdmem hop ▸ h)

theorem encode_ctrlInstr (par : Params) (w : CtrlWord) : encode par (ctrlInstr w) = .twcw (ctrlWordByte par.bits w) := by
  cases w <;> rfl

theorem exists_ctrlInstr_of_encode {par : Params} {i : Instr} {v : Byte} (h : encode par i = .twcw v) :
    ∃ w, i = ctrlInstr w := by
  cases i with
  | cwStart => exact ⟨.start, rfl⟩
  | cwStop => exact ⟨.stop, rfl⟩
  | cwXferNack => exact ⟨.xferNack, rfl⟩
  | cwXferAck => exact ⟨.xferAck, rfl⟩
  | _ => cases h

/-- A byte that decodes to a control word is the byte of that word (R200, R202). -/
theorem eq_ctrlWordByte_of_decode {b : CtrlBits} {v : Byte} {w : CtrlWord} (h : decodeCtrlWord b v = .ok w) :
    v = ctrlWordByte b w := by
  unfold decodeCtrlWord at h
  split_ifs at h
  all_goals
    cases h
    assumption

theorem decodeCtrl_eq_ok {b : CtrlBits} {v : Byte} {i : Instr} :
    decodeCtrl b v = .ok i ↔ ∃ w, decodeCtrlWord b v = .ok w ∧ ctrlInstr w = i := by
  cases h : decodeCtrlWord b v <;> simp [decodeCtrl, h, Except.map]

/-- Settles O2, carrier by carrier: a command word through its format, a control word by its byte. -/
theorem decodeEncodeRoundTrip : Obligations.DecodeEncodeRoundTrip := by
  intro par i hok
  cases hcode : encode par i with
  | cw40 w => exact decode_of_encode hcode
  | twcw v =>
    obtain ⟨w, rfl⟩ := exists_ctrlInstr_of_encode hcode
    rw [encode_ctrlInstr] at hcode
    cases hcode
    exact decodeCtrl_eq_ok.mpr ⟨w, decodeCtrlWord_ctrlWordByte hok w, rfl⟩

/-- Settles O3, carrier by carrier: each format's fields make up the whole word. -/
theorem encodeOfDecodedWord : Obligations.EncodeOfDecodedWord := by
  intro par c i h
  cases c with
  | cw40 w => exact encode_of_decode par h
  | twcw v =>
    obtain ⟨w, hw, rfl⟩ := decodeCtrl_eq_ok.mp h
    rw [encode_ctrlInstr, ← eq_ctrlWordByte_of_decode hw]

/-- Settles O1: each printed word is the encoding of its command. -/
theorem decodeOfSpecWords : Obligations.DecodeOfSpecWords := by
  have h {w : Cw40} {i : Instr} (henc : encode defaultParams i = .cw40 w) : decode w = .ok i := decode_of_encode henc
  exact ⟨h rfl, h rfl, h rfl, h rfl, h rfl, h rfl, h rfl, h rfl, h rfl, h rfl, h rfl, h rfl⟩

/-! ### What a word of each opcode decodes to (R99, R101) -/

/-- What a word decodes to: refused where a bit of the mask is set, then where the port code is 3, if the format has
one, and else some instruction. -/
structure RefusedOrOk (w mbz : Cw40) (hasPort : Bool) (r : Except DecodeError Instr) : Prop where
  field : w &&& mbz ≠ 0 → r = .error .reservedField
  port : w &&& mbz = 0 → hasPort = true → (fieldA w).extractLsb' 0 2 = 3 → r = .error .reservedPort
  ok : w &&& mbz = 0 → (hasPort = true → (fieldA w).extractLsb' 0 2 ≠ 3) → ∃ i, r = .ok i

section
variable {w : Cw40}

theorem and_cw40_eq_zero (w : Cw40) (a b : Byte) (c : BitVec 16) :
    w &&& cw40 0 a b c = 0 ↔ fieldA w &&& a = 0 ∧ fieldB w &&& b = 0 ∧ fieldC w &&& c = 0 := by
  rw [masked_eq_iff, fieldOp_cw40, fieldA_cw40, fieldB_cw40, fieldC_cw40, BitVec.ofNat_eq_ofNat, BitVec.and_zero]
  exact and_iff_right rfl

theorem ifZero_refusedOrOk {mbz : Cw40} {z : Bool} {i : Instr} (a b : Byte) (c : BitVec 16) (hmbz : mbz = cw40 0 a b c)
    (hz : z = true ↔ fieldA w &&& a = 0 ∧ fieldB w &&& b = 0 ∧ fieldC w &&& c = 0) :
    RefusedOrOk w mbz false (ifZero z i) := by
  rw [← and_cw40_eq_zero, ← hmbz] at hz
  exact ⟨fun h => if_neg (mt hz.mp h), fun _ => Bool.noConfusion, fun h _ => ⟨i, if_pos (hz.mpr h)⟩⟩

theorem decodeR_refusedOrOk (mk : Byte → BitIx → Instr) : RefusedOrOk w 0x0000FFFFF8 false (decodeR w mk) :=
  ifZero_refusedOrOk 0 0xFF 0xFFF8 rfl (by simp [mask_byte, mask_half])

theorem decodeP_refusedOrOk {mbz : Cw40} {zeroC : Bool} {mk : Port → BitIx → Instr} (c : BitVec 16)
    (hmbz : mbz = cw40 0 0xFC 0xF8 c) (hC : zeroC = true ↔ fieldC w &&& c = 0) :
    RefusedOrOk w mbz true (decodeP w zeroC mk) := by
  have hz : ((fieldA w).extractLsb' 2 6 == 0 && (fieldB w).extractLsb' 3 5 == 0 && zeroC) = true ↔ w &&& mbz = 0 := by
    rw [hmbz, and_cw40_eq_zero, ← hC]
    simp [mask_byte, and_assoc]
  refine ⟨fun h => if_neg (mt hz.mp h), fun h _ hthree => ?_, fun h hthree => ?_⟩
  · rw [decodeP, if_pos (hz.mpr h), (portOf_eq_none_iff _).mpr hthree]
  · obtain ⟨q, hq⟩ := Option.ne_none_iff_exists'.mp (mt (portOf_eq_none_iff _).mp (hthree rfl))
    exact ⟨mk q ((fieldB w).extractLsb' 0 3), by rw [decodeP, if_pos (hz.mpr h), hq]⟩

theorem ok_refusedOrOk (i : Instr) : RefusedOrOk w 0 false (.ok i) :=
  ⟨fun h => absurd BitVec.and_zero h, fun _ => Bool.noConfusion, fun _ _ => ⟨i, rfl⟩⟩

/-- Everything that decoding a word of one of the fourteen opcodes can be (R99, R101). -/
theorem decode_refusedOrOk {mbz : Cw40} {op : Byte} (hmem : (op, mbz) ∈ mbzMasks) (hop : fieldOp w = op) :
    RefusedOrOk w mbz (decide (op ∈ ([0x10, 0x11, 0x12, 0x13] : List Byte))) (decode w) := by
  simp only [mbzMasks, List.mem_cons, List.not_mem_nil, or_false, Prod.mk.injEq] at hmem
  rcases hmem with ⟨rfl, rfl⟩ | ⟨rfl, rfl⟩ | ⟨rfl, rfl⟩ | ⟨rfl, rfl⟩ | ⟨rfl, rfl⟩ | ⟨rfl, rfl⟩ | ⟨rfl, rfl⟩ |
    ⟨rfl, rfl⟩ | ⟨rfl, rfl⟩ | ⟨rfl, rfl⟩ | ⟨rfl, rfl⟩ | ⟨rfl, rfl⟩ | ⟨rfl, rfl⟩ | ⟨rfl, rfl⟩
  · exact decode_setbit hop ▸ decodeR_refusedOrOk _
  · exact decode_clrbit hop ▸ decodeR_refusedOrOk _
  · exact decode_tstbit hop ▸ decodeR_refusedOrOk _
  · exact decode_cfgpin hop ▸ decodeP_refusedOrOk 0xFFFC rfl (by simp [mask_half])
  · exact decode_wrpin hop ▸ decodeP_refusedOrOk 0xFFFE rfl (by simp [mask_half])
  · exact decode_tglpin hop ▸ decodeP_refusedOrOk 0xFFFF rfl (by simp [mask_half])
  · exact decode_rdpin hop ▸ decodeP_refusedOrOk 0xFFFF rfl (by simp [mask_half])
  · exact decode_twstart hop ▸ ifZero_refusedOrOk 0xFF 0xFF 0xFFFF rfl (by simp [mask_byte, mask_half, and_assoc])
  · exact decode_twstop hop ▸ ifZero_refusedOrOk 0xFF 0xFF 0xFFFF rfl (by simp [mask_byte, mask_half, and_assoc])
  · exact decode_twtx hop ▸ ifZero_refusedOrOk 0xFF 0xFF 0xFF00 rfl (by simp [mask_byte, mask_half, and_assoc])
  · exact decode_twrx hop ▸ ifZero_refusedOrOk 0xFF 0xFF 0xFFFE rfl (by simp [mask_byte, mask_half, and_assoc])
  · exact decode_twrega hop ▸ ifZero_refusedOrOk 0xFE 0xFF 0 rfl (by simp [mask_byte])
  · exact decode_twwrmem hop ▸ ok_refusedOrOk _
  · exact decode_twrdmem hop ▸ ok_refusedOrOk _

end

/-- An idle sequencer refuses the word it fetches under the decoder's name for it (R26, R104). -/
theorem step_decodeError {s : State} {w : Cw40} {e : DecodeError} (hp : s.plan = []) (hu : s.upc = 0)
    (hw : s.prog[s.pc]? = some w) (he : decode w = .error e) : step s = .refused (decodeRefusal e) := by
  rw [step_sequencer (.inl hp)]
  simp [sequencerRun, fetch, hu, hw, he]

/-- Settles O6: the decoder refuses what the fourteen opcodes leave (R100), the step what the decoder refuses. -/
theorem reservedOpcodeRefused : Obligations.ReservedOpcodeRefused := fun _ hop =>
  ⟨decode_reserved hop, fun _ hp hu hw => step_decodeError hp hu hw (decode_reserved hop)⟩

/-- Settles O7: the three clauses are the three answers of the decoder to a word of a known opcode. -/
theorem reservedFieldsAndPortRefused : Obligations.ReservedFieldsAndPortRefused := by
  intro w mbz op s hmem hop hp hu hw
  have hdecode := decode_refusedOrOk hmem hop
  exact ⟨fun hset => step_decodeError hp hu hw (hdecode.field hset),
    fun hclear hport hthree => step_decodeError hp hu hw (hdecode.port hclear (decide_eq_true hport) hthree),
    fun hclear hport => hdecode.ok hclear fun h => hport (of_decide_eq_true h)⟩

/-! ### The opcode map (R97) -/

/-- Every encoded instruction selects its own row and no other. -/
theorem tableRow_statement (i : Instr) : Laws.TableRow.Statement i := by
  cases i with
  | setbit a n => exact Laws.TableRow.setbit a n
  | clrbit a n => exact Laws.TableRow.clrbit a n
  | tstbit a n => exact Laws.TableRow.tstbit a n
  | cfgpinOut p n pu => exact Laws.TableRow.cfgpinOut p n pu
  | cfgpinInpu p n => exact Laws.TableRow.cfgpinInpu p n
  | cfgpinIn p n => exact Laws.TableRow.cfgpinIn p n
  | wrpin p n level => exact Laws.TableRow.wrpin p n level
  | tglpin p n => exact Laws.TableRow.tglpin p n
  | rdpin p n => exact Laws.TableRow.rdpin p n
  | twstart => exact Laws.TableRow.twstart
  | twstop => exact Laws.TableRow.twstop
  | twtx v => exact Laws.TableRow.twtx v
  | twrx more => exact Laws.TableRow.twrx more
  | twrega rsz reg => exact Laws.TableRow.twrega rsz reg
  | twwrmem rsz slave n reg => exact Laws.TableRow.twwrmem rsz slave n reg
  | twrdmem rsz slave n reg => exact Laws.TableRow.twrdmem rsz slave n reg
  | cwStart => exact Laws.TableRow.cwStart
  | cwStop => exact Laws.TableRow.cwStop
  | cwXferNack => exact Laws.TableRow.cwXferNack
  | cwXferAck => exact Laws.TableRow.cwXferAck

theorem rowSelected_of_decode {w : Cw40} {i : Instr} (h : decode w = .ok i) {row : OpcodeRow}
    (hrow : row ∈ opcodeRows) : rowSelected w row = (row.name == mnemonic i) := by
  have hall := tableRow_statement i
  simp only [Laws.TableRow.Statement, encode_of_decode defaultParams h, List.all_eq_true] at hall
  exact eq_of_beq (hall row hrow)

/-- A row's mask covers the must-be-zero bits of its opcode, and its pattern clears them. -/
theorem row_mbz {row : OpcodeRow} (hrow : row ∈ opcodeRows) :
    ∃ mbz, (fieldOp row.pattern, mbz) ∈ mbzMasks ∧ fieldOp row.mask = 0xFF ∧ row.mask &&& mbz = mbz ∧
      row.pattern &&& mbz = 0 ∧
      (fieldOp row.pattern ∈ ([0x10, 0x11, 0x12, 0x13] : List Byte) → row.isP = true) := by
  have hrows : ∀ row ∈ opcodeRows, ∃ m ∈ mbzMasks, fieldOp row.pattern = m.1 ∧ fieldOp row.mask = 0xFF ∧
      row.mask &&& m.2 = m.2 ∧ row.pattern &&& m.2 = 0 ∧
      (fieldOp row.pattern ∈ ([0x10, 0x11, 0x12, 0x13] : List Byte) → row.isP = true) := by decide
  obtain ⟨⟨op, mbz⟩, hmem, hop, hrest⟩ := hrows row hrow
  exact ⟨mbz, by rwa [hop], hrest⟩

theorem exists_decode_of_rowSelected {w : Cw40} {row : OpcodeRow} (hrow : row ∈ opcodeRows)
    (h : rowSelected w row = true) : ∃ i, decode w = .ok i := by
  obtain ⟨mbz, hmem, hmaskOp, hmask, hpattern, hP⟩ := row_mbz hrow
  simp only [rowSelected, Bool.and_eq_true, beq_iff_eq, Bool.not_eq_true', Bool.and_eq_false_iff] at h
  obtain ⟨hsel, hport⟩ := h
  have hop : fieldOp w = fieldOp row.pattern := by
    obtain ⟨hselOp, -⟩ := (masked_eq_iff ..).mp hsel
    rw [← hselOp, hmaskOp]
    exact (BitVec.and_allOnes (x := fieldOp w)).symm
  have hclear : w &&& mbz = 0 := by rw [← hmask, ← BitVec.and_assoc, hsel, hpattern]
  refine (decode_refusedOrOk hmem hop).ok hclear fun hformat hthree => ?_
  simp [hP (of_decide_eq_true hformat), hthree] at hport

/-- Settles O4: a word that decodes selects the row of its instruction alone, and a word that selects a row decodes. -/
theorem opcodeMapIsTheDecoder : Obligations.OpcodeMapIsTheDecoder := by
  refine ⟨fun w row hrow => ⟨?_, fun hsel => ?_⟩, fun w => ?_⟩
  · rintro ⟨i, hi, hname⟩
    rw [rowSelected_of_decode hi hrow, hname, beq_self_eq_true]
  · obtain ⟨i, hi⟩ := exists_decode_of_rowSelected hrow hsel
    rw [rowSelected_of_decode hi hrow] at hsel
    exact ⟨i, hi, (eq_of_beq hsel).symm⟩
  · cases hw : decode w with
    | ok i =>
      have hnodup : (opcodeRows.map (·.name)).Nodup := by decide
      rw [List.filter_congr fun row hrow => rowSelected_of_decode hw hrow, ← List.countP_eq_length_filter]
      exact (List.countP_map ..).symm.trans_le (List.nodup_iff_count_le_one.mp hnodup (mnemonic i))
    | error e =>
      have hnone : opcodeRows.filter (rowSelected w) = [] := List.filter_eq_nil_iff.mpr fun row hrow hsel => by
        obtain ⟨i, hi⟩ := exists_decode_of_rowSelected hrow hsel
        rw [hw] at hi
        cases hi
      simp [hnone]

/-! ### Operands (R96) -/

theorem fieldA_toNat (w : Cw40) : (fieldA w).toNat = w.toNat / 2 ^ 24 % 2 ^ 8 := by
  rw [fieldA, BitVec.extractLsb'_toNat, Nat.shiftRight_eq_div_pow]

theorem fieldB_toNat (w : Cw40) : (fieldB w).toNat = w.toNat / 2 ^ 16 % 2 ^ 8 := by
  rw [fieldB, BitVec.extractLsb'_toNat, Nat.shiftRight_eq_div_pow]

theorem fieldC_toNat (w : Cw40) : (fieldC w).toNat = w.toNat % 2 ^ 16 := by
  rw [fieldC, BitVec.extractLsb'_toNat, Nat.shiftRight_zero]

theorem zero_append_toNat_mod {m k : Nat} (x : BitVec k) : (0#m ++ x).toNat % 2 ^ k = x.toNat := by
  simp [BitVec.toNat_append, Nat.mod_eq_of_lt x.isLt]

@[simp] theorem bitOperand_toNat (n : BitIx) : (0#13 ++ n).toNat % 8 = n.toNat := zero_append_toNat_mod n

@[simp] theorem byteOperand_toNat (v : Byte) : (0#8 ++ v).toNat % 256 = v.toNat := zero_append_toNat_mod v

@[simp] theorem encPort_toNat (p : Port) : (encPort p).toNat % 4 = (portCode p).toNat := zero_append_toNat_mod _

@[simp] theorem encPin_toNat (n : BitIx) : (encPin n).toNat % 8 = n.toNat := zero_append_toNat_mod n

theorem encSlave_toNat (rsz : RegSize) (slave : BitVec 7) :
    (encSlave rsz slave).toNat = (regSizeBit rsz).toNat * 128 + slave.toNat := by
  rw [encSlave, BitVec.toNat_append, ← Nat.shiftLeft_add_eq_or_of_lt slave.isLt, Nat.shiftLeft_eq, BitVec.toNat_ofBool]

@[simp] theorem encSlave_toNat_div (rsz : RegSize) (slave : BitVec 7) :
    (encSlave rsz slave).toNat / 128 = (regSizeBit rsz).toNat := by
  have hlt : slave.toNat < 2 ^ 7 := slave.isLt
  rw [encSlave_toNat]
  omega

@[simp] theorem encSlave_toNat_mod (rsz : RegSize) (slave : BitVec 7) :
    (encSlave rsz slave).toNat % 128 = slave.toNat := by
  have hlt : slave.toNat < 2 ^ 7 := slave.isLt
  rw [encSlave_toNat]
  omega

/-- Settles O5: the word is the encoding of what it decodes to, and the encoder puts each operand in its field. -/
theorem operandsAreTheirFields : Obligations.OperandsAreTheirFields := by
  intro w i h
  have henc := encode_of_decode defaultParams h
  rw [← fieldA_toNat, ← fieldB_toNat, ← fieldC_toNat]
  cases i with
  | setbit a n => cases henc; simp
  | clrbit a n => cases henc; simp
  | tstbit a n => cases henc; simp
  | cfgpinOut p n pu => cases henc; cases pu <;> simp
  | cfgpinInpu p n => cases henc; simp
  | cfgpinIn p n => cases henc; simp
  | wrpin p n level => cases henc; cases level <;> simp
  | tglpin p n => cases henc; simp
  | rdpin p n => cases henc; simp
  | twstart => cases henc; rfl
  | twstop => cases henc; rfl
  | twtx v => cases henc; simp
  | twrx more => cases henc; cases more <;> rfl
  | twrega rsz reg => cases henc; cases rsz <;> simp [regSizeBit]
  | twwrmem rsz slave n reg => cases henc; simp
  | twrdmem rsz slave n reg => cases henc; simp
  | cwStart => cases henc
  | cwStop => cases henc
  | cwXferNack => cases henc
  | cwXferAck => cases henc

end Sys2Proof
end

/-! SUPPORT. A control word written by itself (R201, R203); the GPIO commands that no other agent interrupts (R106, R131
to R138), segment by segment. -/

section
namespace Sys2Proof.Machine

/-! ### Control words written by themselves (R98, R201, R203) -/

theorem performCtrl_free {s : State} (h : EngineFree s) (w : CtrlWord) :
    performCtrl w s = .next { s with
      ctrl := ctrlAfter s w false, pending := pendingOf w, phase := if w = .stop then .stop else s.phase } := by
  simp only [performCtrl, ctrlWriteWaiting, ctrlWrite_free h]

theorem ctrlWrite_held {s : State} (h : s.phase = .stop) (w : CtrlWord) : ctrlWrite w s = .held s := if_pos h

/-- A held write gives the engine its chance (R203; log 14): `u` is the state in which the engine stops. -/
theorem performCtrl_stopDone {s u : State} (hs : s.phase = .stop) (hu : u.phase = .stop) (w : CtrlWord)
    (hstep : engineChance s = .done (engineStop u)) :
    performCtrl w s = .next { stopDone u with
      ctrl := ctrlAfter u w false, pending := pendingOf w, phase := if w = .stop then .stop else .idle } := by
  have hfree : EngineFree (engineStop u) := ⟨rfl, Phase.noConfusion⟩
  simp only [performCtrl, ctrlWriteWaiting, ctrlWrite_held hs, hstep, ctrlWrite_free hfree, stopDone, hu, if_true]
  rfl

theorem performCtrl_held {s t : State} (hs : s.phase = .stop) (w : CtrlWord) (hstep : engineChance s = .held t) :
    performCtrl w s = .next t := by
  simp only [performCtrl, ctrlWriteWaiting, ctrlWrite_held hs, hstep]

/-- Settles O34: the write goes through, is refused, or waits for the stop, which the engine does or not. -/
theorem controlWordLaunches : Obligations.ControlWordLaunches := by
  intro w s
  rw [exec_ctrlInstr]
  refine ⟨fun hfree => performCtrl_free hfree w, fun hphase hpend => ?_, fun hstop hfair => ?_, fun hstop hstuck => ?_,
    fun hstop hmode => ?_⟩
  · simp [performCtrl, ctrlWriteWaiting, ctrlWrite, hphase, hpend]
  · have ⟨_, hphase, _⟩ := hstop
    exact performCtrl_stopDone hphase hphase w ((engineChance_fair hfair).trans (engineStep_stop hstop))
  · have ⟨_, hphase, _⟩ := hstop
    exact performCtrl_held hphase w (engineChance_stuck hstuck)
  · have ⟨_, hphase, _⟩ := hstop
    cases hmoves : Config.engineMoves s.draws with
    | false => exact .inl (performCtrl_held hphase w (by simp [engineChance, hmode, hmoves]))
    | true =>
      have hstep : engineChance s = .done (engineStop { s with draws := s.draws + 1 }) := by
        simp [engineChance, hmode, hmoves, engineStep_stop (s := { s with draws := s.draws + 1 }) hstop]
      exact .inr ((performCtrl_stopDone (u := { s with draws := s.draws + 1 }) hphase hphase w hstep).trans (by simp [stopDone, hphase, ctrlAfter]))

/-! ### Segments of a GPIO command -/

section
variable {par : Params} {p : Port} {n m : Nat} {ls ls' : Lines} {f g : Bool × Bool → PortRegs → PortRegs}

/-- Wherever they stand in a command that no other agent interrupts, the lines change the registers of one port as `f`
says, which may look at the snapshot, and else nothing but the latch `t`, that only by a bit operation in two steps
(R72). -/
def PortLines (par : Params) (p : Port) (n : Nat) (ls : Lines) (f : Bool × Bool → PortRegs → PortRegs) : Prop :=
  ∀ (pre post : Lines) (s : State), s.plan = [] → s.upc = pre.length + 1 →
    ∃ x, (par.bitopAtomic = true → x = s.tmp) ∧
      Reaches (pre ++ (ls ++ post)) n s
        (goto ls.length (setPort { s with tmp := x } p (f (s.snapD, s.snapL) (getPort s p))))

theorem PortLines.append (h : PortLines par p n ls f) (h' : PortLines par p m ls' g) :
    PortLines par p (n + m) (ls ++ ls') fun q r => g q (f q r) := by
  intro pre post s hp hu
  obtain ⟨x, hx, hfirst⟩ := h pre (ls' ++ post) s hp hu
  obtain ⟨y, hy, hsecond⟩ := h' (pre ++ ls) post
    (goto ls.length (setPort { s with tmp := x } p (f (s.snapD, s.snapL) (getPort s p)))) (by cases p <;> exact hp)
    (by cases p <;> simp [setPort, hu] <;> omega)
  refine ⟨y, fun ha => (hy ha).trans (by cases p <;> exact hx ha), ?_⟩
  rw [List.append_assoc] at hsecond ⊢
  convert hfirst.trans hsecond using 1
  cases p <;> simp [goto, setPort, getPort, Nat.add_assoc]

theorem PortLines.ifThen (d l : Bool) (h : PortLines par p n ls f) :
    PortLines par p (n + 1) (ifThen (.snapIs d l) ls) fun q r => if q = (d, l) then f q r else r := by
  intro pre post s hp hu
  have hbranch : Reaches (pre ++ (Machine.ifThen (.snapIs d l) ls ++ post)) 1 s
      (goto (if condHolds s (.snapIs d l) then 1 else ls.length + 1) s) :=
    Reaches.line (l := .branch (.snapIs d l) ls.length) (by omega) hp (lineAt_of hu (by simp [Machine.ifThen])) rfl
  by_cases hsnap : (s.snapD, s.snapL) = (d, l)
  · rw [if_pos (condHolds_snapIs.mpr hsnap)] at hbranch
    obtain ⟨x, hx, hbody⟩ := h (pre ++ [.branch (.snapIs d l) ls.length]) post (goto 1 s) hp (by simp [hu])
    refine ⟨x, hx, ?_⟩
    rw [List.append_assoc] at hbody
    dsimp only
    rw [if_pos hsnap, Nat.add_comm n]
    convert hbranch.trans hbody using 1
    cases p <;> simp [goto, setPort, getPort, Machine.ifThen, Nat.add_assoc, Nat.add_comm 1]
  · rw [if_neg (mt condHolds_snapIs.mp hsnap)] at hbranch
    refine ⟨s.tmp, fun _ => rfl, ?_⟩
    dsimp only
    rw [if_neg hsnap, setPort_getPort]
    exact hbranch.mono (Nat.le_add_left ..)

theorem BitOpLines.portLines_dir {h : Byte → Byte} (hops : BitOpLines (.dir p) h par.bitopAtomic ls) :
    PortLines par p 2 ls fun _ r => { r with dir := h r.dir } := by
  intro pre post s hp hu
  obtain ⟨x, hx, hreach⟩ := hops.reaches (post := post) rfl rfl hp hu
  exact ⟨x, hx, by cases p <;> exact hreach⟩

theorem BitOpLines.portLines_out {h : Byte → Byte} (hops : BitOpLines (.out p) h par.bitopAtomic ls) :
    PortLines par p 2 ls fun _ r => { r with out := h r.out } := by
  intro pre post s hp hu
  obtain ⟨x, hx, hreach⟩ := hops.reaches (post := post) rfl rfl hp hu
  exact ⟨x, hx, by cases p <;> exact hreach⟩

/-- The lines up to the response (R130, R139). -/
theorem PortLines.reaches_response {pre : Lines} {s : State} (h : PortLines par p m ls f) (hp : s.plan = [])
    (hu : s.upc = pre.length + 1) :
    ∃ x, (par.bitopAtomic = true → x = s.tmp) ∧
      Reaches (pre ++ (ls ++ [respondSuccess par])) (m + 1) s
        (respond par.resSuccess 0 (setPort { s with tmp := x } p (f (s.snapD, s.snapL) (getPort s p)))) := by
  obtain ⟨x, hx, hreach⟩ := h pre [respondSuccess par] s hp hu
  refine ⟨x, hx, ?_⟩
  convert hreach.trans (Reaches.respond (u := pre.length + ls.length) (c := .lit par.resSuccess) (d := .lit 0)
    (by cases p <;> simp [setPort, hu] <;> omega) (by cases p <;> exact hp) (by simp [respondSuccess])) using 1
  cases p <;> rfl

/-- The snapshot of a `CFGPIN` that no other agent interrupts (R131). -/
theorem Reaches.snapshot_alone {code : Lines} {s : State} {n : BitIx} (hp : s.plan = [])
    (hD : code[0]? = some (.snapD p n)) (hL : code[1]? = some (.snapL p n)) :
    Reaches code 2 { s with upc := 1 } (snapped [] p n s) := by
  have hsnapD : Reaches code 1 { s with upc := 1 } { s with plan := [], upc := 2, snapD := (pinPair s p n).1 } :=
    Reaches.line (l := .snapD p n) Nat.one_ne_zero hp (lineAt_of (u := 0) rfl hD) (by rw [← hp]; rfl)
  exact hsnapD.trans (Reaches.line (l := .snapL p n) (Nat.succ_ne_zero 1) rfl (lineAt_of (u := 1) rfl hL) rfl)

/-- A `CFGPIN` that no other agent interrupts: the snapshot, what its lines do of it, the response. -/
theorem PortLines.perform_snapshot {s : State} (h : PortLines par p m ls f) (n : BitIx) (hu : s.upc = 0)
    (hp : s.plan = []) (hm : m + 3 ≤ turnBudget) :
    ∃ x, (par.bitopAtomic = true → x = s.tmp) ∧
      perform (snapshotLines p n ++ (ls ++ [respondSuccess par])) s = .next (respond par.resSuccess 0
        (setPort { s with snapD := (pinPair s p n).1, snapL := (pinPair s p n).2, tmp := x } p
          (f (pinPair s p n) (getPort s p)))) := by
  obtain ⟨x, hx, hrest⟩ := h.reaches_response (pre := snapshotLines p n) (s := snapped [] p n s) rfl rfl
  refine ⟨x, hx, ?_⟩
  have hend := (Reaches.snapshot_alone (code := snapshotLines p n ++ (ls ++ [respondSuccess par])) hp rfl rfl).trans hrest
  rw [hend.perform hu rfl (by omega)]
  cases p <;> simp [respond, setPort, getPort, snapped, hp]

/-- A GPIO command without a snapshot that no other agent interrupts. -/
theorem PortLines.perform {s : State} (h : PortLines par p m ls f) (hu : s.upc = 0) (hp : s.plan = [])
    (hm : m + 1 ≤ turnBudget) :
    ∃ x, (par.bitopAtomic = true → x = s.tmp) ∧
      perform (ls ++ [respondSuccess par]) s = .next (respond par.resSuccess 0
        (setPort { s with tmp := x } p (f (s.snapD, s.snapL) (getPort s p)))) := by
  obtain ⟨x, hx, hrest⟩ := h.reaches_response (pre := []) (s := { s with upc := 1 }) hp rfl
  refine ⟨x, hx, (hrest.perform hu rfl hm).trans ?_⟩
  cases p <;> rfl

end

/-! ### Two bit operations on one bit -/

theorem setBit_setBit (v : Byte) (n : BitIx) : setBit (setBit v n) n = setBit v n :=
  byte_ext fun m => by
    simp only [testBit_setBit]
    split <;> rfl

theorem clearBit_clearBit (v : Byte) (n : BitIx) : clearBit (clearBit v n) n = clearBit v n :=
  byte_ext fun m => by
    simp only [testBit_clearBit]
    split <;> rfl

theorem clearBit_setBit (v : Byte) (n : BitIx) : clearBit (setBit v n) n = clearBit v n :=
  byte_ext fun m => by
    simp only [testBit_clearBit, testBit_setBit]
    split <;> rfl

/-! ### The GPIO commands, without another agent (R132 to R136) -/

section
variable {s : State} (p : Port) (n : BitIx)

theorem exec_cfgpinOut (pu : Bool) (hu : s.upc = 0) (hp : s.plan = []) :
    ∃ x, (s.par.bitopAtomic = true → x = s.tmp) ∧ exec (.cfgpinOut p n pu) s = .next (respond s.par.resSuccess 0
      (setPort { s with snapD := (pinPair s p n).1, snapL := (pinPair s p n).2, tmp := x } p
        { getPort s p with
          dir := setBit (getPort s p).dir n
          out := if pinPair s p n = (false, true) then clearBit (getPort s p).out n else (getPort s p).out })) := by
  have hlines := ((bitClearLines_bitOp s.par (.out p) n).portLines_out.ifThen false true).append
    (bitSetLines_bitOp s.par (.dir p) n).portLines_dir
  obtain ⟨x, hx, hdone⟩ := hlines.perform_snapshot n hu hp (by decide)
  refine ⟨x, hx, ?_⟩
  rw [exec, execCfgpinOut, cfgpinOutLines]
  simp only [List.append_assoc] at hdone ⊢
  rw [hdone]
  split_ifs <;> rfl

theorem exec_cfgpinInpu (hu : s.upc = 0) (hp : s.plan = []) :
    ∃ x, (s.par.bitopAtomic = true → x = s.tmp) ∧ exec (.cfgpinInpu p n) s = .next (respond s.par.resSuccess 0
      (setPort { s with snapD := (pinPair s p n).1, snapL := (pinPair s p n).2, tmp := x } p
        { getPort s p with dir := clearBit (getPort s p).dir n, out := setBit (getPort s p).out n })) := by
  have hset := (bitSetLines_bitOp s.par (.out p) n).portLines_out
  have hlines := ((hset.ifThen true false).append (bitClearLines_bitOp s.par (.dir p) n).portLines_dir).append hset
  obtain ⟨x, hx, hdone⟩ := hlines.perform_snapshot n hu hp (by decide)
  refine ⟨x, hx, ?_⟩
  rw [exec, execCfgpinInpu, cfgpinInpuLines]
  simp only [List.append_assoc] at hdone ⊢
  rw [hdone]
  split_ifs
  · dsimp only
    rw [setBit_setBit]
  · rfl

theorem exec_cfgpinIn (hu : s.upc = 0) (hp : s.plan = []) :
    ∃ x, (s.par.bitopAtomic = true → x = s.tmp) ∧ exec (.cfgpinIn p n) s = .next (respond s.par.resSuccess 0
      (setPort { s with snapD := (pinPair s p n).1, snapL := (pinPair s p n).2, tmp := x } p
        { getPort s p with dir := clearBit (getPort s p).dir n, out := clearBit (getPort s p).out n })) := by
  have hset := (bitSetLines_bitOp s.par (.dir p) n).portLines_dir
  have hclear := (bitClearLines_bitOp s.par (.out p) n).portLines_out
  have hlines := (((hset.append hclear).ifThen true true).append
    (bitClearLines_bitOp s.par (.dir p) n).portLines_dir).append hclear
  obtain ⟨x, hx, hdone⟩ := hlines.perform_snapshot n hu hp (by decide)
  refine ⟨x, hx, ?_⟩
  rw [exec, execCfgpinIn, cfgpinInLines]
  simp only [List.append_assoc] at hdone ⊢
  rw [hdone]
  split_ifs
  · dsimp only
    rw [clearBit_setBit, clearBit_clearBit]
  · rfl

theorem exec_wrpin (level : Bool) (hu : s.upc = 0) (hp : s.plan = []) :
    ∃ x, (s.par.bitopAtomic = true → x = s.tmp) ∧ exec (.wrpin p n level) s = .next (respond s.par.resSuccess 0
      (setPort { s with tmp := x } p
        { getPort s p with
          out := if level then setBit (getPort s p).out n else clearBit (getPort s p).out n })) := by
  cases level with
  | true => exact (bitSetLines_bitOp s.par (.out p) n).portLines_out.perform hu hp (by decide)
  | false => exact (bitClearLines_bitOp s.par (.out p) n).portLines_out.perform hu hp (by decide)

theorem execAll_cons_next {i : Instr} {rest : List Instr} {t : State} (h : exec i s = .next t) :
    execAll (i :: rest) s = execAll rest t := by
  simp only [execAll, h]

theorem pinPair_respond_setPort (c d : Byte) (u : State) (r : PortRegs) :
    pinPair (respond c d (setPort u p r)) p n = (testBit r.dir n, testBit r.out n) := by
  rw [pinPair, respond_getPort, getPort_setPort]

theorem exec_cfgpinOut_isOutput (pu : Bool) (hu : s.upc = 0) (hp : s.plan = []) :
    ∃ t, exec (.cfgpinOut p n pu) s = .next t ∧ t.upc = 0 ∧ t.plan = [] ∧ t.rsp.length = s.rsp.length + 1 ∧
      testBit (getPort t p).dir n = true := by
  obtain ⟨x, -, hdone⟩ := exec_cfgpinOut p n pu hu hp
  exact ⟨_, hdone, rfl, by simpa using hp, by simp [respond], by simp [testBit_setBit]⟩

/-- `CFGPIN .., OUT`, then `WRPIN`: the pin is an output at the level written (R106). -/
theorem execAll_cfgpinOut_wrpin (level : Bool) (hu : s.upc = 0) (hp : s.plan = []) :
    ∃ t, execAll [.cfgpinOut p n false, .wrpin p n level] s = .next t ∧ pinPair t p n = (true, level) ∧
      t.rsp.length = s.rsp.length + 2 := by
  obtain ⟨u, hout, huu, hup, hursp, hudir⟩ := exec_cfgpinOut_isOutput p n false hu hp
  obtain ⟨x, -, hdone⟩ := exec_wrpin p n level huu hup
  refine ⟨_, (execAll_cons_next hout).trans (execAll_cons_next hdone), ?_, by simp [respond, hursp]⟩
  rw [pinPair_respond_setPort]
  cases level <;> simp [testBit_setBit, testBit_clearBit, hudir]

/-- Settles O29: each expansion ends with the direction and the level bit of its target. -/
theorem setstateReachesItsTarget : Obligations.SetstateReachesItsTarget := by
  intro s p n target hu hp
  cases target with
  | outLow =>
    obtain ⟨t, ht, hpair, hrsp⟩ := execAll_cfgpinOut_wrpin p n false hu hp
    exact ⟨t, ht, congrArg pairState hpair, hrsp⟩
  | outHigh =>
    obtain ⟨t, ht, hpair, hrsp⟩ := execAll_cfgpinOut_wrpin p n true hu hp
    exact ⟨t, ht, congrArg pairState hpair, hrsp⟩
  | inPullupOn =>
    obtain ⟨x, -, hdone⟩ := exec_cfgpinInpu p n hu hp
    refine ⟨_, execAll_cons_next hdone, ?_, by simp [respond, setStateCommands]⟩
    rw [pinState, pinPair_respond_setPort]
    simp [testBit_setBit, testBit_clearBit, pairState]
  | inPullupOff =>
    obtain ⟨x, -, hdone⟩ := exec_cfgpinIn p n hu hp
    refine ⟨_, execAll_cons_next hdone, ?_, by simp [respond, setStateCommands]⟩
    rw [pinState, pinPair_respond_setPort]
    simp [testBit_clearBit, pairState]

/-- Settles O25: one read of `IN` into `t`, one bit of `t` responded (R138). -/
theorem rdpinResult : Obligations.RdpinResult := by
  intro s p n hu hp
  have hload : Reaches (rdpinLines s.par p n) 1 { s with upc := 1 }
      { s with upc := 2, tmp := (regRead (.input p) s).1, draws := s.draws + 1 } :=
    Reaches.line (l := .load (.input p)) Nat.one_ne_zero hp rfl (by cases p <;> rfl)
  have hend := hload.trans (Reaches.respond (u := 1) (c := .lit s.par.resSuccess) (d := .tBit n) rfl hp rfl)
  exact ⟨_, _, hend.perform hu rfl (by decide)⟩

end

end Sys2Proof.Machine
end

/-! SUPPORT. The frame of the register primitives SETBIT, CLRBIT and TSTBIT (R120 to R123), where no other agent has a
turn. -/

section
namespace Sys2Proof.Machine

/-! ### Commands without a line that waits -/

/-- Where every line goes through, the engine has no step inside the command, and what the lines keep, the run keeps. -/
theorem run_keeps_of_done {P : State → Prop} {code : Lines}
    (hline : ∀ l ∈ code, ∀ s, P s → ∃ t, lineStep l s = .done t ∧ P t) {k : Nat} {s t : State} (hp : s.plan = [])
    (hs : P s) (h : run k code s = .next t) : P t := by
  induction k generalizing s with
  | zero => cases h; exact hs
  | succ k ih =>
    by_cases hu : s.upc = 0
    · rw [run_idle _ _ hu] at h
      cases h
      exact hs
    · cases hl : lineAt code s with
      | none => simp [run, hu, turn, hp, sequencerStep, hl] at h
      | some l =>
        obtain ⟨u, hdone, hPu⟩ := hline l (lineAt_mem hl) s hs
        rw [run_goesOn hu (turn_line hp hl hdone)] at h
        exact ih ((lineStep_plan hdone).trans hp) hPu h

theorem perform_keeps_of_done {P : State → Prop} {code : Lines}
    (hline : ∀ l ∈ code, ∀ s, P s → ∃ t, lineStep l s = .done t ∧ P t) {s t : State} (hp : s.plan = [])
    (hstart : s.upc = 0 → P { s with upc := 1 }) (hs : s.upc ≠ 0 → P s) (h : perform code s = .next t) : P t := by
  unfold perform at h
  split at h
  next hu => exact run_keeps_of_done hline (s := { s with upc := 1 }) hp (hstart hu) h
  next hu => exact run_keeps_of_done hline hp (hs hu) h

/-! ### The lines of the register primitives -/

/-- The lines the register primitives are made of, where `w` is the plain-storage register they store in, if any. -/
def Line.isPrimitive (w : Option Reg) : Line → Bool
  | .bitSet r _ | .bitClear r _ | .putSet r _ | .putClear r _ => plainStorage r && w == some r
  | .fetch r => plainStorage r
  | .load _ | .respond _ _ => true
  | _ => false

/-- The registers and pads of a port without the register `w`. -/
def portMasked (w : Option Reg) (p : Port) (r : PortRegs) : PortRegs :=
  { r with dir := if w = some (.dir p) then 0 else r.dir, out := if w = some (.out p) then 0 else r.out }

/-- The state without what such lines may change: the register `w`, the latch `t`, the count of draws, the position and
the responses (R121 to R123). -/
def primitiveMasked (w : Option Reg) (s : State) : State :=
  { s with
    portB := portMasked w .B s.portB, portC := portMasked w .C s.portC, portD := portMasked w .D s.portD,
    twBitrate := if w = some .twBitrate then 0 else s.twBitrate,
    tmp := 0, draws := 0, pc := 0, upc := 0, rsp := [] }

theorem primitiveMasked_storeReg (r : Reg) (v : Byte) (s : State) :
    primitiveMasked (some r) (storeReg r v s) = primitiveMasked (some r) s := by
  cases r with
  | dir p => cases p <;> rfl
  | out p => cases p <;> rfl
  | _ => rfl

theorem lineStep_primitive_of_store {w : Option Reg} {l : Line} {r : Reg} {v : Byte} {s : State}
    (hw : (plainStorage r && w == some r) = true)
    (h : plainStorage r = true → lineStep l s = thenNext (.done (storeReg r v s))) :
    ∃ t, lineStep l s = .done t ∧ primitiveMasked w t = primitiveMasked w s := by
  obtain ⟨hr, rfl⟩ : plainStorage r = true ∧ w = some r := by simpa using hw
  exact ⟨_, h hr, primitiveMasked_storeReg r v s⟩

/-- Every such line goes through, and changes only what is masked. -/
theorem lineStep_primitive {w : Option Reg} {l : Line} (hl : l.isPrimitive w = true) (s : State) :
    ∃ t, lineStep l s = .done t ∧ primitiveMasked w t = primitiveMasked w s := by
  cases l with
  | bitSet r b => exact lineStep_primitive_of_store hl fun hr => congrArg thenNext (bitSetReg_plain hr b s)
  | bitClear r b => exact lineStep_primitive_of_store hl fun hr => congrArg thenNext (bitClearReg_plain hr b s)
  | putSet r b => exact lineStep_primitive_of_store hl fun hr => congrArg thenNext (regWrite_plain hr _ s)
  | putClear r b => exact lineStep_primitive_of_store hl fun hr => congrArg thenNext (regWrite_plain hr _ s)
  | fetch r => exact ⟨_, lineStep_fetch hl s, rfl⟩
  | load r => exact ⟨_, rfl, by cases r <;> rfl⟩
  | respond c d => exact ⟨_, rfl, rfl⟩
  | _ => cases hl

theorem perform_primitiveMasked {w : Option Reg} {code : Lines} (hc : ∀ l ∈ code, l.isPrimitive w = true)
    {s t : State} (hp : s.plan = []) (h : perform code s = .next t) : primitiveMasked w t = primitiveMasked w s :=
  perform_keeps_of_done (P := fun x => primitiveMasked w x = primitiveMasked w s)
    (fun l hl x hx =>
      have ⟨y, hdone, hy⟩ := lineStep_primitive (hc l hl) x
      ⟨y, hdone, hy.trans hx⟩)
    hp (fun _ => rfl) (fun _ => rfl) h

theorem bitSetLines_primitive (par : Params) {r : Reg} (h : plainStorage r = true) (b : BitIx) :
    ∀ l ∈ bitSetLines par r b, l.isPrimitive (some r) = true := by
  unfold bitSetLines
  split <;> simp [Line.isPrimitive, h]

theorem bitClearLines_primitive (par : Params) {r : Reg} (h : plainStorage r = true) (b : BitIx) :
    ∀ l ∈ bitClearLines par r b, l.isPrimitive (some r) = true := by
  unfold bitClearLines
  split <;> simp [Line.isPrimitive, h]

/-! ### The frame -/

theorem perform_bitOp_primitiveMasked {r : Reg} {ls : Lines} (hls : ∀ l ∈ ls, l.isPrimitive (some r) = true)
    {s t : State} (hp : s.plan = []) (h : perform (ls ++ [.respond (.lit 0) (.lit 0)]) s = .next t) :
    primitiveMasked (some r) t = primitiveMasked (some r) s :=
  perform_primitiveMasked (List.forall_mem_append.mpr ⟨hls, by simp [Line.isPrimitive]⟩) hp h

theorem exists_plainStorage_of_wellFormed {par : Params} {a : Byte} {b : BitIx}
    (h : wellFormed par (.setbit a b) = true) : ∃ r, regAt par a = some r ∧ plainStorage r = true := by
  cases hat : regAt par a with
  | none => simp [wellFormed, hat] at h
  | some r => exact ⟨r, rfl, by simpa [wellFormed, hat] using h⟩

/-- An admitted register primitive changes at most the register its address names, and `TSTBIT` none (R120 to R123). -/
theorem exec_primitiveMasked {i : Instr} {s t : State} {a : Byte} {b : BitIx}
    (hi : i ∈ [Instr.setbit a b, .clrbit a b, .tstbit a b]) (hw : wellFormed s.par i = true) (hp : s.plan = [])
    (h : exec i s = .next t) :
    primitiveMasked (regAt s.par a) t = primitiveMasked (regAt s.par a) s ∧
      (i = .tstbit a b → primitiveMasked none t = primitiveMasked none s) := by
  obtain rfl | rfl | rfl : i = .setbit a b ∨ i = .clrbit a b ∨ i = .tstbit a b := by simpa using hi
  · obtain ⟨r, hat, hr⟩ := exists_plainStorage_of_wellFormed hw
    rw [exec_setbit hat] at h
    rw [hat]
    exact ⟨perform_bitOp_primitiveMasked (bitSetLines_primitive s.par hr b) hp h, Instr.noConfusion⟩
  · obtain ⟨r, hat, hr⟩ := exists_plainStorage_of_wellFormed (b := b) hw
    rw [exec_clrbit hat] at h
    rw [hat]
    exact ⟨perform_bitOp_primitiveMasked (bitClearLines_primitive s.par hr b) hp h, Instr.noConfusion⟩
  · obtain ⟨r, hat⟩ := Option.isSome_iff_exists.mp hw
    have hrun : perform [.load r, .respond (.lit 0) (.tBit b)] s = .next t :=
      (congrArg (perform · s) (atAddress_mapped hat _)).symm.trans h
    have hlines : ∀ w, ∀ l ∈ [Line.load r, .respond (.lit 0) (.tBit b)], l.isPrimitive w = true := by
      simp [Line.isPrimitive]
    exact ⟨perform_primitiveMasked (hlines _) hp hrun, fun _ => perform_primitiveMasked (hlines _) hp hrun⟩

section
variable {w : Option Reg} {s t : State} (h : primitiveMasked w t = primitiveMasked w s)
include h

theorem portMasked_of_primitiveMasked (p : Port) :
    portMasked w p (getPort t p) = portMasked w p (getPort s p) := by
  cases p with
  | B => exact (congrArg State.portB h :)
  | C => exact (congrArg State.portC h :)
  | D => exact (congrArg State.portD h :)

theorem portDir_of_primitiveMasked {p : Port} (hw : w ≠ some (.dir p)) : (getPort t p).dir = (getPort s p).dir := by
  simpa [portMasked, hw] using congrArg PortRegs.dir (portMasked_of_primitiveMasked h p)

theorem portOut_of_primitiveMasked {p : Port} (hw : w ≠ some (.out p)) : (getPort t p).out = (getPort s p).out := by
  simpa [portMasked, hw] using congrArg PortRegs.out (portMasked_of_primitiveMasked h p)

theorem twBitrate_of_primitiveMasked (hw : w ≠ some .twBitrate) : t.twBitrate = s.twBitrate := by
  simpa [primitiveMasked, hw] using congrArg State.twBitrate h

end

/-- Settles O19: each line of a register primitive goes through, so the engine has no step, and changes only what is
masked. -/
theorem registerPrimitiveFrame : Obligations.RegisterPrimitiveFrame := by
  intro i s t a b hi hw hp h
  obtain ⟨hmask, htst⟩ := exec_primitiveMasked hi hw hp h
  have hbuf : t.buf = s.buf := (congrArg State.buf hmask :)
  exact ⟨(congrArg State.ctrl hmask :), (congrArg State.twCode hmask :), (congrArg State.ps hmask :),
    (congrArg State.twData hmask :),
    fun p => ⟨portDir_of_primitiveMasked hmask, portOut_of_primitiveMasked hmask⟩,
    twBitrate_of_primitiveMasked hmask,
    fun hi => ⟨⟨(congrArg State.portB (htst hi) :), (congrArg State.portC (htst hi) :),
      (congrArg State.portD (htst hi) :)⟩, (congrArg State.twBitrate (htst hi) :)⟩,
    (congrArg State.phase hmask :), (congrArg State.dir hmask :), (congrArg State.nack hmask :),
    (congrArg State.pending hmask :), (congrArg State.buslog hmask :),
    ⟨hbuf, fun j => by rw [bufRead, hbuf, bufRead]⟩,
    fun p => (congrArg PortRegs.ext (portMasked_of_primitiveMasked hmask p) :),
    (congrArg State.st hmask :), (congrArg State.cnt hmask :), (congrArg State.rxb hmask :),
    (congrArg State.snapD hmask :), (congrArg State.snapL hmask :), (congrArg State.cmd hmask :),
    (congrArg State.par hmask :), (congrArg State.prog hmask :)⟩

end Sys2Proof.Machine
end

/-! SUPPORT. What a GPIO command makes of its pin: the state it ends in (R132 to R137), each line's effect on the pin's
two bits and on nothing else (R140, R141), and with it the transition table (R135). -/

section
namespace Sys2Proof.Machine

/-! ### The GPIO commands from an idle sequencer (R132 to R137) -/

/-- `CFGPIN .., OUT` leaves a pin that was an output at its level, and turns an input into an output that drives low. -/
theorem pairState_cfgpinOut (q : Bool × Bool) :
    pairState (true, if q = (false, true) then false else q.2) =
      if pairState q = .outHigh then .outHigh else .outLow := by
  obtain ⟨d, l⟩ := q
  cases d <;> cases l <;> rfl

/-- Settles O20: an output keeps its level, and the level bit of an input is 0 once the pull-up is off (R132). -/
theorem cfgpinOutResult : Obligations.CfgpinOutResult := by
  intro s p n pu hu hp
  obtain ⟨x, hx, hdone⟩ := exec_cfgpinOut p n pu hu hp
  refine ⟨x, _, hx, ?_, hdone, ?_⟩
  · rfl
  · rw [pinState, pinState, pinPair_respond_setPort, ← pairState_cfgpinOut (pinPair s p n)]
    by_cases hpull : pinPair s p n = (false, true)
    · simp [hpull, testBit_setBit, testBit_clearBit]
    · rw [if_neg hpull, if_neg hpull]
      simp [testBit_setBit, pinPair]

/-- Settles O21: the last two writes give the pin the pair of an input with, or without, its pull-up (R133, R134). -/
theorem cfgpinInputResults : Obligations.CfgpinInputResults := by
  intro s p n hu hp
  obtain ⟨x, hx, hinpu⟩ := exec_cfgpinInpu p n hu hp
  obtain ⟨y, hy, hin⟩ := exec_cfgpinIn p n hu hp
  refine ⟨⟨x, _, hx, ?_, hinpu, ?_⟩, y, _, hy, ?_, hin, ?_⟩
  · rfl
  · rw [pinState, pinPair_respond_setPort]
    simp [testBit_setBit, testBit_clearBit, pairState]
  · rfl
  · rw [pinState, pinPair_respond_setPort]
    simp [testBit_clearBit, pairState]

/-- Settles O23: one bit operation on the level bit, whatever the direction bit is (R136). -/
theorem wrpinResult : Obligations.WrpinResult := by
  intro s p n level hu hp
  obtain ⟨x, hx, hdone⟩ := exec_wrpin p n level hu hp
  refine ⟨x, _, hx, hdone, ?_, ?_⟩
  · rfl
  · rw [pinPair_respond_setPort]
    cases level <;> simp [testBit_setBit, testBit_clearBit, pinPair]

/-- `TGLPIN` where no other agent has a turn: one write of a one-hot byte to `IN`, no read (R137). -/
theorem exec_tglpin {s : State} (p : Port) (n : BitIx) (hu : s.upc = 0) (hp : s.plan = []) :
    exec (.tglpin p n) s = .next (respond s.par.resSuccess 0
      (setPort s p { getPort s p with out := (getPort s p).out ^^^ oneHot n })) := by
  have hstore : Reaches (tglpinLines s.par p n) 1 { s with upc := 1 }
      (goto 1 (setPort { s with upc := 1 } p { getPort s p with out := (getPort s p).out ^^^ oneHot n })) :=
    Reaches.line (l := .store (.input p) (.lit (oneHot n))) Nat.one_ne_zero hp rfl (by cases p <;> rfl)
  have hend := hstore.trans (Reaches.respond (u := 1) (c := .lit s.par.resSuccess) (d := .lit 0) (by simp)
    (by simpa using hp) rfl)
  refine (hend.perform hu rfl (by decide)).trans ?_
  cases p <;> rfl

theorem execAll_singleton (i : Instr) (s : State) : execAll [i] s = exec i s := by
  rw [execAll]
  cases exec i s <;> rfl

/-! ### What a line of a GPIO command does -/

/-- The lines a GPIO command on one pin is made of, with the bit operations in one step (R131 to R138). -/
inductive GpioLine (p : Port) (n : BitIx) : Line → Prop
  | snapD : GpioLine p n (.snapD p n)
  | snapL : GpioLine p n (.snapL p n)
  | branch (d l : Bool) (k : Nat) : GpioLine p n (.branch (.snapIs d l) k)
  | setDir : GpioLine p n (.bitSet (.dir p) n)
  | clearDir : GpioLine p n (.bitClear (.dir p) n)
  | setOut : GpioLine p n (.bitSet (.out p) n)
  | clearOut : GpioLine p n (.bitClear (.out p) n)
  | toggle : GpioLine p n (.store (.input p) (.lit (oneHot n)))
  | load : GpioLine p n (.load (.input p))
  | respond (c d : Src) : GpioLine p n (.respond c d)

/-- What the pin has to do with the course of a GPIO command: its pair, the snapshot, the next line. -/
structure PinView where
  pair : Bool × Bool
  snap : Bool × Bool
  upc : Nat

/-- A state seen from a pin. -/
def pinView (p : Port) (n : BitIx) (s : State) : PinView where
  pair := pinPair s p n
  snap := (s.snapD, s.snapL)
  upc := s.upc

/-- What a line of a GPIO command does to this view; other lines are not asked about. -/
def viewStep : Line → PinView → PinView
  | .snapD _ _, v => { v with snap := (v.pair.1, v.snap.2), upc := v.upc + 1 }
  | .snapL _ _, v => { v with snap := (v.snap.1, v.pair.2), upc := v.upc + 1 }
  | .branch (.snapIs d l) k, v => { v with upc := v.upc + if v.snap = (d, l) then 1 else k + 1 }
  | .bitSet (.dir _) _, v => { v with pair := (true, v.pair.2), upc := v.upc + 1 }
  | .bitClear (.dir _) _, v => { v with pair := (false, v.pair.2), upc := v.upc + 1 }
  | .bitSet (.out _) _, v => { v with pair := (v.pair.1, true), upc := v.upc + 1 }
  | .bitClear (.out _) _, v => { v with pair := (v.pair.1, false), upc := v.upc + 1 }
  | .store (.input _) _, v => { v with pair := (v.pair.1, !v.pair.2), upc := v.upc + 1 }
  | .load _, v => { v with upc := v.upc + 1 }
  | .respond _ _, v => { v with upc := 0 }
  | _, v => v

/-- The registers and pads of the port `q` without the two bits of a pin of the port `p`. -/
def pinMasked (p : Port) (n : BitIx) (q : Port) (r : PortRegs) : PortRegs :=
  if q = p then { r with dir := clearBit r.dir n, out := clearBit r.out n } else r

/-- The state without what a GPIO command may change: the two bits of its pin, the latches of the snapshot and `t`, the
count of draws, the position and the responses (R141). -/
def gpioMasked (p : Port) (n : BitIx) (s : State) : State :=
  { s with
    portB := pinMasked p n .B s.portB, portC := pinMasked p n .C s.portC, portD := pinMasked p n .D s.portD,
    snapD := false, snapL := false, tmp := 0, draws := 0, pc := 0, upc := 0, rsp := [] }

theorem getPort_gpioMasked (p : Port) (n : BitIx) (s : State) (q : Port) :
    getPort (gpioMasked p n s) q = pinMasked p n q (getPort s q) := by cases q <;> rfl

theorem gpioMasked_setPort {p : Port} {n : BitIx} {s : State} {r : PortRegs}
    (h : pinMasked p n p r = pinMasked p n p (getPort s p)) :
    gpioMasked p n (goto 1 (setPort s p r)) = gpioMasked p n s := by
  cases p <;> simpa [gpioMasked, setPort, getPort, goto] using h

theorem clearBit_toggle (v : Byte) (n : BitIx) : clearBit (v ^^^ oneHot n) n = clearBit v n :=
  byte_ext fun m => by
    simp only [testBit_clearBit, testBit_toggle]
    split <;> rfl

/-- A line that writes `b` to the direction bit of the pin. -/
theorem writeDir_gpio {p : Port} {n : BitIx} {s : State} {v : Byte} {b : Bool}
    (hv : clearBit v n = clearBit (getPort s p).dir n) (hb : testBit v n = b) :
    ∃ t, thenNext (.done (setPort s p { getPort s p with dir := v })) = .done t ∧
      gpioMasked p n t = gpioMasked p n s ∧
      pinView p n t = { pinView p n s with pair := (b, (pinView p n s).pair.2), upc := (pinView p n s).upc + 1 } :=
  ⟨_, rfl, gpioMasked_setPort (by simp [pinMasked, hv]), by simp [pinView, pinPair, hb]⟩

/-- A line that writes `b` to the level bit of the pin. -/
theorem writeOut_gpio {p : Port} {n : BitIx} {s : State} {v : Byte} {b : Bool}
    (hv : clearBit v n = clearBit (getPort s p).out n) (hb : testBit v n = b) :
    ∃ t, thenNext (.done (setPort s p { getPort s p with out := v })) = .done t ∧
      gpioMasked p n t = gpioMasked p n s ∧
      pinView p n t = { pinView p n s with pair := ((pinView p n s).pair.1, b), upc := (pinView p n s).upc + 1 } :=
  ⟨_, rfl, gpioMasked_setPort (by simp [pinMasked, hv]), by simp [pinView, pinPair, hb]⟩

/-- Every line of a GPIO command goes through, and what it changes is in view. -/
theorem GpioLine.lineStep_done {p : Port} {n : BitIx} {l : Line} (h : GpioLine p n l) (s : State) :
    ∃ t, lineStep l s = .done t ∧ gpioMasked p n t = gpioMasked p n s ∧
      pinView p n t = viewStep l (pinView p n s) := by
  cases h with
  | snapD | snapL | load => exact ⟨_, rfl, rfl, rfl⟩
  | respond c d => exact ⟨_, rfl, rfl, by cases p <;> rfl⟩
  | branch d l k => exact ⟨_, rfl, rfl, by simp [pinView, pinPair, viewStep, condHolds]⟩
  | setDir => exact writeDir_gpio (clearBit_setBit _ n) (by simp [testBit_setBit])
  | clearDir => exact writeDir_gpio (clearBit_clearBit _ n) (by simp [testBit_clearBit])
  | setOut => exact writeOut_gpio (clearBit_setBit _ n) (by simp [testBit_setBit])
  | clearOut => exact writeOut_gpio (clearBit_clearBit _ n) (by simp [testBit_clearBit])
  | toggle => exact writeOut_gpio (clearBit_toggle _ n) ((testBit_toggle ..).trans (if_pos rfl))

/-! ### The lines of the six GPIO commands -/

section
variable {par : Params} (hatomic : par.bitopAtomic = true) (p : Port) (n : BitIx)
include hatomic

theorem cfgpinOutLines_atomic : cfgpinOutLines par p n =
    [.snapD p n, .snapL p n, .branch (.snapIs false true) 1, .bitClear (.out p) n, .bitSet (.dir p) n,
      respondSuccess par] := by
  simp [cfgpinOutLines, snapshotLines, ifThen, bitSetLines, bitClearLines, hatomic]

theorem cfgpinInpuLines_atomic : cfgpinInpuLines par p n =
    [.snapD p n, .snapL p n, .branch (.snapIs true false) 1, .bitSet (.out p) n, .bitClear (.dir p) n,
      .bitSet (.out p) n, respondSuccess par] := by
  simp [cfgpinInpuLines, snapshotLines, ifThen, bitSetLines, bitClearLines, hatomic]

theorem cfgpinInLines_atomic : cfgpinInLines par p n =
    [.snapD p n, .snapL p n, .branch (.snapIs true true) 2, .bitSet (.dir p) n, .bitClear (.out p) n,
      .bitClear (.dir p) n, .bitClear (.out p) n, respondSuccess par] := by
  simp [cfgpinInLines, snapshotLines, ifThen, bitSetLines, bitClearLines, hatomic]

theorem wrpinLines_atomic (level : Bool) : wrpinLines par p n level =
    [if level then .bitSet (.out p) n else .bitClear (.out p) n, respondSuccess par] := by
  cases level <;> simp [wrpinLines, bitSetLines, bitClearLines, hatomic]

end

theorem tglpinLines_gpio (par : Params) (p : Port) (n : BitIx) : ∀ l ∈ tglpinLines par p n, GpioLine p n l := by
  simp only [tglpinLines, List.forall_mem_cons]
  exact ⟨.toggle, .respond .., nofun⟩

theorem commandLines_gpio {par : Params} (hatomic : par.bitopAtomic = true) {i : Instr} {p : Port} {n : BitIx}
    (hi : gpioPin i = some (p, n)) : ∀ l ∈ commandLines par i, GpioLine p n l := by
  cases i with
  | cfgpinOut q m pu =>
    cases hi
    simp only [commandLines, cfgpinOutLines_atomic hatomic, List.forall_mem_cons]
    exact ⟨.snapD, .snapL, .branch .., .clearOut, .setDir, .respond .., nofun⟩
  | cfgpinInpu q m =>
    cases hi
    simp only [commandLines, cfgpinInpuLines_atomic hatomic, List.forall_mem_cons]
    exact ⟨.snapD, .snapL, .branch .., .setOut, .clearDir, .setOut, .respond .., nofun⟩
  | cfgpinIn q m =>
    cases hi
    simp only [commandLines, cfgpinInLines_atomic hatomic, List.forall_mem_cons]
    exact ⟨.snapD, .snapL, .branch .., .setDir, .clearOut, .clearDir, .clearOut, .respond .., nofun⟩
  | wrpin q m level =>
    cases hi
    simp only [commandLines, wrpinLines_atomic hatomic, List.forall_mem_cons]
    cases level with
    | true => exact ⟨.setOut, .respond .., nofun⟩
    | false => exact ⟨.clearOut, .respond .., nofun⟩
  | tglpin q m =>
    cases hi
    exact tglpinLines_gpio par p n
  | rdpin q m =>
    cases hi
    simp only [commandLines, rdpinLines, List.forall_mem_cons]
    exact ⟨.load, .respond .., nofun⟩
  | _ => cases hi

/-! ### One bit at a time (R140) -/

theorem GpioLine.viewStep_pair {p : Port} {n : BitIx} {l : Line} (h : GpioLine p n l) (v : PinView) :
    (viewStep l v).pair.1 = v.pair.1 ∨ (viewStep l v).pair.2 = v.pair.2 := by
  cases h with
  | setDir | clearDir => exact .inr rfl
  | _ => exact .inl rfl

/-- Settles O27: a line of a GPIO command writes the direction bit, or the level bit, or neither. -/
theorem oneBitOfThePinAtATime : Obligations.OneBitOfThePinAtATime := by
  intro par i l p n s t hatomic hi hl h
  have hgpio := commandLines_gpio hatomic hi l hl
  obtain ⟨u, hdone, -, hview⟩ := hgpio.lineStep_done s
  obtain rfl : u = t := Attempt.done.inj (hdone.symm.trans h)
  have hpair : pinPair u p n = (viewStep l (pinView p n s)).pair := congrArg PinView.pair hview
  rw [hpair]
  exact hgpio.viewStep_pair (pinView p n s)

/-! ### The walk of a pin (R135) -/

/-- `ownSteps`, as far as the pin is in view. -/
def viewSteps : Nat → Lines → PinView → List (Line × PinView)
  | 0, _, _ => []
  | k + 1, code, v =>
    match code[v.upc - 1]? with
    | none => []
    | some l => (l, viewStep l v) :: if (viewStep l v).upc = 0 then [] else viewSteps k code (viewStep l v)

section
variable {p : Port} {n : BitIx} {code : Lines} (hc : ∀ l ∈ code, GpioLine p n l)
include hc

theorem ownSteps_view (k : Nat) (s : State) :
    (ownSteps k code s).map (Prod.map id (pinView p n)) = viewSteps k code (pinView p n s) := by
  induction k generalizing s with
  | zero => rfl
  | succ k ih =>
    have hline : lineAt code s = code[(pinView p n s).upc - 1]? := rfl
    rw [ownSteps, viewSteps, ← hline]
    cases hl : lineAt code s with
    | none => rfl
    | some l =>
      obtain ⟨t, hdone, -, hview⟩ := (hc l (lineAt_mem hl)).lineStep_done s
      have hupc : t.upc = (viewStep l (pinView p n s)).upc := congrArg PinView.upc hview
      simp only [hdone, List.map_cons, Prod.map, id, hview, hupc]
      split
      · rfl
      · rw [ih, hview]

/-- The walk of the pin and the count of bus operations are those of the view. -/
theorem pinWalk_busOpCount (s : State) : (pinWalk code s p n, busOpCount code s) =
    let steps := viewSteps code.length code { pinView p n s with upc := 1 }
    ((steps.filter fun x => writesReg x.1).map fun x => x.2.pair, (steps.filter fun x => isBusOp x.1).length) := by
  have hview := ownSteps_view hc code.length { s with upc := 1 }
  have hstart : pinView p n { s with upc := 1 } = { pinView p n s with upc := 1 } := by cases p <;> rfl
  rw [hstart] at hview
  dsimp only
  rw [← hview, List.filter_map, List.filter_map, List.map_map, List.length_map]
  rfl

end

/-- Settles O22: what a `CFGPIN` does to its pin is decided by the pair it finds, so each cell is a run of the view. -/
theorem cfgpinTransitionTable : Obligations.CfgpinTransitionTable := by
  intro s p n hatomic
  have hout := commandLines_gpio hatomic (i := .cfgpinOut p n false) rfl
  have hinpu := commandLines_gpio hatomic (i := .cfgpinInpu p n) rfl
  have hin := commandLines_gpio hatomic (i := .cfgpinIn p n) rfl
  simp only [commandLines] at hout hinpu hin
  simp only [pinWalk_busOpCount hout, pinWalk_busOpCount hinpu, pinWalk_busOpCount hin]
  simp only [pinState, pinView, cfgpinOutLines_atomic hatomic, cfgpinInpuLines_atomic hatomic,
    cfgpinInLines_atomic hatomic]
  obtain ⟨d, l⟩ := pinPair s p n
  cases d <;> cases l <;> exact ⟨rfl, rfl, rfl⟩

/-- Settles O24: one write, that toggles the level bit (R137). -/
theorem tglpinResult : Obligations.TglpinResult := by
  intro s p n hu hp
  have hdone := exec_tglpin p n hu hp
  have hcount : busOpCount (tglpinLines s.par p n) s = 1 :=
    congrArg Prod.snd (pinWalk_busOpCount (tglpinLines_gpio s.par p n) s)
  refine ⟨⟨_, hdone, rfl, ?_, hcount⟩, ?_⟩
  · rw [pinPair_respond_setPort, testBit_toggle, if_pos rfl, pinPair]
  · have htwice := exec_tglpin (s := respond s.par.resSuccess 0
      (setPort s p { getPort s p with out := (getPort s p).out ^^^ oneHot n })) p n rfl (by simpa using hp)
    exact ⟨_, (execAll_cons_next hdone).trans ((execAll_singleton ..).trans htwice), by simp⟩

/-! ### The frame (R141) -/

theorem isCtrlWord_of_gpioPin {i : Instr} {p : Port} {n : BitIx} (hi : gpioPin i = some (p, n)) :
    isCtrlWord i = false := by
  cases i with
  | cwStart | cwStop | cwXferNack | cwXferAck => cases hi
  | _ => rfl

/-- With the bit operations in one step, a GPIO command changes nothing but what is masked, from any line of it on. -/
theorem exec_gpioMasked {i : Instr} {p : Port} {n : BitIx} {s t : State} (hi : gpioPin i = some (p, n))
    (hp : s.plan = []) (hatomic : s.par.bitopAtomic = true) (h : exec i s = .next t) :
    gpioMasked p n t = gpioMasked p n s := by
  rw [exec_command (isCtrlWord_of_gpioPin hi)] at h
  refine perform_keeps_of_done (P := fun x => gpioMasked p n x = gpioMasked p n s) (fun l hl x hx => ?_) hp
    (fun _ => rfl) (fun _ => rfl) h
  obtain ⟨y, hdone, hy, -⟩ := (commandLines_gpio hatomic hi l hl).lineStep_done x
  exact ⟨y, hdone, hy.trans hx⟩

/-- Every bit of a port's registers but the masked two can be read off the masked state. -/
theorem pinPair_gpioMasked {p q : Port} {n m : BitIx} (h : (q, m) ≠ (p, n)) (s : State) :
    pinPair (gpioMasked p n s) q m = pinPair s q m := by
  rw [pinPair, getPort_gpioMasked, pinMasked]
  split
  next hq =>
    have hm : m ≠ n := fun hm => h (by rw [hq, hm])
    simp [testBit_clearBit, hm, pinPair]
  next => rfl

theorem ext_gpioMasked (p : Port) (n : BitIx) (s : State) (q : Port) :
    (getPort (gpioMasked p n s) q).ext = (getPort s q).ext := by
  rw [getPort_gpioMasked, pinMasked]
  split <;> rfl

/-- Settles O28: each line goes through, so the engine has no step, and changes only what is masked. -/
theorem gpioFrame : Obligations.GpioFrame := by
  intro i p n s t hi hp hatomic h
  have hmask := exec_gpioMasked hi hp hatomic h
  have hbuf : t.buf = s.buf := (congrArg State.buf hmask :)
  refine ⟨fun q m hne => ?_, fun q => ?_, ?_, ⟨hbuf, bufRead_of_buf hbuf⟩, (congrArg State.st hmask :),
    (congrArg State.cnt hmask :), (congrArg State.rxb hmask :), (congrArg State.cmd hmask :),
    (congrArg State.par hmask :), (congrArg State.prog hmask :)⟩
  · rw [← pinPair_gpioMasked hne t, hmask, pinPair_gpioMasked hne]
  · rw [← ext_gpioMasked p n t, hmask, ext_gpioMasked]
  · exact ⟨(congrArg State.ctrl hmask :), (congrArg State.twCode hmask :), (congrArg State.ps hmask :),
      (congrArg State.twData hmask :), (congrArg State.twBitrate hmask :), (congrArg State.phase hmask :),
      (congrArg State.dir hmask :), (congrArg State.nack hmask :), (congrArg State.pending hmask :),
      (congrArg State.buslog hmask :)⟩

end Sys2Proof.Machine
end

/-! SUPPORT. The TWI primitives (R162 to R166) of an idle sequencer, where no other agent has a turn and, but for a free
`TWSTOP`, the engine is weakly fair: what each command leaves and what it responds. -/

section
namespace Sys2Proof.Machine

/-! ### The number of the next line -/

theorem drawAck_upc (k : AckKind) (b : Byte) (u : Nat) (s : State) :
    (drawAck k b { s with upc := u }).1 = (drawAck k b s).1 :=
  drawAck_congr (s := s) (t := { s with upc := u }) rfl rfl rfl k b

theorem drawByte_upc (u : Nat) (s : State) : (drawByte { s with upc := u }).1 = (drawByte s).1 :=
  drawByte_congr (s := s) (t := { s with upc := u }) rfl rfl rfl

theorem srcVal_upc (u : Nat) (s : State) (x : Src) : srcVal { s with upc := u } x = srcVal s x := by
  cases x <;> rfl

theorem stopDone_upc (u : Nat) (s : State) : stopDone { s with upc := u } = { stopDone s with upc := u } := by
  by_cases h : s.phase = .stop <;> simp [stopDone, h]

theorem afterStart_upc (u : Nat) (s : State) : afterStart { s with upc := u } = { afterStart s with upc := u } := by
  have hheld : busHeld { s with upc := u } = busHeld s := rfl
  simp only [afterStart, hheld, stopDone_upc]
  split <;> rfl

theorem afterStop_upc (u : Nat) (s : State) : afterStop { s with upc := u } = { afterStop s with upc := u } := by
  rw [afterStop, stopDone_upc]
  rfl

theorem afterAddress_upc (b : Byte) (u : Nat) (s : State) :
    afterAddress b { s with upc := u } = { afterAddress b s with upc := u } := by
  rw [afterAddress, drawAck_upc]
  rfl

theorem afterSend_upc (b : Byte) (u : Nat) (s : State) :
    afterSend b { s with upc := u } = { afterSend b s with upc := u } := by
  rw [afterSend, drawAck_upc]
  rfl

theorem afterReceive_upc (more : Bool) (u : Nat) (s : State) :
    afterReceive more { s with upc := u } = { afterReceive more s with upc := u } := by
  rw [afterReceive, drawByte_upc]
  rfl

/-! ### Commands of an idle sequencer -/

theorem QuietFair.fair {s : State} (h : QuietFair s) : Fair s := by
  obtain ⟨⟨-, hplan, hfaults⟩, hengine, hparams⟩ := h
  exact ⟨hplan, hfaults, hengine, hparams⟩

theorem Fair.withUpc {s : State} (h : Fair s) (u : Nat) : Fair { s with upc := u } :=
  ⟨h.plan, h.faults, h.engine, h.params⟩

/-- A command whose lines before the response reach a state answers that state with the response (R27). -/
theorem Reaches.perform_respond {code : Lines} {n u : Nat} {c d : Src} {s t : State} (hu : s.upc = 0)
    (hp : t.plan = []) (hl : code[u]? = some (.respond c d)) (hn : n + 1 ≤ turnBudget)
    (h : Reaches code n { s with upc := 1 } { t with upc := u + 1 }) :
    Machine.perform code s = .next (Machine.respond (srcVal t c) (srcVal t d) t) := by
  have hend := h.trans (Reaches.respond (s := { t with upc := u + 1 }) rfl hp hl)
  rw [srcVal_upc, srcVal_upc] at hend
  exact hend.perform hu rfl hn

/-! ### TWSTART and TWSTOP -/

theorem stopDone_buslog (s : State) : (stopDone s).buslog = s.buslog ++ stopFirst s := by
  by_cases h : s.phase = .stop <;> simp [stopDone, stopFirst, h]

/-- A held bus has no stop on its way (R43). -/
theorem stopFirst_of_busHeld {s : State} (h : busHeld s = true) : stopFirst s = [] := by
  have hphase : s.phase ≠ .stop := fun hstop => by simp [busHeld, hstop] at h
  exact if_neg hphase

theorem afterStart_plan (s : State) : (afterStart s).plan = s.plan := by
  rw [afterStart]
  split
  · rfl
  · exact stopDone_plan s

theorem afterStart_st (s : State) :
    (afterStart s).st = if busHeld s then s.par.st.rstart else s.par.st.start := by
  rw [afterStart]
  split <;> rfl

theorem afterStart_buslog (s : State) :
    (afterStart s).buslog = s.buslog ++ stopFirst s ++ [if busHeld s then .rstart else .start] := by
  rw [afterStart]
  split
  next h => simp [stopFirst_of_busHeld h, afterOp]
  next => simp [afterOp, stopDone_buslog]

theorem afterStart_phase (s : State) : (afterStart s).phase = .startSent := by
  rw [afterStart]
  split <;> rfl

theorem stopDone_ctrlAfter (s : State) (w : CtrlWord) (int : Bool) :
    ctrlAfter (stopDone s) w int = ctrlAfter s w int := by
  rw [stopDone]
  split <;> rfl

theorem afterStart_ctrl (s : State) : (afterStart s).ctrl = ctrlAfter s .start true := by
  rw [afterStart]
  split
  · rfl
  · exact stopDone_ctrlAfter s .start true

theorem exec_twstart {s : State} (hs : TwiReady s) :
    exec .twstart s = .next (respond (afterStart s).st 0 (afterStart s)) := by
  obtain ⟨hquiet, hready⟩ := hs
  have ⟨⟨hu, hp, _⟩, _⟩ := hquiet
  have hstart := Reaches.start (code := twstartLines) (u := 0) (hquiet.fair.withUpc 1) rfl rfl rfl rfl hready
  rw [afterStart_upc] at hstart
  exact hstart.perform_respond (u := 3) (c := .st) (d := .lit 0) hu ((afterStart_plan s).trans hp) rfl (by decide)

/-- Settles O41: the start, after the stop it may have to wait for, and the status read (R162). -/
theorem twstartResult : Obligations.TwstartResult := fun s hs =>
  ⟨_, exec_twstart hs, congrArg (respond · 0 (afterStart s)) (afterStart_st s), afterStart_buslog s,
    afterStart_phase s, afterStart_ctrl s⟩

/-- Settles O42: the control write and the response; no line waits but for an earlier stop (R163). -/
theorem twstopResult : Obligations.TwstopResult := by
  refine ⟨fun s hu hp hfree => ?_, fun s hquiet hstop => ⟨?_, ?_⟩⟩
  · have hctrl := Reaches.ctrlFree (code := twstopLines) (s := { s with upc := 1 }) (u := 0) (w := .stop) hp rfl rfl
      hfree
    exact hctrl.perform_respond (t := { s with ctrl := ctrlAfter s .stop false, pending := .stop, phase := .stop })
      (u := 1) (c := .lit 0) (d := .lit 0) hu hp rfl (by decide)
  · have ⟨⟨hu, hp, _⟩, _⟩ := hquiet
    have hctrl := Reaches.stop (code := twstopLines) (u := 0) (hquiet.fair.withUpc 1) rfl rfl (.inr hstop)
    rw [afterStop_upc] at hctrl
    exact hctrl.perform_respond (u := 1) (c := .lit 0) (d := .lit 0) hu ((stopDone_plan s).trans hp) rfl (by decide)
  · obtain ⟨-, hphase, -⟩ := hstop
    exact (stopDone_buslog s).trans (by rw [stopFirst, if_pos hphase])

/-! ### TWTX -/

/-- A procedure `tx` and the response of its status (R164). -/
theorem exec_twtx_of_reaches {s t : State} {v : Byte} (hu : s.upc = 0) (hp : t.plan = [])
    (h : Reaches (twtxLines v) 6 { s with upc := 1 } { t with upc := 5 }) :
    exec (.twtx v) s = .next (respond t.st 0 t) :=
  h.perform_respond (u := 4) (c := .st) (d := .lit 0) hu hp rfl (by decide)

/-- `tx` of a data byte, whatever the number of the next line was (R164, R207). -/
theorem Reaches.sendFrom {code : Lines} {s : State} {u : Nat} {b : Byte} (hs : Fair s) (hc : TxAt code u (.lit b))
    (hi : s.ctrl.int = true) (hn : s.pending = .none) (hph : s.phase = .addrSent ∨ s.phase = .dataSent)
    (hdir : s.dir = .W) : Reaches code 6 { s with upc := u + 1 } { afterSend b s with upc := u + 5 } := by
  have h := Reaches.send (hs.withUpc (u + 1)) rfl hc hi hn hph hdir
  rw [afterSend_upc] at h
  exact h

theorem txAt_twtxLines (v : Byte) : TxAt (twtxLines v) 0 (.lit v) := ⟨rfl, rfl, rfl, rfl⟩

/-- Settles O43: `tx` of an address byte after a start, of a data byte in write direction (R206, R207). -/
theorem twtxSends : Obligations.TwtxSends := by
  rintro s v ⟨hquiet, hnone⟩ hint
  have ⟨⟨hu, hp, _⟩, _⟩ := hquiet
  refine ⟨fun hphase => ?_, fun hphase hdir => ?_⟩
  · have h := Reaches.address (hquiet.fair.withUpc 1) rfl (txAt_twtxLines v) hint hnone hphase
    rw [afterAddress_upc] at h
    exact exec_twtx_of_reaches hu hp h
  · exact exec_twtx_of_reaches hu hp (Reaches.sendFrom hquiet.fair (txAt_twtxLines v) hint hnone hphase hdir)

/-! ### Transfers against the direction of their command (R164, R165, R275) -/

/-- The lines of a transfer without its data line: the control write, the poll, the status read (R160). -/
structure XferAt (code : Lines) (u : Nat) (w : CtrlWord) : Prop where
  ctrl : code[u]? = some (.ctrl w)
  poll : code[u + 1]? = some .poll
  status : code[u + 2]? = some .status

section
variable {code : Lines} {s t : State} {u : Nat} {w : CtrlWord}

theorem ne_stop_of_pendingOf (hw : pendingOf w = .xfer) : w ≠ .stop := by
  rintro rfl
  cases hw

/-- A transfer from its control write to its status read, where the bus is held: what its engine step leaves, and the
status (R160). -/
theorem Reaches.xfer {v : Byte} (hw : pendingOf w = .xfer) (hs : Fair s) (hu : s.upc = u + 1) (hc : XferAt code u w)
    (hf : EngineFree s) (he : engineStep (launched w u s) = .done t) (hti : t.ctrl.int = true) (htp : t.par = s.par)
    (htl : t.plan = s.plan) (htu : t.upc = u + 2) (hv : v ∈ statusList s.par.st) (htv : t.twCode = codeField v) :
    Reaches code 5 s { t with st := v, upc := u + 4 } := by
  have ⟨_, hphase⟩ := hf
  exact Reaches.op (ne_stop_of_pendingOf hw) hs hu hc.ctrl hc.poll hc.status (.inl hf)
    (by rw [stopDone_free hphase, he]) hti htp (htl.trans hs.plan) htu hv htv

/-- Right after a start either transfer word sends `TW_DATA` as an address byte (R206). -/
theorem Reaches.xferAddress (hw : pendingOf w = .xfer) (hs : Fair s) (hu : s.upc = u + 1) (hc : XferAt code u w)
    (hn : s.pending = .none) (hph : s.phase = .startSent) :
    Reaches code 5 s { afterAddress s.twData s with ctrl := ctrlAfter s w true, upc := u + 4 } := by
  have he := engineStep_address (launched_enabled w u hs.faults) hw hph
  have hack : (drawAck .addr s.twData (launched w u s)).1 = (drawAck .addr s.twData s).1 := by
    apply drawAck_congr <;> rfl
  rw [engineAddress_eq, show (launched w u s).twData = s.twData from rfl, hack] at he
  exact Reaches.xfer (v := addressStatus s.par.st (byteDir s.twData) (drawAck .addr s.twData s).1) hw hs hu hc
    ⟨hn, by simp [hph]⟩ he rfl rfl rfl rfl
    (by cases byteDir s.twData <;> cases (drawAck .addr s.twData s).1 <;> simp [addressStatus, statusList]) rfl

/-- In write direction either transfer word sends `TW_DATA` as a data byte (R207). -/
theorem Reaches.xferSend (hw : pendingOf w = .xfer) (hs : Fair s) (hu : s.upc = u + 1) (hc : XferAt code u w)
    (hn : s.pending = .none) (hph : s.phase = .addrSent ∨ s.phase = .dataSent) (hdir : s.dir = .W) :
    Reaches code 5 s { afterSend s.twData s with ctrl := ctrlAfter s w true, upc := u + 4 } := by
  have he := engineStep_transmit (launched_enabled w u hs.faults) hw hph hdir
  have hack : (drawAck .data s.twData (launched w u s)).1 = (drawAck .data s.twData s).1 := by
    apply drawAck_congr <;> rfl
  rw [engineTransmit_eq, show (launched w u s).twData = s.twData from rfl, hack] at he
  exact Reaches.xfer (v := txStatus s.par.st (drawAck .data s.twData s).1) hw hs hu hc
    ⟨hn, by rcases hph with h | h <;> simp [h]⟩ he rfl rfl rfl rfl
    (by cases (drawAck .data s.twData s).1 <;> simp [txStatus, statusList]) rfl

/-- In read direction the transfer word of `tx` receives, and the procedure takes no byte into `RXB` (R208). -/
theorem Reaches.xferReceive (hs : Fair s) (hu : s.upc = u + 1) (hc : XferAt code u .xferNack)
    (hn : s.pending = .none) (hph : s.phase = .addrSent ∨ s.phase = .dataReceived) (hdir : s.dir = .R)
    (hnack : s.nack = false) :
    Reaches code 5 s { afterReceive false s with rxb := s.rxb, upc := u + 4 } := by
  have he := engineStep_receive (launched_enabled .xferNack u hs.faults) rfl hph hdir hnack
  have hdata : (drawByte (launched .xferNack u s)).1 = (drawByte s).1 := by apply drawByte_congr <;> rfl
  rw [engineReceive_eq, hdata] at he
  exact Reaches.xfer (v := s.par.st.dataRxNack) rfl hs hu hc ⟨hn, by rcases hph with h | h <;> simp [h]⟩ he rfl rfl
    rfl rfl (by simp [statusList]) rfl

end

/-! ### TWRX, and TWTX in read direction -/

/-- What `rx` reads into `RXB` is what `TW_DATA` holds after the transfer (R165). -/
theorem exec_twrx_of_reaches {s t : State} {more : Bool} (hu : s.upc = 0) (hp : t.plan = [])
    (h : Reaches (twrxLines more) 5 { s with upc := 1 } { t with upc := 4 }) :
    exec (.twrx more) s = .next (respond t.st t.twData { t with rxb := t.twData }) := by
  have htake : Reaches (twrxLines more) 1 { t with upc := 4 } { t with rxb := t.twData, upc := 5 } :=
    Reaches.line (l := .takeData) (Nat.succ_ne_zero 3) hp rfl rfl
  exact (h.trans htake).perform_respond (t := { t with rxb := t.twData }) (u := 4) (c := .st) (d := .rxb) hu hp rfl
    (by decide)

theorem exec_twrx_receive {s : State} {more : Bool} (hs : XferReady s)
    (hph : s.phase = .addrSent ∨ s.phase = .dataReceived) (hdir : s.dir = .R) (hnack : s.nack = false) :
    exec (.twrx more) s = .next (respond (if more then s.par.st.dataRxAck else s.par.st.dataRxNack) (drawByte s).1
      (afterReceive more s)) := by
  obtain ⟨hquiet, hnone⟩ := hs
  have ⟨⟨hu, hp, _⟩, _⟩ := hquiet
  have h := Reaches.receive (code := twrxLines more) (u := 0) (hquiet.fair.withUpc 1) rfl ⟨rfl, rfl, rfl, rfl⟩
    hnone hph hdir hnack
  rw [afterReceive_upc] at h
  exact h.perform_respond (u := 4) (c := .st) (d := .rxb) hu hp rfl (by decide)

theorem exec_twtx_receive {s : State} (v : Byte) (hs : XferReady s) (hint : s.ctrl.int = true)
    (hph : s.phase = .addrSent ∨ s.phase = .dataReceived) (hdir : s.dir = .R) (hnack : s.nack = false) :
    exec (.twtx v) s = .next (respond s.par.st.dataRxNack 0 { afterReceive false s with rxb := s.rxb }) := by
  obtain ⟨hquiet, hnone⟩ := hs
  have ⟨⟨hu, hp, _⟩, _⟩ := hquiet
  have hstore := Reaches.store (code := twtxLines v) (s := { s with upc := 1 }) (u := 0) hp rfl
    (txAt_twtxLines v).data hint
  obtain ⟨hplan, hfaults, hengine, hparams⟩ := hquiet.fair
  have h := Reaches.xferReceive (code := twtxLines v) (s := { s with twData := v, upc := 2 }) (u := 1)
    ⟨hplan, hfaults, hengine, hparams⟩ rfl ⟨rfl, rfl, rfl⟩ hnone hph hdir hnack
  have hdata : (drawByte { s with twData := v, upc := 2 }).1 = (drawByte s).1 := by apply drawByte_congr <;> rfl
  rw [afterReceive, hdata] at h
  exact exec_twtx_of_reaches (t := { afterReceive false s with rxb := s.rxb }) hu hp (hstore.trans h)

/-- Settles O44: both commands launch a transfer, which in read direction receives (R208). -/
theorem receivingCommands : Obligations.ReceivingCommands := fun _ _ v hs hph hdir hnack =>
  ⟨exec_twrx_receive hs hph hdir hnack, fun hint => exec_twtx_receive v hs hint hph hdir hnack⟩

/-- Settles O45: `rx` writes no data byte, so the transfer sends what `TW_DATA` held (R206, R207, R275). -/
theorem twrxSendsStaleData : Obligations.TwrxSendsStaleData := by
  rintro s more ⟨hquiet, hnone⟩
  have ⟨⟨hu, hp, _⟩, _⟩ := hquiet
  have hw : pendingOf (if more then .xferAck else .xferNack) = .xfer := by cases more <;> rfl
  have hc : XferAt (twrxLines more) 0 (if more then .xferAck else .xferNack) := ⟨rfl, rfl, rfl⟩
  refine ⟨fun hphase => ⟨_, ?_, rfl⟩, fun hphase hdir => ⟨_, ?_, rfl⟩⟩
  · have h := Reaches.xferAddress hw (hquiet.fair.withUpc 1) rfl hc hnone hphase
    rw [afterAddress_upc] at h
    exact exec_twrx_of_reaches (t := { afterAddress s.twData s with ctrl := ctrlAfter s _ true }) hu hp h
  · have h := Reaches.xferSend hw (hquiet.fair.withUpc 1) rfl hc hnone hphase hdir
    rw [afterSend_upc] at h
    exact exec_twrx_of_reaches (t := { afterSend s.twData s with ctrl := ctrlAfter s _ true }) hu hp h

/-! ### TWREGA -/

/-- A piece of pseudocode stands in a command from a place on. -/
def PieceAt (code : Lines) (u : Nat) (piece : Lines) : Prop := ∀ i l, piece[i]? = some l → code[u + i]? = some l

theorem pieceAt_append (pre piece post : Lines) : PieceAt (pre ++ (piece ++ post)) pre.length piece := by
  intro i l h
  have ⟨hi, _⟩ := List.getElem?_eq_some_iff.mp h
  rw [List.getElem?_append_right (Nat.le_add_right ..), Nat.add_sub_cancel_left, List.getElem?_append_left hi, h]

theorem afterSend_buslog (b : Byte) (s : State) :
    (afterSend b s).buslog = s.buslog ++ [.tx b (drawAck .data b s).1] := rfl

theorem afterSend_st (b : Byte) (s : State) :
    (afterSend b s).st = txStatus s.par.st (drawAck .data b s).1 := rfl

theorem txStatus_eq_dataTxAck {par : Params} (h : paramsOk par = true) (a : Ack) :
    txStatus par.st a = par.st.dataTxAck ↔ a = .ack := by
  cases a with
  | ack => exact iff_of_true rfl rfl
  | nack =>
    have hcodes := paramsOk_codes h
    simp only [statusList, List.nodup_cons, List.mem_cons, not_or] at hcodes
    obtain ⟨-, -, -, -, ⟨hne, -⟩, -⟩ := hcodes
    exact iff_of_false (Ne.symm hne) Ack.noConfusion

/-- The low byte follows where the high one is ACKed (R166). -/
theorem afterRega_w16 {s : State} (h : paramsOk s.par = true) (reg : BitVec 16) :
    afterRega .w16 reg s =
      if (drawAck .data (regHigh reg) s).1 = .ack then afterSend (regLow reg) (afterSend (regHigh reg) s)
      else afterSend (regHigh reg) s := by
  simp only [afterRega, afterSend_st, txStatus_eq_dataTxAck h]

theorem afterRega_plan (rsz : RegSize) (reg : BitVec 16) (s : State) : (afterRega rsz reg s).plan = s.plan := by
  cases rsz with
  | w8 => rfl
  | w16 =>
    rw [afterRega]
    split <;> rfl

section
variable {code : Lines} {s : State} {u : Nat} {v : Byte} {reg : BitVec 16}

/-- The decision between the two bytes of `rega`: the low byte follows (R166). -/
theorem Reaches.regaGoesOn (hp : s.plan = []) (hst : s.st = v) (hb : code[u]? = some (.branch (.stIsNot v) 1)) :
    Reaches code 1 { s with upc := u + 1 } { s with upc := u + 3 } :=
  Reaches.line (Nat.succ_ne_zero u) hp (lineAt_of rfl hb) (by simp [lineStep, condHolds, hst, goto])

/-- The decision between the two bytes of `rega`: the lines of the low byte are passed over (R166). -/
theorem Reaches.regaEnds (hp : s.plan = []) (hst : s.st ≠ v) (hb : code[u]? = some (.branch (.stIsNot v) 1))
    (hs : code[u + 1]? = some (.skip 4)) : Reaches code 2 { s with upc := u + 1 } { s with upc := u + 7 } := by
  have hbranch : Reaches code 1 { s with upc := u + 1 } { s with upc := u + 2 } :=
    Reaches.line (Nat.succ_ne_zero u) hp (lineAt_of rfl hb) (by simp [lineStep, condHolds, hst, goto])
  exact hbranch.trans (Reaches.line (l := .skip 4) (Nat.succ_ne_zero _) hp (lineAt_of (u := u + 1) rfl hs) rfl)

/-- `rega` (R166). -/
theorem Reaches.rega {rsz : RegSize} (hs : Fair s) (hc : PieceAt code u (regaLines s.par rsz reg))
    (hi : s.ctrl.int = true) (hn : s.pending = .none) (hph : s.phase = .addrSent ∨ s.phase = .dataSent)
    (hdir : s.dir = .W) :
    Reaches code 13 { s with upc := u + 1 }
      { afterRega rsz reg s with upc := u + (regaLines s.par rsz reg).length + 1 } := by
  cases rsz with
  | w8 =>
    have hlow := Reaches.sendFrom hs ⟨hc 0 _ rfl, hc 1 _ rfl, hc 2 _ rfl, hc 3 _ rfl⟩ hi hn hph hdir
    exact hlow.mono (by decide)
  | w16 =>
    have hhigh := Reaches.sendFrom hs ⟨hc 0 _ rfl, hc 1 _ rfl, hc 2 _ rfl, hc 3 _ rfl⟩ hi hn hph hdir
    rw [afterRega]
    by_cases hack : (afterSend (regHigh reg) s).st = s.par.st.dataTxAck
    · have hsent : Fair (afterSend (regHigh reg) s) := ⟨hs.plan, hs.faults, hs.engine, hs.params⟩
      have hlow := Reaches.sendFrom hsent ⟨hc 6 _ rfl, hc 7 _ rfl, hc 8 _ rfl, hc 9 _ rfl⟩ rfl rfl (.inr rfl) hdir
      rw [if_pos hack]
      exact (hhigh.trans (Reaches.regaGoesOn hs.plan hack (hc 4 _ rfl))).trans hlow
    · rw [if_neg hack]
      exact (hhigh.trans (Reaches.regaEnds hs.plan hack (hc 4 _ rfl) (hc 5 _ rfl))).mono (by decide)

end

theorem exec_twrega {s : State} (rsz : RegSize) (reg : BitVec 16) (hs : XferReady s) (hint : s.ctrl.int = true)
    (hph : s.phase = .addrSent ∨ s.phase = .dataSent) (hdir : s.dir = .W) :
    exec (.twrega rsz reg) s = .next (respond (afterRega rsz reg s).st 0 (afterRega rsz reg s)) := by
  obtain ⟨hquiet, hnone⟩ := hs
  have ⟨⟨hu, hp, _⟩, _⟩ := hquiet
  have h := Reaches.rega hquiet.fair (pieceAt_append [] (regaLines s.par rsz reg) [respondStatus]) hint hnone hph hdir
  rw [List.length_nil, Nat.zero_add, Nat.zero_add] at h
  exact h.perform_respond (c := .st) (d := .lit 0) hu ((afterRega_plan rsz reg s).trans hp)
    (by simp [twregaLines, respondStatus]) (by decide)

/-- Settles O46: the procedure `rega`, whose low byte follows a high byte that is ACKed (R166). -/
theorem twregaResult : Obligations.TwregaResult := by
  intro s rsz reg hs hint hph hdir
  refine ⟨_, exec_twrega rsz reg hs hint hph hdir, rfl, ?_, ?_, ?_⟩
  · rintro a rest rfl hacks
    rw [respond_buslog, afterRega, afterSend_buslog, drawAck_cons hacks]
  · rintro rest rfl hacks
    have ⟨⟨_, _, hparams⟩, _⟩ := hs
    simp [afterRega_w16 hparams, drawAck_cons hacks, afterSend_buslog, afterSend_st, txStatus]
  · rintro a rest rfl hacks
    have ⟨⟨_, _, hparams⟩, _⟩ := hs
    have hlow : (afterSend (regHigh reg) s).acks = a :: rest := congrArg List.tail hacks
    simp [afterRega_w16 hparams, drawAck_cons hacks, drawAck_cons hlow, afterSend_buslog]

end Sys2Proof.Machine
end

/-! SUPPORT. The transactions TWWRMEM and TWRDMEM (R180 to R187) of an idle sequencer, where no other agent has a turn
and the engine is weakly fair: their lines, with the jumps of an abort, do what the procedures `wrmem` and `rdmem` say;
and what these procedures make of the slave's answers. -/

section
namespace Sys2Proof.Machine

/-! ### Runs of a piece of pseudocode, wherever it stands -/

section
variable {code a b : Lines} {u : Nat} {l : Line}

theorem pieceAt_self (code : Lines) : PieceAt code 0 code := by
  intro i l h
  rwa [Nat.zero_add]

theorem PieceAt.left (h : PieceAt code u (a ++ b)) : PieceAt code u a := by
  intro i l hi
  have ⟨hlt, _⟩ := List.getElem?_eq_some_iff.mp hi
  exact h i l (by rw [List.getElem?_append_left hlt, hi])

theorem PieceAt.right (h : PieceAt code u (a ++ b)) : PieceAt code (u + a.length) b := by
  intro i l hi
  rw [Nat.add_assoc]
  exact h _ l (by rw [List.getElem?_append_right (Nat.le_add_right ..), Nat.add_sub_cancel_left, hi])

theorem PieceAt.head (h : PieceAt code u (l :: b)) : code[u]? = some l := h 0 l rfl

theorem PieceAt.tail (h : PieceAt code u (l :: b)) : PieceAt code (u + 1) b := PieceAt.right (a := [l]) h

end

/-- A run of the piece gets from one state to another, and to the line after the piece. -/
def Performs (piece : Lines) (n : Nat) (s t : State) : Prop :=
  ∀ code u, PieceAt code u piece → Reaches code n { s with upc := u + 1 } { t with upc := u + piece.length + 1 }

/-- A run from the first line of the piece on, which may leave the piece, gets to a state. -/
def Leads (piece : Lines) (n : Nat) (s f : State) : Prop :=
  ∀ code u, PieceAt code u piece → Reaches code n { s with upc := u + 1 } f

section
variable {a b body other post : Lines} {c : Cond} {l : Line} {n m : Nat} {s t r f : State}

theorem Leads.mono (h : Leads a n s f) (hm : n ≤ m) : Leads a m s f := fun code u hc => (h code u hc).mono hm

theorem Performs.mono (h : Performs a n s t) (hm : n ≤ m) : Performs a m s t := fun code u hc => (h code u hc).mono hm

theorem Performs.append (h : Performs a n s t) (h' : Performs b m t r) : Performs (a ++ b) (n + m) s r := by
  intro code u hc
  have hrun := (h code u hc.left).trans (h' code _ hc.right)
  rwa [List.length_append, ← Nat.add_assoc]

theorem Performs.leads (h : Performs a n s t) (h' : Leads post m t f) : Leads (a ++ post) (n + m) s f :=
  fun code u hc => (h code u hc.left).trans (h' code _ hc.right)

theorem Performs.leads_append (h : Performs a n s t) (h' : Leads (b ++ post) m t f) :
    Leads (a ++ b ++ post) (n + m) s f := by
  rw [List.append_assoc]
  exact h.leads h'

theorem performs_line (hp : s.plan = [])
    (h : ∀ u, lineStep l { s with upc := u + 1 } = .done { t with upc := u + 2 }) : Performs [l] 1 s t :=
  fun _ u hc => Reaches.line (Nat.succ_ne_zero u) hp (lineAt_of rfl hc.head) (h u)

theorem leads_respond (hp : s.plan = []) (x y : Src) :
    Leads (.respond x y :: post) 1 s (respond (srcVal s x) (srcVal s y) s) := by
  intro code u hc
  have hrun := Reaches.respond (s := { s with upc := u + 1 }) rfl hp hc.head
  rwa [srcVal_upc, srcVal_upc] at hrun

/-! ### Decisions and loops -/

theorem condHolds_upc (s : State) (c : Cond) (u : Nat) : condHolds { s with upc := u } c = condHolds s c := by
  cases c <;> rfl

theorem Reaches.branch {code : Lines} {u k : Nat} (hp : s.plan = []) (hl : code[u]? = some (.branch c k)) :
    Reaches code 1 { s with upc := u + 1 } { s with upc := u + 1 + if condHolds s c then 1 else k + 1 } :=
  Reaches.line (Nat.succ_ne_zero u) hp (lineAt_of rfl hl) (by rw [lineStep, condHolds_upc]; rfl)

theorem Reaches.branch_taken {code : Lines} {u k : Nat} (hp : s.plan = []) (hc : condHolds s c = true)
    (hl : code[u]? = some (.branch c k)) : Reaches code 1 { s with upc := u + 1 } { s with upc := u + 1 + 1 } := by
  have hrun := Reaches.branch hp hl
  rwa [if_pos hc] at hrun

theorem Reaches.branch_passed {code : Lines} {u k : Nat} (hp : s.plan = []) (hc : condHolds s c = false)
    (hl : code[u]? = some (.branch c k)) :
    Reaches code 1 { s with upc := u + 1 } { s with upc := u + 1 + (k + 1) } := by
  have hrun := Reaches.branch hp hl
  rwa [hc, if_neg Bool.false_ne_true] at hrun

theorem performs_ifThen_passed (hp : s.plan = []) (hc : condHolds s c = false) : Performs (ifThen c body) 1 s s := by
  intro code u h
  have hrun := Reaches.branch_passed hp hc h.head
  rwa [Nat.add_right_comm] at hrun

theorem Leads.ifThen_taken (hp : s.plan = []) (hc : condHolds s c = true) (h : Leads (body ++ post) n s f) :
    Leads (ifThen c body ++ post) (n + 1) s f := by
  intro code u hpiece
  rw [Nat.add_comm]
  exact (Reaches.branch_taken hp hc hpiece.head).trans (h code _ hpiece.tail)

theorem performs_skip (hp : s.plan = []) : Performs (.skip other.length :: other) 1 s s := by
  intro code u h
  have hrun : Reaches code 1 { s with upc := u + 1 } { s with upc := u + 1 + (other.length + 1) } :=
    Reaches.line (Nat.succ_ne_zero u) hp (lineAt_of rfl h.head) rfl
  rwa [Nat.add_right_comm] at hrun

theorem Performs.ifElse_taken (hp : s.plan = []) (ht : t.plan = []) (hc : condHolds s c = true)
    (h : Performs body n s t) : Performs (ifElse c body other) (1 + (n + 1)) s t := by
  intro code u hpiece
  have hbody := (h.append (performs_skip (other := other) ht)) code _ hpiece.tail
  have hrun := (Reaches.branch_taken hp hc hpiece.head).trans hbody
  rwa [Nat.add_right_comm u 1] at hrun

theorem Performs.ifElse_passed (hp : s.plan = []) (hc : condHolds s c = false) (h : Performs other n s t) :
    Performs (ifElse c body other) (1 + n) s t := by
  intro code u hpiece
  have hother := h code _ hpiece.tail.right.tail
  have hrun := (Reaches.branch_passed hp hc hpiece.head).trans hother
  have hlen : u + 1 + body.length + 1 + other.length = u + (ifElse c body other).length := by
    simp [ifElse]; omega
  rwa [hlen] at hrun

/-- A loop whose decision fails is passed over. -/
theorem Leads.loop_exit (hp : s.plan = []) (hc : condHolds s c = false) (h : Leads post n s f) :
    Leads (whileLoop c body ++ post) (1 + n) s f := by
  intro code u hpiece
  have hrun := Reaches.branch_passed hp hc hpiece.head
  have hlen : u + 1 + (body.length + 1 + 1) = u + (whileLoop c body).length + 1 := by
    simp [whileLoop]; omega
  rw [hlen] at hrun
  exact hrun.trans (h code _ hpiece.right)

/-- A loop whose body is performed once, and jumps back. -/
theorem Leads.loop_round (hp : s.plan = []) (ht : t.plan = []) (hc : condHolds s c = true)
    (hbody : Performs body m s t) (h : Leads (whileLoop c body ++ post) n t f) :
    Leads (whileLoop c body ++ post) (1 + m + 1 + n) s f := by
  intro code u hpiece
  have hback : Reaches code 1 { t with upc := u + 1 + body.length + 1 } { t with upc := u + 1 } :=
    Reaches.line (Nat.succ_ne_zero _) ht (lineAt_of rfl hpiece.left.tail.right.head) (by
      simp only [lineStep]
      congr 2
      omega)
  exact (((Reaches.branch_taken hp hc hpiece.head).trans (hbody code _ hpiece.left.tail.left)).trans hback).trans
    (h code u hpiece)

/-- A loop whose body leads out of the loop. -/
theorem Leads.loop_leave (hp : s.plan = []) (hc : condHolds s c = true)
    (h : Leads (body ++ (.back (body.length + 1) :: post)) n s f) :
    Leads (whileLoop c body ++ post) (1 + n) s f := by
  intro code u hpiece
  have hin : PieceAt code u (.branch c (body.length + 1) :: (body ++ (.back (body.length + 1) :: post))) := by
    simpa [whileLoop] using hpiece
  exact (Reaches.branch_taken hp hc hin.head).trans (h code _ hin.tail)

theorem Leads.perform {code : Lines} (hu : s.upc = 0) (hf : f.upc = 0) (hn : n ≤ turnBudget) (h : Leads code n s f) :
    perform code s = .next f :=
  (h code 0 (pieceAt_self code)).perform hu hf hn

end

/-! ### The procedures between two operations of a transaction -/

/-- The engine has done what was launched and holds the bus: where one procedure of a transaction ends and the next
begins. -/
structure Between (par : Params) (s : State) : Prop where
  fair : Fair s
  par_eq : s.par = par
  int : s.ctrl.int = true
  pending : s.pending = .none
  held : s.phase ≠ .stop

/-- The slave takes bytes (R207). -/
structure Writing (par : Params) (s : State) : Prop extends Between par s where
  phase : s.phase = .addrSent ∨ s.phase = .dataSent
  dir : s.dir = .W

/-- The slave sends bytes, and more of them where the last was ACKed (R208). -/
structure Reading (par : Params) (more : Bool) (s : State) : Prop extends Between par s where
  phase : s.phase = .addrSent ∨ s.phase = .dataReceived
  dir : s.dir = .R
  nack : more = true → s.nack = false

section
variable {par : Params} {s : State}

theorem Between.free (h : Between par s) : EngineFree s := ⟨h.pending, h.held⟩

theorem afterStart_par (s : State) : (afterStart s).par = s.par := by
  rw [afterStart]
  split
  · rfl
  · exact stopDone_par s

theorem afterStart_pending (s : State) : (afterStart s).pending = .none := by
  rw [afterStart]
  split <;> rfl

theorem Fair.congr {t : State} (h : Fair s) (hpar : t.par = s.par) (hplan : t.plan = s.plan) : Fair t :=
  ⟨hplan.trans h.plan, by rw [hpar]; exact h.faults, by rw [hpar]; exact h.engine, by rw [hpar]; exact h.params⟩

theorem between_afterStart (hs : Fair s) : Between s.par (afterStart s) where
  fair := hs.congr (afterStart_par s) (afterStart_plan s)
  par_eq := afterStart_par s
  int := by rw [afterStart_ctrl]; rfl
  pending := afterStart_pending s
  held := by rw [afterStart_phase]; exact Phase.noConfusion

theorem Between.afterAddress (h : Between par s) (b : Byte) : Between par (afterAddress b s) :=
  ⟨h.fair.congr rfl rfl, h.par_eq, rfl, rfl, Phase.noConfusion⟩

theorem Between.writing_afterAddress (h : Between par s) {b : Byte} (hb : byteDir b = .W) :
    Writing par (Machine.afterAddress b s) :=
  ⟨h.afterAddress b, .inl rfl, hb⟩

theorem Between.reading_afterAddress (h : Between par s) {b : Byte} (hb : byteDir b = .R)
    (hack : (drawAck .addr b s).1 = .ack) (more : Bool) : Reading par more (Machine.afterAddress b s) :=
  ⟨h.afterAddress b, .inl rfl, hb, fun _ => by rw [Machine.afterAddress, hack]; rfl⟩

theorem Writing.afterSend (h : Writing par s) (b : Byte) : Writing par (afterSend b s) :=
  ⟨⟨h.fair.congr rfl rfl, h.par_eq, rfl, rfl, Phase.noConfusion⟩, .inr rfl, h.dir⟩

theorem Writing.afterRega (h : Writing par s) (rsz : RegSize) (reg : BitVec 16) :
    Writing par (afterRega rsz reg s) := by
  cases rsz with
  | w8 => exact h.afterSend _
  | w16 =>
    rw [Machine.afterRega]
    split
    · exact (h.afterSend _).afterSend _
    · exact h.afterSend _

theorem Writing.withCnt (h : Writing par s) (c : Byte) : Writing par { s with cnt := c } :=
  ⟨⟨h.fair.congr rfl rfl, h.par_eq, h.int, h.pending, h.held⟩, h.phase, h.dir⟩

theorem Reading.withCnt {more : Bool} (h : Reading par more s) (c : Byte) : Reading par more { s with cnt := c } :=
  ⟨⟨h.fair.congr rfl rfl, h.par_eq, h.int, h.pending, h.held⟩, h.phase, h.dir, h.nack⟩

theorem Reading.afterReceive (h : Reading par true s) (more : Bool) : Reading par more (afterReceive more s) :=
  ⟨⟨h.fair.congr rfl rfl, h.par_eq, rfl, rfl, Phase.noConfusion⟩, .inr rfl, h.dir, fun hmore => by
    simp [Machine.afterReceive, hmore]⟩

theorem Reading.bufWrite {more : Bool} (h : Reading par more s) (i : Nat) (v : Byte) :
    Reading par more (bufWrite i v s) :=
  ⟨⟨h.fair.congr rfl rfl, h.par_eq, h.int, h.pending, h.held⟩, h.phase, h.dir, h.nack⟩

/-- A stop that was requested is on its way (R163). -/
theorem stopPending_afterStop (s : State) : StopPending (afterStop s) := ⟨rfl, rfl, rfl, rfl⟩

theorem afterStop_st (s : State) : (afterStop s).st = s.st := by
  rw [afterStop, stopDone]
  split <;> rfl

theorem Fair.afterStop (h : Fair s) : Fair (afterStop s) := h.congr (stopDone_par s) (stopDone_plan s)

/-! ### The procedures as pieces (R162 to R166) -/

theorem performs_start (hs : Fair s) (hf : EngineFree s ∨ StopPending s) :
    Performs startLines 5 s (afterStart s) := by
  intro code u hc
  have hrun := Reaches.start (hs.withUpc (u + 1)) rfl hc.head hc.tail.head hc.tail.tail.head hf
  rwa [afterStart_upc] at hrun

theorem performs_stop (hs : Fair s) (hf : EngineFree s) : Performs stopLines 2 s (afterStop s) := by
  intro code u hc
  have hrun := Reaches.stop (hs.withUpc (u + 1)) rfl hc.head (.inl hf)
  rwa [afterStop_upc] at hrun

theorem PieceAt.txAt {code : Lines} {u : Nat} {x : Src} (h : PieceAt code u (txLines x)) : TxAt code u x :=
  ⟨h.head, h.tail.head, h.tail.tail.head, h.tail.tail.tail.head⟩

theorem performs_address (hs : Between par s) (hph : s.phase = .startSent) (b : Byte) :
    Performs (txLines (.lit b)) 6 s (afterAddress b s) := by
  intro code u hc
  have hrun := Reaches.address (hs.fair.withUpc (u + 1)) rfl hc.txAt hs.int hs.pending hph
  rwa [afterAddress_upc] at hrun

theorem performs_send (hs : Writing par s) (x : Src) : Performs (txLines x) 6 s (afterSend (srcVal s x) s) := by
  intro code u hc
  have hrun := Reaches.send (hs.fair.withUpc (u + 1)) rfl hc.txAt hs.int hs.pending hs.phase hs.dir
  rwa [srcVal_upc, afterSend_upc] at hrun

theorem performs_rega (hs : Writing par s) (rsz : RegSize) (reg : BitVec 16) :
    Performs (regaLines par rsz reg) 13 s (afterRega rsz reg s) := by
  intro code u hc
  rw [← hs.par_eq] at hc ⊢
  exact Reaches.rega hs.fair hc hs.int hs.pending hs.phase hs.dir

theorem performs_receive (hs : Reading par true s) (more : Bool) :
    Performs (rxLines more) 6 s (afterReceive more s) := by
  intro code u hc
  have hrun := Reaches.receive (code := code) (more := more) (hs.fair.withUpc (u + 1)) rfl
    ⟨hc.head, hc.tail.head, hc.tail.tail.head, hc.tail.tail.tail.head⟩ hs.pending hs.phase hs.dir (hs.nack rfl)
  rwa [afterReceive_upc] at hrun

end

/-! ### Aborts (R185, R239) -/

/-- The response of the value a transaction returns (R103). -/
def answer (r : Byte × State) : State := respond r.1 0x00 r.2

/-- A failed step, with the lines `post` after `wrmem`, leads to what the caller makes of `stop(); return ST`. -/
def Aborts (par : Params) (fail : OnFail) (post : Lines) (n : Nat) (k : Byte × State → State) : Prop :=
  ∀ (mid : Lines) (t : State), Between par t → Leads (fail mid.length ++ (mid ++ post)) n t (k (aborted t))

section
variable {par : Params} {s : State} {fail : OnFail} {rest post : Lines} {n m : Nat} {k : Byte × State → State}
  {v : Byte} {y : Byte × State}

theorem condHolds_stIsNot_eq_false (h : s.st = v) : condHolds s (.stIsNot v) = false := by simp [condHolds, h]

theorem condHolds_stIsNot_eq_true (h : s.st ≠ v) : condHolds s (.stIsNot v) = true := by simp [condHolds, h]

/-- `if ST != v: stop(); return ST`, then the rest. -/
theorem Aborts.expect (h : Aborts par fail post n k) (hs : Between par s) (hn : n ≤ m)
    (hrest : s.st = v → Leads (rest ++ post) m s (k y)) :
    Leads (expect v fail rest ++ post) (1 + m) s (k (if s.st ≠ v then aborted s else y)) := by
  rw [Machine.expect, List.append_assoc]
  by_cases hst : s.st = v
  · rw [if_neg (not_not.mpr hst)]
    exact (performs_ifThen_passed hs.fair.plan (condHolds_stIsNot_eq_false hst)).leads (hrest hst)
  · rw [if_pos hst, Nat.add_comm]
    exact ((h rest s hs).mono hn).ifThen_taken hs.fair.plan (condHolds_stIsNot_eq_true hst)

/-- The response of an abort. -/
theorem leads_respond_aborted (hs : Between par s) :
    Leads (respondStatus :: post) 1 (afterStop s) (answer (aborted s)) := by
  rw [answer, aborted, ← afterStop_st]
  exact leads_respond hs.fair.afterStop.plan .st (.lit 0)

theorem aborts_abortAndRespond (par : Params) (post : Lines) : Aborts par abortAndRespond post 3 answer :=
  fun _ _ ht => (performs_stop ht.fair ht.free).leads_append (b := [respondStatus]) (leads_respond_aborted ht)

/-- The abort of the inner `wrmem`: its status is responded, unless it is `TW_OK` (R187, R240). -/
theorem aborts_abortInside {next : State → State}
    (h : ∀ t, Fair t → t.par = par → StopPending t → Leads post n t (next t)) :
    Aborts par (abortInside par) post (n + 4) fun r => if r.1 ≠ par.twOk then answer r else next r.2 := by
  intro mid t ht
  have hplan := ht.fair.afterStop.plan
  have hstop := performs_stop ht.fair ht.free
  have hcode : abortInside par mid.length ++ (mid ++ post) =
      stopLines ++ (ifThen (.stIsNot par.twOk) [respondStatus] ++ (.skip mid.length :: mid ++ post)) := by
    simp [abortInside]
  rw [hcode]
  by_cases hst : t.st = par.twOk
  · simp only [aborted, hst, ne_eq, not_true, if_false]
    have hpass := performs_ifThen_passed (body := [respondStatus]) hplan
      (condHolds_stIsNot_eq_false ((afterStop_st t).trans hst))
    have hnext := h _ ht.fair.afterStop ((stopDone_par t).trans ht.par_eq) (stopPending_afterStop t)
    exact (hstop.leads (hpass.leads ((performs_skip hplan).leads hnext))).mono (by omega)
  · simp only [aborted, ne_eq, hst, not_false_eq_true, if_true]
    have hend := (leads_respond_aborted (post := .skip mid.length :: mid ++ post) ht).ifThen_taken
      (body := [respondStatus]) hplan
      (condHolds_stIsNot_eq_true ((afterStop_st t).trans_ne hst))
    exact (hstop.leads hend).mono (by omega)

/-! ### The payload of `wrmem` (R181) -/

/-- What `wrmem` returns after its payload loop, and its stop. -/
def payloadReturn (par : Params) (length : Byte) (s : State) : Byte × State :=
  if s.st ≠ par.st.dataTxAck then aborted s else (par.twOk, if length = 0 then s else afterStop s)

theorem toNat_succ {c : Byte} (h : c.toNat + 1 < 256) : (c + 1).toNat = c.toNat + 1 :=
  BitVec.toNat_add_of_lt h

theorem performs_incCnt (hp : s.plan = []) : Performs [.incCnt] 1 s { s with cnt := s.cnt + 1 } :=
  performs_line hp fun _ => rfl

theorem performs_clearCnt (hp : s.plan = []) : Performs [.clearCnt] 1 s { s with cnt := 0 } :=
  performs_line hp fun _ => rfl

/-- One round of the loop whose byte is ACKed. -/
theorem performs_sendRound (hs : Writing par s) (fail : Lines)
    (hack : (afterSend (bufRead s.cnt.toNat s) s).st = par.st.dataTxAck) :
    Performs (txLines .buf ++ ifThen (.stIsNot par.st.dataTxAck) fail ++ [.incCnt]) 8 s
      { afterSend (bufRead s.cnt.toNat s) s with cnt := s.cnt + 1 } :=
  ((performs_send hs .buf).append (performs_ifThen_passed hs.fair.plan (condHolds_stIsNot_eq_false hack))).append
    (performs_incCnt hs.fair.plan)

section
variable {length : Byte} (hfail : Aborts par fail post n k)
  (hrest : ∀ t, Writing par t → Leads (rest ++ post) n t (k (par.twOk, if length = 0 then t else afterStop t)))
include hfail

/-- A round of the loop whose byte is not ACKed. -/
theorem leads_sendRound_aborted (hs : Writing par s) {back : Line}
    (hnack : (afterSend (bufRead s.cnt.toNat s) s).st ≠ par.st.dataTxAck) :
    Leads (txLines .buf ++ ifThen (.stIsNot par.st.dataTxAck) (fail (rest.length + 2)) ++ [.incCnt] ++
        (back :: (rest ++ post))) (6 + (n + 1)) s (k (aborted (afterSend (bufRead s.cnt.toNat s) s))) := by
  have ht := hs.afterSend (bufRead s.cnt.toNat s)
  have habort := (hfail (.incCnt :: back :: rest) _ ht.toBetween).ifThen_taken ht.fair.plan
    (condHolds_stIsNot_eq_true hnack)
  rw [List.append_assoc, List.append_assoc]
  exact (performs_send hs .buf).leads habort

include hrest

/-- The loop sends the `m` bytes from index `CNT` on, up to the first that is not ACKed. -/
theorem leads_sendLoop (m : Nat) {s : State} (hs : Writing par s) (hst : s.st = par.st.dataTxAck)
    (hcnt : s.cnt.toNat + m = length.toNat) :
    Leads (whileLoop (.cntBelow length.toNat)
        (txLines .buf ++ ifThen (.stIsNot par.st.dataTxAck) (fail (rest.length + 2)) ++ [.incCnt]) ++ (rest ++ post))
      (n + 10 * m + 1) s
      (k (payloadReturn par length (sendAll ((List.range' s.cnt.toNat m).map (Memory.read s.buf)) s))) := by
  induction m generalizing s with
  | zero =>
    simp only [List.range'_zero, List.map_nil, sendAll, payloadReturn, hst, ne_eq, not_true, if_false]
    exact ((hrest s hs).loop_exit hs.fair.plan (by simp [condHolds]; omega)).mono (by omega)
  | succ m ih =>
    have hbelow : condHolds s (.cntBelow length.toNat) = true := by simp [condHolds]; omega
    rw [List.range'_succ, List.map_cons, ← bufRead, sendAll, hs.par_eq]
    have ht := hs.afterSend (bufRead s.cnt.toNat s)
    by_cases hack : (afterSend (bufRead s.cnt.toNat s) s).st = par.st.dataTxAck
    · have hsucc : (s.cnt + 1).toNat = s.cnt.toNat + 1 := toNat_succ (by have := length.isLt; omega)
      have hnext := ih (ht.withCnt (s.cnt + 1)) hack (by simp only [hsucc]; omega)
      simp only [hsucc] at hnext
      have hround := hnext.loop_round hs.fair.plan (ht.withCnt _).fair.plan hbelow (performs_sendRound hs _ hack)
      rw [if_pos hack]
      exact hround.mono (by omega)
    · have hleave := Leads.loop_leave hs.fair.plan hbelow (leads_sendRound_aborted (rest := rest) hfail hs hack)
      rw [if_neg hack, payloadReturn, if_pos hack]
      exact hleave.mono (by omega)

/-- Steps 7 and 8 of `wrmem` and what follows them. -/
theorem leads_sendPayload {s : State} (hs : Writing par s) (hst : s.st = par.st.dataTxAck) :
    Leads (sendPayload par length fail rest ++ post) (1 + (n + 10 * length.toNat + 1)) s
      (k (payloadReturn par length (sendAll (payload s length.toNat) { s with cnt := 0 }))) := by
  have hloop := leads_sendLoop hfail hrest length.toNat (hs.withCnt 0) hst (by simp)
  have hrun := (performs_clearCnt hs.fair.plan).leads hloop
  rw [← List.append_assoc (whileLoop _ _)] at hrun
  rw [payload, List.range_eq_range']
  exact hrun

end
end

/-! ### What a transaction leaves alone -/

/-- What writing to a slave leaves alone: the responses, the position, the buffer and what the slave has to send. -/
structure Kept (s t : State) : Prop where
  rsp : t.rsp = s.rsp
  pc : t.pc = s.pc
  buf : t.buf = s.buf
  bytes : t.bytes = s.bytes

theorem Kept.trans {s t u : State} (h : Kept s t) (h' : Kept t u) : Kept s u :=
  ⟨h'.rsp.trans h.rsp, h'.pc.trans h.pc, h'.buf.trans h.buf, h'.bytes.trans h.bytes⟩

theorem kept_stopDone (s : State) : Kept s (stopDone s) := by
  rw [stopDone]
  split <;> exact ⟨rfl, rfl, rfl, rfl⟩

theorem kept_afterStart (s : State) : Kept s (afterStart s) := by
  have ⟨hrsp, hpc, hbuf, hbytes⟩ := kept_stopDone s
  rw [afterStart]
  split
  · exact ⟨rfl, rfl, rfl, rfl⟩
  · exact ⟨hrsp, hpc, hbuf, hbytes⟩

theorem kept_afterStop (s : State) : Kept s (afterStop s) :=
  have ⟨hrsp, hpc, hbuf, hbytes⟩ := kept_stopDone s
  ⟨hrsp, hpc, hbuf, hbytes⟩

theorem kept_afterAddress (b : Byte) (s : State) : Kept s (afterAddress b s) := ⟨rfl, rfl, rfl, rfl⟩

theorem kept_afterSend (b : Byte) (s : State) : Kept s (afterSend b s) := ⟨rfl, rfl, rfl, rfl⟩

theorem kept_afterRega (rsz : RegSize) (reg : BitVec 16) (s : State) : Kept s (afterRega rsz reg s) := by
  cases rsz with
  | w8 => exact kept_afterSend _ s
  | w16 =>
    rw [afterRega]
    split
    · exact (kept_afterSend _ s).trans (kept_afterSend _ _)
    · exact kept_afterSend _ s

theorem Kept.withCnt {s t : State} (h : Kept s t) (c : Byte) : Kept s { t with cnt := c } :=
  ⟨h.rsp, h.pc, h.buf, h.bytes⟩

/-! ### `wrmem` (R181) -/

theorem addressByte_getLsbD_zero (slave : BitVec 7) (d : Dir) :
    (addressByte slave d).getLsbD 0 = decide (d = .R) :=
  BitVec.getLsbD_append.trans (by cases d <;> rfl)

theorem byteDir_addressByte (slave : BitVec 7) (d : Dir) : byteDir (addressByte slave d) = d := by
  rw [byteDir, addressByte_getLsbD_zero]
  cases d <;> rfl

theorem payload_of_buf {s t : State} (h : t.buf = s.buf) (n : Nat) : payload t n = payload s n := by
  simp only [payload, bufRead, h]

/-- The lines of `wrmem` do what the procedure says, where the abort and the rest do what follows its return. -/
theorem leads_wrmem {s : State} (hs : Fair s) (hf : EngineFree s ∨ StopPending s) {rsz : RegSize} {slave : BitVec 7}
    {length : Byte} {reg : BitVec 16} {fail : OnFail} {rest post : Lines} {n : Nat} {k : Byte × State → State}
    (hfail : Aborts s.par fail post n k)
    (hrest : ∀ t, Writing s.par t →
      Leads (rest ++ post) n t (k (s.par.twOk, if length = 0 then t else afterStop t))) :
    Leads (wrmemLines s.par rsz slave length reg fail rest ++ post) (n + 10 * length.toNat + 29) s
      (k (wrmemResult rsz slave length reg s)) := by
  have hstart := between_afterStart hs
  have haddr := hstart.writing_afterAddress (byteDir_addressByte slave .W)
  have hrega := haddr.afterRega rsz reg
  have hkept := (kept_afterStart s).trans
    ((kept_afterAddress (addressByte slave .W) _).trans (kept_afterRega rsz reg _))
  refine Leads.mono (n := 5 + (1 + (6 + (1 + (13 + (1 + (1 + (n + 10 * length.toNat + 1)))))))) ?_ (by omega)
  refine (performs_start hs hf).leads_append (hfail.expect hstart (by omega) fun _ => ?_)
  refine (performs_address hstart (afterStart_phase s) _).leads_append
    (hfail.expect haddr.toBetween (by omega) fun _ => ?_)
  refine (performs_rega haddr rsz reg).leads_append (hfail.expect hrega.toBetween (by omega) fun hack => ?_)
  rw [← payload_of_buf hkept.buf]
  exact leads_sendPayload hfail hrest hrega hack

theorem performs_stopIfPayload {par : Params} {s : State} (hs : Between par s) (length : Byte) :
    Performs (stopIfPayload length) 2 s (if length = 0 then s else afterStop s) := by
  rw [stopIfPayload]
  split
  · exact fun code u _ => (Reaches.refl code _).mono (Nat.zero_le 2)
  · exact performs_stop hs.fair hs.free

theorem exec_twwrmem {s : State} {length : Byte} (hs : TwiReady s) (hlen : length.toNat ≤ s.par.bufSize)
    (rsz : RegSize) (slave : BitVec 7) (reg : BitVec 16) :
    exec (.twwrmem rsz slave length reg) s = .next (answer (wrmemResult rsz slave length reg s)) := by
  obtain ⟨hquiet, hready⟩ := hs
  have ⟨⟨hu, _⟩, _⟩ := hquiet
  have hrest : ∀ t, Writing s.par t → Leads (stopIfPayload length ++ [respondOk s.par] ++ []) 3 t
      (answer (s.par.twOk, if length = 0 then t else afterStop t)) := by
    intro t ht
    refine (performs_stopIfPayload ht.toBetween length).leads_append (b := [respondOk s.par]) (leads_respond ?_ _ _)
    split
    · exact ht.fair.plan
    · exact ht.fair.afterStop.plan
  have hrun := leads_wrmem hquiet.fair hready (rsz := rsz) (slave := slave) (reg := reg)
    (aborts_abortAndRespond s.par []) hrest
  rw [List.append_nil] at hrun
  rw [exec, execTwwrmem, twwrmemLines, ifFits_of_le hlen]
  have := length.isLt
  exact hrun.perform hu rfl (by rw [turnBudget]; omega)

/-- Settles O47: each step of `wrmem` is a piece of the lines, and the abort of a step jumps out of them to the
response. -/
theorem twwrmemRefinesItsProcedure : Obligations.TwwrmemRefinesItsProcedure :=
  fun _ rsz slave _ reg hs hlen => exec_twwrmem hs hlen rsz slave reg

/-! ### `rdmem` (R183) -/

/-- Steps 3 to 10 of `rdmem`, with no bus faults. -/
def readResult (par : Params) (slave : BitVec 7) (length : Byte) (s : State) : Byte × State :=
  let s1 := afterStart s
  if s1.st ≠ par.st.rstart then aborted s1 else
  let s2 := afterAddress (addressByte slave .R) s1
  if s2.st ≠ par.st.slarAck then aborted s2 else
  (par.twOk, afterStop (receiveAll length.toNat { s2 with cnt := 0 }))

/-- What follows the return of the inner `wrmem` (R183, R187). -/
def answerInner (par : Params) (slave : BitVec 7) (length : Byte) (r : Byte × State) : State :=
  if r.1 ≠ par.twOk then answer r else answer (readResult par slave length r.2)

theorem answer_rdmemResult (rsz : RegSize) (slave : BitVec 7) (length : Byte) (reg : BitVec 16) (s : State) :
    answerInner s.par slave length (wrmemResult rsz slave 0 reg s) = answer (rdmemResult rsz slave length reg s) :=
  (apply_ite answer ..).symm

section
variable {par : Params} {s : State} {post : Lines} {n m : Nat} {length : Byte}

/-- The status of a byte received (R208). -/
def rxStatus (c : StatusCodes) (more : Bool) : Byte := if more then c.dataRxAck else c.dataRxNack

/-- A receive whose status is the one expected, as it is without bus faults. -/
theorem performs_receiveChecked (hs : Reading par true s) (more : Bool) (fail : Lines) :
    Performs (rxLines more ++ ifThen (.stIsNot (rxStatus par.st more)) fail) 7 s (afterReceive more s) := by
  have hst : (afterReceive more s).st = rxStatus par.st more := by rw [← hs.par_eq]; rfl
  exact (performs_receive hs more).append
    (performs_ifThen_passed (hs.afterReceive more).fair.plan (condHolds_stIsNot_eq_false hst))

theorem performs_putBuf (hp : s.plan = []) (hcnt : s.cnt.toNat < s.par.bufSize) :
    Performs [.putBuf] 1 s (bufWrite s.cnt.toNat s.rxb s) :=
  performs_line hp fun _ => if_pos hcnt

/-- A byte received and stored, `m` more of them to come. -/
def storeNext (m : Nat) (s : State) : State :=
  let t := afterReceive (decide (m ≠ 0)) s
  { bufWrite t.cnt.toNat t.rxb t with cnt := t.cnt + 1 }

theorem Reading.storeNext (hs : Reading par true s) (m : Nat) : Reading par (decide (m ≠ 0)) (storeNext m s) :=
  ((hs.afterReceive _).bufWrite ..).withCnt _

/-- The receive of one round: the last byte is NACKed. -/
theorem performs_receiveOne (hs : Reading par true s) (hcnt : s.cnt.toNat + (m + 1) = length.toNat) (a b : Lines) :
    Performs (ifElse (.cntBelow (length.toNat - 1)) (rxLines true ++ ifThen (.stIsNot (rxStatus par.st true)) a)
      (rxLines false ++ ifThen (.stIsNot (rxStatus par.st false)) b)) 9 s (afterReceive (decide (m ≠ 0)) s) := by
  have hplan := hs.fair.plan
  cases m with
  | zero =>
    have hlast : condHolds s (.cntBelow (length.toNat - 1)) = false := by simp [condHolds]; omega
    exact ((performs_receiveChecked hs false b).ifElse_passed hplan hlast).mono (by decide)
  | succ m =>
    have hmore : condHolds s (.cntBelow (length.toNat - 1)) = true := by simp [condHolds]; omega
    exact Performs.ifElse_taken (t := afterReceive true s) hplan hplan hmore (performs_receiveChecked hs true a)

theorem performs_receiveRound (hs : Reading par true s) (hcnt : s.cnt.toNat + (m + 1) = length.toNat)
    (hlen : length.toNat ≤ par.bufSize) :
    Performs (receiveBody par length ++ [.incCnt]) 11 s (storeNext m s) := by
  have hplan := hs.fair.plan
  have hput := performs_putBuf (s := afterReceive (decide (m ≠ 0)) s) hplan
    (show s.cnt.toNat < s.par.bufSize by rw [hs.par_eq]; omega)
  exact (((performs_receiveOne hs hcnt _ _).append hput).append (performs_incCnt hplan) :)

theorem receiveLoop_eq (par : Params) (length : Byte) :
    receiveLoop par length = whileLoop (.cntBelow length.toNat) (receiveBody par length ++ [.incCnt]) := by
  simp [receiveLoop, receiveBody]

/-- The receive loop stores `m` bytes from index `CNT` on. -/
theorem leads_receiveLoop (hlen : length.toNat ≤ par.bufSize) {k : State → State}
    (hpost : ∀ t, Between par t → Leads post n t (k t)) (m : Nat) {s : State} (hs : Reading par (decide (m ≠ 0)) s)
    (hcnt : s.cnt.toNat + m = length.toNat) :
    Leads (receiveLoop par length ++ post) (n + 13 * m + 1) s (k (receiveAll m s)) := by
  have hplan := hs.fair.plan
  rw [receiveLoop_eq]
  induction m generalizing s with
  | zero =>
    have hdone : condHolds s (.cntBelow length.toNat) = false := by simp [condHolds]; omega
    exact ((hpost s hs.toBetween).loop_exit hplan hdone).mono (by omega)
  | succ m ih =>
    have hbelow : condHolds s (.cntBelow length.toNat) = true := by simp [condHolds]; omega
    have hsucc : (s.cnt + 1).toNat = s.cnt.toNat + 1 := toNat_succ (by have := length.isLt; omega)
    have hnext := ih (hs.storeNext m) (by rw [show (storeNext m s).cnt = s.cnt + 1 from rfl, hsucc]; omega) hplan
    exact (Leads.loop_round (t := storeNext m s) hplan hplan hbelow (performs_receiveRound hs hcnt hlen) hnext).mono
      (by omega)

/-- The status of an address byte tells its acknowledge. -/
theorem addressStatus_eq_ack {par : Params} (h : paramsOk par = true) (d : Dir) (a : Ack) :
    addressStatus par.st d a = addressStatus par.st d .ack ↔ a = .ack := by
  have hcodes := paramsOk_codes h
  simp only [statusList, List.nodup_cons, List.mem_cons, not_or] at hcodes
  obtain ⟨-, -, ⟨hslaw, -⟩, -, -, -, -, ⟨hslar, -⟩, -⟩ := hcodes
  cases a with
  | ack => exact iff_of_true rfl rfl
  | nack =>
    refine iff_of_false ?_ Ack.noConfusion
    cases d with
    | W => exact Ne.symm hslaw
    | R => exact Ne.symm hslar

/-- The read address is ACKed where its status is the one expected. -/
theorem ack_of_slarAck (hs : paramsOk s.par = true) {b : Byte} (hb : byteDir b = .R)
    (h : (afterAddress b s).st = s.par.st.slarAck) : (drawAck .addr b s).1 = .ack := by
  have hst : addressStatus s.par.st (byteDir b) (drawAck .addr b s).1 = s.par.st.slarAck := h
  rw [hb] at hst
  exact (addressStatus_eq_ack hs .R _).mp hst

/-- Steps 3 to 10 of `rdmem` and the response. -/
theorem leads_readPhase (hs : Fair s) (hf : EngineFree s ∨ StopPending s) (hlen : length.toNat ≤ s.par.bufSize)
    (slave : BitVec 7) :
    Leads (readPhase s.par slave length) (13 * length.toNat + 30) s (answer (readResult s.par slave length s)) := by
  have hstart := between_afterStart hs
  have habort := aborts_abortAndRespond s.par []
  have hdir := byteDir_addressByte slave .R
  have haddr := hstart.afterAddress (addressByte slave .R)
  rw [← List.append_nil (readPhase ..)]
  refine Leads.mono (n := 5 + (1 + (6 + (1 + (1 + (3 + 13 * length.toNat + 1)))))) ?_ (by omega)
  refine (performs_start hs hf).leads_append (habort.expect hstart (by omega) fun _ => ?_)
  refine (performs_address hstart (afterStart_phase s) _).leads_append
    (habort.expect haddr (by omega) fun hack => ?_)
  have hread := hstart.reading_afterAddress hdir
    (ack_of_slarAck hstart.fair.params hdir (hack.trans (by rw [hstart.par_eq])))
  have hend : ∀ t, Between s.par t → Leads (stopLines ++ [respondOk s.par]) 3 t (answer (s.par.twOk, afterStop t)) :=
    fun t ht => (performs_stop ht.fair ht.free).leads (leads_respond ht.fair.afterStop.plan _ _)
  have hloop := leads_receiveLoop hlen hend length.toNat ((hread _).withCnt 0) (Nat.zero_add _)
  have hrun := (performs_clearCnt haddr.fair.plan).leads hloop
  simpa using hrun

end

theorem exec_twrdmem {s : State} {length : Byte} (hs : TwiReady s) (hlen : length.toNat ≤ s.par.bufSize)
    (rsz : RegSize) (slave : BitVec 7) (reg : BitVec 16) :
    exec (.twrdmem rsz slave length reg) s = .next (answer (rdmemResult rsz slave length reg s)) := by
  obtain ⟨hquiet, hready⟩ := hs
  have ⟨⟨hu, _⟩, _⟩ := hquiet
  have hread : ∀ t, Fair t → t.par = s.par → EngineFree t ∨ StopPending t →
      Leads (readPhase s.par slave length) (13 * length.toNat + 30) t (answer (readResult s.par slave length t)) := by
    intro t ht hpar hf
    rw [← hpar]
    exact leads_readPhase ht hf (hpar ▸ hlen) slave
  have habort := aborts_abortInside (fun t ht hpar hstop => hread t ht hpar (.inr hstop))
  have hrun := leads_wrmem (length := 0) hquiet.fair hready (rsz := rsz) (slave := slave) (reg := reg) (rest := [])
    (k := answerInner s.par slave length) habort fun t ht => by
      rw [if_pos rfl]
      simp only [answerInner, ne_eq, not_true, if_false]
      exact (hread t ht.fair ht.par_eq (.inl ht.free)).mono (by omega)
  rw [answer_rdmemResult] at hrun
  rw [exec, execTwrdmem, twrdmemLines, ifFits_of_le hlen]
  have := length.isLt
  exact hrun.perform hu rfl (by simp [turnBudget]; omega)

/-- Settles O48: the inner `wrmem` returns to the read phase, after its abort only where its status is `TW_OK`
(R187). -/
theorem twrdmemRefinesItsProcedure : Obligations.TwrdmemRefinesItsProcedure :=
  fun _ rsz slave _ reg hs hlen => exec_twrdmem hs hlen rsz slave reg

/-! ### A transaction that fails -/

/-- The response of a transaction is the only one (R27). -/
theorem responded_answer {s : State} {r : Byte × State} (hrsp : r.2.rsp = s.rsp) (hpc : r.2.pc = s.pc) :
    Responded s (answer r) r.1 0x00 :=
  ⟨by rw [answer, respond_rsp, hrsp], by rw [answer, respond_pc, hpc], rfl⟩

/-- A transaction that returns the status `v` with the bus log `log`: it has stored nothing, and has requested the
stop (R185). -/
structure FailsWith (s : State) (r : Byte × State) (v : Byte) (log : List BusEvent) : Prop where
  code : r.1 = v
  buslog : r.2.buslog = log
  kept : Kept s r.2
  pending : r.2.pending = .stop

theorem FailsWith.answer {s : State} {r : Byte × State} {v : Byte} {log : List BusEvent} (h : FailsWith s r v log) :
    (Machine.answer r).buslog = log ∧ Responded s (Machine.answer r) v 0x00 ∧ SameBuf s (Machine.answer r) ∧
      (Machine.answer r).pending = .stop := by
  have hresp := responded_answer h.kept.rsp h.kept.pc
  rw [h.code] at hresp
  exact ⟨h.buslog, hresp, ⟨h.kept.buf, bufRead_of_buf h.kept.buf⟩, h.pending⟩

/-- The stop that a transaction requests is not on the bus yet (R163). -/
theorem Between.afterStop_buslog {par : Params} {s : State} (h : Between par s) :
    (afterStop s).buslog = s.buslog := by
  have hstop : stopFirst s = [] := if_neg h.held
  exact (stopDone_buslog s).trans (by rw [hstop, List.append_nil])

theorem failsWith_aborted {par : Params} {s t : State} {v : Byte} {log : List BusEvent} (ht : Between par t)
    (hv : t.st = v) (hlog : t.buslog = log) (hkept : Kept s t) : FailsWith s (aborted t) v log :=
  ⟨hv, ht.afterStop_buslog.trans hlog, hkept.trans (kept_afterStop t), rfl⟩

/-! ### The start and the address byte -/

/-- `start()` and `tx` of the address byte, as in `wrmem` and again in the read phase of `rdmem`. -/
def opened (slave : BitVec 7) (d : Dir) (s : State) : State := afterAddress (addressByte slave d) (afterStart s)

/-- The bus log then. -/
def openedLog (slave : BitVec 7) (d : Dir) (a : Ack) (s : State) : List BusEvent :=
  (afterStart s).buslog ++ [.addr (addressByte slave d) a]

section
variable {s : State} {slave : BitVec 7} {d : Dir} {a : Ack} {rest : List Ack}

theorem afterStart_st_of_held (h : busHeld s = true) : (afterStart s).st = s.par.st.rstart := by
  rw [afterStart_st, if_pos h]

theorem afterStart_st_of_free (h : busHeld s = false) : (afterStart s).st = s.par.st.start := by
  rw [afterStart_st, h]
  rfl

theorem openedLog_of_free (h : busHeld s = false) :
    openedLog slave d a s = s.buslog ++ stopFirst s ++ [.start, .addr (addressByte slave d) a] := by
  rw [openedLog, afterStart_buslog, h, List.append_assoc]
  rfl

theorem openedLog_of_held (h : busHeld s = true) :
    openedLog slave d a s = s.buslog ++ [.rstart, .addr (addressByte slave d) a] := by
  rw [openedLog, afterStart_buslog, h, stopFirst_of_busHeld h, List.append_nil, List.append_assoc]
  rfl

theorem afterStart_acks (s : State) : (afterStart s).acks = s.acks := by
  rw [afterStart, stopDone]
  split_ifs <;> rfl

theorem opened_acks (h : s.acks = a :: rest) : (opened slave d s).acks = rest :=
  congrArg List.tail ((afterStart_acks s).trans h)

theorem drawAck_afterStart (h : s.acks = a :: rest) (k : AckKind) (b : Byte) :
    (drawAck k b (afterStart s)).1 = a := by
  rw [drawAck_cons ((afterStart_acks s).trans h)]

theorem opened_st (h : s.acks = a :: rest) : (opened slave d s).st = addressStatus s.par.st d a := by
  have hst : (opened slave d s).st = addressStatus (afterStart s).par.st (byteDir (addressByte slave d))
    (drawAck .addr (addressByte slave d) (afterStart s)).1 := rfl
  rw [hst, drawAck_afterStart h, byteDir_addressByte, afterStart_par]

theorem opened_buslog (h : s.acks = a :: rest) : (opened slave d s).buslog = openedLog slave d a s := by
  rw [openedLog, ← drawAck_afterStart h .addr (addressByte slave d)]
  rfl

theorem opened_par (slave : BitVec 7) (d : Dir) (s : State) : (opened slave d s).par = s.par := afterStart_par s

theorem kept_opened (slave : BitVec 7) (d : Dir) (s : State) : Kept s (opened slave d s) :=
  (kept_afterStart s).trans (kept_afterAddress _ _)

theorem between_opened (hs : Fair s) (slave : BitVec 7) (d : Dir) : Between s.par (opened slave d s) :=
  (between_afterStart hs).afterAddress _

theorem writing_opened (hs : Fair s) (slave : BitVec 7) : Writing s.par (opened slave .W s) :=
  (between_afterStart hs).writing_afterAddress (byteDir_addressByte slave .W)

theorem reading_opened (hs : Fair s) (slave : BitVec 7) (h : s.acks = .ack :: rest) (more : Bool) :
    Reading s.par more (opened slave .R s) :=
  (between_afterStart hs).reading_afterAddress (byteDir_addressByte slave .R) (drawAck_afterStart h ..) more

end

/-! ### Bytes sent until one is not ACKed (R166, R181, R182) -/

/-- `rega` and the payload loop send bytes in order, up to the first that is not ACKed. -/
def transmit : List Byte → State → State
  | [], s => s
  | b :: rest, s => if (afterSend b s).st = s.par.st.dataTxAck then transmit rest (afterSend b s) else afterSend b s

theorem afterSend_cnt (b c : Byte) (s : State) :
    afterSend b { s with cnt := c } = { afterSend b s with cnt := c } := by
  have hack : (drawAck .data b { s with cnt := c }).1 = (drawAck .data b s).1 := by apply drawAck_congr <;> rfl
  rw [afterSend, hack]
  rfl

theorem sendAll_eq_transmit (bs : List Byte) (s : State) (c : Byte) :
    ∃ d, sendAll bs { s with cnt := c } = { transmit bs s with cnt := d } := by
  induction bs generalizing s c with
  | nil => exact ⟨c, rfl⟩
  | cons b bs ih =>
    rw [sendAll, transmit, afterSend_cnt]
    by_cases hack : (afterSend b s).st = s.par.st.dataTxAck
    · obtain ⟨d, hd⟩ := ih (afterSend b s) (c + 1)
      exact ⟨d, by simpa only [hack, if_true] using hd⟩
    · exact ⟨c, by simp only [hack, if_false]⟩

/-- The bytes of a register address, then others. -/
theorem transmit_regBytes (rsz : RegSize) (reg : BitVec 16) (bs : List Byte) (s : State) :
    transmit (regBytes rsz reg ++ bs) s =
      if (afterRega rsz reg s).st = s.par.st.dataTxAck then transmit bs (afterRega rsz reg s)
      else afterRega rsz reg s := by
  cases rsz with
  | w8 => rfl
  | w16 =>
    by_cases hack : (afterSend (regHigh reg) s).st = s.par.st.dataTxAck
    · simp only [regBytes, List.cons_append, List.nil_append, transmit, afterRega, hack, if_true]
      rfl
    · simp only [regBytes, List.cons_append, List.nil_append, transmit, afterRega, hack, if_false]

theorem kept_transmit (bs : List Byte) (s : State) : Kept s (transmit bs s) := by
  induction bs generalizing s with
  | nil => exact ⟨rfl, rfl, rfl, rfl⟩
  | cons b bs ih =>
    rw [transmit]
    split
    · exact (kept_afterSend b s).trans (ih _)
    · exact kept_afterSend b s

theorem Writing.transmit {par : Params} {s : State} (h : Writing par s) (bs : List Byte) :
    Writing par (transmit bs s) := by
  induction bs generalizing s with
  | nil => exact h
  | cons b bs ih =>
    rw [Machine.transmit]
    split
    · exact ih (h.afterSend b)
    · exact h.afterSend b

/-- All bytes are sent and ACKed. -/
structure AllAcked (bs : List Byte) (rest : List Ack) (s t : State) : Prop where
  acks : t.acks = rest
  buslog : t.buslog = s.buslog ++ txAcked bs
  st : bs ≠ [] → t.st = s.par.st.dataTxAck
  phase : bs ≠ [] → t.phase = .dataSent

theorem allAcked_transmit {bs : List Byte} {rest : List Ack} {s : State}
    (h : s.acks = List.replicate bs.length Ack.ack ++ rest) : AllAcked bs rest s (transmit bs s) := by
  induction bs generalizing s with
  | nil => exact ⟨h, (List.append_nil _).symm, absurd rfl, absurd rfl⟩
  | cons b bs ih =>
    rw [List.length_cons, List.replicate_succ, List.cons_append] at h
    have hst : (afterSend b s).st = s.par.st.dataTxAck := by rw [afterSend_st, drawAck_cons h]; rfl
    obtain ⟨hacks, hlog, hlast, hphase⟩ := ih (s := afterSend b s) (congrArg List.tail h)
    rw [transmit, if_pos hst]
    refine ⟨hacks, ?_, fun _ => ?_, fun _ => ?_⟩
    · rw [hlog, afterSend_buslog, drawAck_cons h, List.append_assoc]
      rfl
    · cases bs with
      | nil => exact hst
      | cons c bs => exact hlast (List.cons_ne_nil c bs)
    · cases bs with
      | nil => rfl
      | cons c bs => exact hphase (List.cons_ne_nil c bs)

theorem dataTxNack_ne_dataTxAck {par : Params} (h : paramsOk par = true) : par.st.dataTxNack ≠ par.st.dataTxAck :=
  mt (txStatus_eq_dataTxAck h .nack).mp Ack.noConfusion

/-- Byte `k` is the first that is not ACKed. -/
theorem transmit_nacked {bs : List Byte} {rest : List Ack} {s : State} {k : Nat} (hs : paramsOk s.par = true)
    (hk : k < bs.length) (h : s.acks = List.replicate k Ack.ack ++ Ack.nack :: rest) :
    (transmit bs s).st = s.par.st.dataTxNack ∧
      (transmit bs s).buslog = s.buslog ++ txAcked (bs.take k) ++ [BusEvent.tx (bs.getD k 0) .nack] := by
  induction bs generalizing s k with
  | nil => cases hk
  | cons b bs ih =>
    cases k with
    | zero =>
      have hst : (afterSend b s).st = s.par.st.dataTxNack := by rw [afterSend_st, drawAck_cons h]; rfl
      rw [transmit, if_neg (hst.trans_ne (dataTxNack_ne_dataTxAck hs)), afterSend_buslog, drawAck_cons h]
      exact ⟨hst, by simp [txAcked]⟩
    | succ k =>
      rw [List.replicate_succ, List.cons_append] at h
      have hst : (afterSend b s).st = s.par.st.dataTxAck := by rw [afterSend_st, drawAck_cons h]; rfl
      obtain ⟨hnack, hlog⟩ := ih (s := afterSend b s) hs (Nat.lt_of_succ_lt_succ hk) (congrArg List.tail h)
      rw [transmit, if_pos hst]
      refine ⟨hnack, ?_⟩
      rw [hlog, afterSend_buslog, drawAck_cons h]
      simp [txAcked]

/-! ### The outcomes of `wrmem` (R181, R182) -/

section
variable {s : State} {rsz : RegSize} {slave : BitVec 7} {length : Byte} {reg : BitVec 16} {rest : List Ack}

theorem rstart_ne_start {par : Params} (h : paramsOk par = true) : par.st.rstart ≠ par.st.start := by
  have hcodes := paramsOk_codes h
  simp only [statusList, List.nodup_cons, List.mem_cons, not_or] at hcodes
  obtain ⟨⟨hne, -⟩, -⟩ := hcodes
  exact Ne.symm hne

/-- The bus is held at entry: the start was a repeated one. -/
theorem wrmem_fails_held (hs : Fair s) (h : busHeld s = true) :
    FailsWith s (wrmemResult rsz slave length reg s) s.par.st.rstart (s.buslog ++ [.rstart]) := by
  have hst := afterStart_st_of_held h
  have hresult : wrmemResult rsz slave length reg s = aborted (afterStart s) :=
    if_pos (hst.trans_ne (rstart_ne_start hs.params))
  rw [hresult]
  refine failsWith_aborted (between_afterStart hs) hst ?_ (kept_afterStart s)
  rw [afterStart_buslog, h, stopFirst_of_busHeld h, List.append_nil, if_pos rfl]

/-- No slave answers to the address byte. -/
theorem wrmem_fails_address (hs : Fair s) (h : busHeld s = false) (hacks : s.acks = .nack :: rest) :
    FailsWith s (wrmemResult rsz slave length reg s) s.par.st.slawNack (openedLog slave .W .nack s) := by
  have hst : (opened slave .W s).st = s.par.st.slawNack := opened_st hacks
  have hne := hst.trans_ne (mt (addressStatus_eq_ack hs.params .W .nack).mp Ack.noConfusion)
  have hresult : wrmemResult rsz slave length reg s = aborted (opened slave .W s) :=
    (if_neg (not_not.mpr (afterStart_st_of_free h))).trans (if_pos hne)
  rw [hresult]
  exact failsWith_aborted (between_opened hs slave .W) hst (opened_buslog hacks) (kept_opened slave .W s)

/-- The bytes of `wrmem` after its address byte: the register address and the payload. -/
def wrmemBytes (rsz : RegSize) (length : Byte) (reg : BitVec 16) (s : State) : List Byte :=
  regBytes rsz reg ++ payload s length.toNat

/-- The slave answers to the address byte: the bytes follow. -/
theorem wrmemResult_of_acked (h : busHeld s = false) (hacks : s.acks = .ack :: rest) :
    ∃ c, wrmemResult rsz slave length reg s = payloadReturn s.par length
      { transmit (wrmemBytes rsz length reg s) (opened slave .W s) with cnt := c } := by
  have haddr : (opened slave .W s).st = s.par.st.slawAck := opened_st hacks
  have hresult : wrmemResult rsz slave length reg s =
      if (afterRega rsz reg (opened slave .W s)).st ≠ s.par.st.dataTxAck then
        aborted (afterRega rsz reg (opened slave .W s))
      else payloadReturn s.par length
        (sendAll (payload s length.toNat) { afterRega rsz reg (opened slave .W s) with cnt := 0 }) :=
    (if_neg (not_not.mpr (afterStart_st_of_free h))).trans (if_neg (not_not.mpr haddr))
  rw [hresult, wrmemBytes, transmit_regBytes, opened_par]
  by_cases hack : (afterRega rsz reg (opened slave .W s)).st = s.par.st.dataTxAck
  · rw [if_neg (not_not.mpr hack), if_pos hack]
    exact (sendAll_eq_transmit ..).imp fun _ hc => congrArg _ hc
  · rw [if_pos hack, if_neg hack]
    exact ⟨_, (if_pos hack).symm⟩

/-- Byte `k` after the address byte is not ACKed. -/
theorem wrmem_fails_byte (hs : Fair s) (h : busHeld s = false) {k : Nat}
    (hk : k < (wrmemBytes rsz length reg s).length)
    (hacks : s.acks = List.replicate (1 + k) Ack.ack ++ Ack.nack :: rest) :
    FailsWith s (wrmemResult rsz slave length reg s) s.par.st.dataTxNack
      (openedLog slave .W .ack s ++ txAcked ((wrmemBytes rsz length reg s).take k) ++
        [BusEvent.tx ((wrmemBytes rsz length reg s).getD k 0) .nack]) := by
  rw [Nat.add_comm, List.replicate_succ, List.cons_append] at hacks
  obtain ⟨c, hc⟩ := wrmemResult_of_acked (rsz := rsz) (slave := slave) (length := length) (reg := reg) h hacks
  obtain ⟨hst, hlog⟩ := transmit_nacked (s := opened slave .W s) (opened_par slave .W s ▸ hs.params) hk
    (opened_acks hacks)
  rw [opened_par] at hst
  rw [opened_buslog hacks] at hlog
  rw [hc, payloadReturn, if_pos (hst.trans_ne (dataTxNack_ne_dataTxAck hs.params))]
  exact failsWith_aborted (((writing_opened hs slave).transmit _).withCnt c).toBetween hst hlog
    (((kept_opened slave .W s).trans (kept_transmit _ _)).withCnt c)

/-- What a `wrmem` whose bytes are all ACKed leaves, but for its stop. -/
structure Written (s : State) (slave : BitVec 7) (bs : List Byte) (rest : List Ack) (t : State) : Prop
    extends Writing s.par t where
  sent : t.phase = .dataSent
  acks : t.acks = rest
  kept : Kept s t
  buslog : t.buslog = openedLog slave .W .ack s ++ txAcked bs

/-- Every byte is ACKed. -/
theorem wrmem_succeeds (hs : Fair s) (h : busHeld s = false)
    (hacks : s.acks = List.replicate (1 + (wrmemBytes rsz length reg s).length) Ack.ack ++ rest) :
    ∃ t, wrmemResult rsz slave length reg s = (s.par.twOk, if length = 0 then t else afterStop t) ∧
      Written s slave (wrmemBytes rsz length reg s) rest t := by
  rw [Nat.add_comm, List.replicate_succ, List.cons_append] at hacks
  obtain ⟨c, hc⟩ := wrmemResult_of_acked (rsz := rsz) (slave := slave) (length := length) (reg := reg) h hacks
  have hne : wrmemBytes rsz length reg s ≠ [] := by cases rsz <;> exact List.cons_ne_nil _ _
  obtain ⟨hrest, hlog, hst, hphase⟩ := allAcked_transmit (s := opened slave .W s) (opened_acks hacks)
  have hack := hst hne
  rw [opened_par] at hack
  rw [opened_buslog hacks] at hlog
  rw [payloadReturn, if_neg (not_not.mpr hack)] at hc
  exact ⟨_, hc, ((writing_opened hs slave).transmit _).withCnt c, hphase hne, hrest,
    ((kept_opened slave .W s).trans (kept_transmit _ _)).withCnt c, hlog⟩

end

/-- Settles O49: the outcomes of `wrmem`, and the response. -/
theorem twwrmemBusEvents : Obligations.TwwrmemBusEvents := by
  intro s rsz slave length reg rest hs hlen
  have hexec := exec_twwrmem hs hlen rsz slave reg
  have ⟨hquiet, _⟩ := hs
  have hfair := hquiet.fair
  have hfails : ∀ {v log}, FailsWith s (wrmemResult rsz slave length reg s) v log →
      ∃ t, exec (.twwrmem rsz slave length reg) s = .next t ∧ t.buslog = log ∧ Responded s t v 0x00 ∧
        t.pending = .stop := fun hfail =>
    have ⟨hlog, hresp, _, hpend⟩ := hfail.answer
    ⟨_, hexec, hlog, hresp, hpend⟩
  refine ⟨fun hheld => hfails (wrmem_fails_held hfair hheld), fun hfree hacks => ?_, fun k hfree hk hacks => ?_,
    fun hfree hacks => ?_⟩
  · rw [← openedLog_of_free hfree]
    exact hfails (wrmem_fails_address hfair hfree hacks)
  · rw [← openedLog_of_free hfree]
    exact hfails (wrmem_fails_byte hfair hfree hk hacks)
  · rw [← openedLog_of_free hfree]
    obtain ⟨t, hresult, ht⟩ := wrmem_succeeds (slave := slave) hfair hfree hacks
    have hstop := ht.kept.trans (kept_afterStop t)
    rw [hresult] at hexec
    refine ⟨_, hexec, ?_⟩
    split_ifs
    · exact ⟨ht.buslog, responded_answer ht.kept.rsp ht.kept.pc, ht.sent, ht.pending, ht.int⟩
    · exact ⟨ht.afterStop_buslog.trans ht.buslog, responded_answer hstop.rsp hstop.pc, rfl, rfl⟩

/-! ### The bytes of `rdmem` (R183, R184) -/

/-- The bytes received stand in the log, all ACKed but the last, and in the buffer from index `CNT` on. -/
structure Received (ds : List Byte) (s t : State) : Prop where
  buslog : t.buslog = s.buslog ++ rxEvents ds
  buf : ∀ i, bufRead i t = if s.cnt.toNat ≤ i then ds.getD (i - s.cnt.toNat) (bufRead i s) else bufRead i s
  rsp : t.rsp = s.rsp
  pc : t.pc = s.pc

theorem Received.buf_of_zero {ds : List Byte} {s t : State} (h : Received ds s t) (hcnt : s.cnt = 0) (i : Nat) :
    bufRead i t = ds.getD i (bufRead i s) := by
  have hread := h.buf i
  rw [hcnt] at hread
  exact hread.trans (if_pos (Nat.zero_le i))

theorem rxEvents_cons (d : Byte) (ds : List Byte) :
    rxEvents (d :: ds) = .rx d (if ds.length ≠ 0 then .ack else .nack) :: rxEvents ds := by
  cases ds <;> rfl

section
variable {m : Nat} {s : State} {d : Byte} {ds more : List Byte}

theorem storeNext_buslog (h : s.bytes = d :: more) :
    (storeNext m s).buslog = s.buslog ++ [.rx d (if m ≠ 0 then .ack else .nack)] := by
  have hlog : (storeNext m s).buslog =
      s.buslog ++ [.rx (drawByte s).1 (if decide (m ≠ 0) = true then .ack else .nack)] := rfl
  rw [hlog, drawByte_cons h]
  simp only [decide_eq_true_eq]

theorem storeNext_buf (h : s.bytes = d :: more) : (storeNext m s).buf = Memory.write s.buf s.cnt.toNat d := by
  have hbuf : (storeNext m s).buf = Memory.write s.buf s.cnt.toNat (drawByte s).1 := rfl
  rw [hbuf, drawByte_cons h]

theorem received_receiveAll (hb : s.bytes = ds ++ more) (hcnt : s.cnt.toNat + ds.length < 256)
    (hwf : Memory.wf s.buf = true) : Received ds s (receiveAll ds.length s) := by
  induction ds generalizing s with
  | nil => exact ⟨(List.append_nil _).symm, fun i => (ite_self _).symm, rfl, rfl⟩
  | cons d ds ih =>
    rw [List.length_cons] at hcnt
    have hsucc : (storeNext ds.length s).cnt.toNat = s.cnt.toNat + 1 := toNat_succ (c := s.cnt) (by omega)
    have hbuf := storeNext_buf (m := ds.length) hb
    obtain ⟨hlog, hread, hrsp, hpc⟩ := ih (s := storeNext ds.length s) (congrArg List.tail hb) (by omega)
      (by rw [hbuf]; exact Memory.write_wf _ _ _ hwf)
    refine ⟨hlog.trans ?_, fun i => (hread i).trans ?_, hrsp, hpc⟩
    · rw [storeNext_buslog hb, rxEvents_cons, List.append_assoc]
      rfl
    · rw [hsucc, bufRead, hbuf]
      rcases Nat.lt_trichotomy i s.cnt.toNat with hi | rfl | hi
      · rw [if_neg (by omega), if_neg (by omega), Memory.read_write_other _ _ _ _ (by omega)]
        rfl
      · rw [if_neg (by omega), if_pos le_rfl, Memory.read_write_same _ _ _ hwf, Nat.sub_self]
        rfl
      · rw [if_pos (by omega), if_pos (by omega), Memory.read_write_other _ _ _ _ (by omega),
          show i - s.cnt.toNat = i - (s.cnt.toNat + 1) + 1 by omega]
        rfl

theorem Reading.receiveAll {par : Params} (hs : Reading par (decide (m ≠ 0)) s) : Between par (receiveAll m s) := by
  induction m generalizing s with
  | zero => exact hs.toBetween
  | succ m ih => exact ih (hs.storeNext m)

/-- What the receive loop leaves, with the stop requested. -/
theorem received_afterStop {par : Params} (hs : Reading par (decide (ds.length ≠ 0)) s) (hb : s.bytes = ds ++ more)
    (hcnt : s.cnt.toNat + ds.length < 256) (hwf : Memory.wf s.buf = true) :
    Received ds s (afterStop (receiveAll ds.length s)) := by
  have ⟨hlog, hread, hrsp, hpc⟩ := received_receiveAll hb hcnt hwf
  have hstop := kept_afterStop (receiveAll ds.length s)
  exact ⟨hs.receiveAll.afterStop_buslog.trans hlog, fun i => (bufRead_of_buf hstop.buf i).trans (hread i),
    hstop.rsp.trans hrsp, hstop.pc.trans hpc⟩

end

/-! ### The outcomes of `rdmem` (R184) -/

section
variable {s t : State} {rsz : RegSize} {slave : BitVec 7} {length : Byte} {reg : BitVec 16} {rest : List Ack}

/-- A failed inner write is returned as it is, where its status is not `TW_OK` (R187). -/
theorem rdmem_fails_inner {v : Byte} {log : List BusEvent} (h : FailsWith s (wrmemResult rsz slave 0 reg s) v log)
    (hv : s.par.twOk ≠ v) : FailsWith s (rdmemResult rsz slave length reg s) v log := by
  have hresult : rdmemResult rsz slave length reg s = wrmemResult rsz slave 0 reg s :=
    if_pos (h.code.trans_ne (Ne.symm hv))
  rwa [hresult]

theorem rdmemResult_of_ok (h : wrmemResult rsz slave 0 reg s = (s.par.twOk, t)) :
    rdmemResult rsz slave length reg s = readResult s.par slave length t := by
  have hcode : ¬(wrmemResult rsz slave 0 reg s).1 ≠ s.par.twOk := by rw [h]; exact not_not.mpr rfl
  rw [show t = (wrmemResult rsz slave 0 reg s).2 by rw [h]]
  exact if_neg hcode

theorem wrmemBytes_zero (rsz : RegSize) (reg : BitVec 16) (s : State) :
    wrmemBytes rsz 0 reg s = regBytes rsz reg := List.append_nil _

/-- The inner write succeeds: the read phase follows, with the bus still held. -/
theorem rdmemResult_of_written (hs : Fair s) (h : busHeld s = false)
    (hacks : s.acks = List.replicate (1 + (regBytes rsz reg).length) Ack.ack ++ rest) :
    ∃ t, rdmemResult rsz slave length reg s = readResult s.par slave length t ∧
      Written s slave (regBytes rsz reg) rest t := by
  rw [← wrmemBytes_zero rsz reg s] at hacks ⊢
  obtain ⟨t, hresult, ht⟩ := wrmem_succeeds (slave := slave) hs h hacks
  rw [if_pos rfl] at hresult
  exact ⟨t, rdmemResult_of_ok hresult, ht⟩

variable {bs : List Byte} {a : Ack}

theorem Written.busHeld (ht : Written s slave bs rest t) : busHeld t = true := by simp [Machine.busHeld, ht.sent]

/-- The bus log of `rdmem` up to the read address. -/
theorem Written.openedLog (ht : Written s slave bs rest t) (h : Machine.busHeld s = false) :
    openedLog slave .R a t = s.buslog ++ stopFirst s ++ [BusEvent.start, .addr (addressByte slave .W) .ack] ++
      txAcked bs ++ [BusEvent.rstart, .addr (addressByte slave .R) a] := by
  rw [openedLog_of_held ht.busHeld, ht.buslog, openedLog_of_free h]

theorem Written.afterStart_st (ht : Written s slave bs rest t) : (afterStart t).st = s.par.st.rstart := by
  rw [afterStart_st_of_held ht.busHeld, ht.par_eq]

theorem Written.opened_st (ht : Written s slave bs (a :: rest) t) :
    (opened slave .R t).st = addressStatus s.par.st .R a := by
  rw [Machine.opened_st ht.acks, ht.par_eq]

/-- The read address is not ACKed. -/
theorem read_fails_address (ht : Written s slave bs (.nack :: rest) t) :
    FailsWith s (readResult s.par slave length t) s.par.st.slarNack (openedLog slave .R .nack t) := by
  have hparams := ht.fair.params
  rw [ht.par_eq] at hparams
  have hne := ht.opened_st.trans_ne (mt (addressStatus_eq_ack hparams .R .nack).mp Ack.noConfusion)
  have hresult : readResult s.par slave length t = aborted (opened slave .R t) :=
    (if_neg (not_not.mpr ht.afterStart_st)).trans (if_pos hne)
  rw [hresult]
  exact failsWith_aborted (between_opened ht.fair slave .R) ht.opened_st (opened_buslog ht.acks)
    (ht.kept.trans (kept_opened slave .R t))

/-- The read address is ACKed: the bytes are received and stored from index 0 on, and the stop is requested. -/
theorem read_succeeds (ht : Written s slave bs (.ack :: rest) t) {ds more : List Byte}
    (hds : ds.length = length.toNat) (hbytes : s.bytes = ds ++ more) (hwf : Memory.wf s.buf = true) :
    ∃ u, readResult s.par slave length t = (s.par.twOk, u) ∧ u.phase = .stop ∧ u.pending = .stop ∧
      u.buslog = openedLog slave .R .ack t ++ rxEvents ds ∧ (∀ i, bufRead i u = ds.getD i (bufRead i s)) ∧
      u.rsp = s.rsp ∧ u.pc = s.pc := by
  have hresult : readResult s.par slave length t =
      (s.par.twOk, afterStop (receiveAll length.toNat { opened slave .R t with cnt := 0 })) :=
    (if_neg (not_not.mpr ht.afterStart_st)).trans (if_neg (not_not.mpr ht.opened_st))
  have hread := (reading_opened ht.fair slave ht.acks (decide (ds.length ≠ 0))).withCnt 0
  have hkept := (ht.kept.trans (kept_opened slave .R t)).withCnt 0
  have hrec := received_afterStop hread (hkept.bytes.trans hbytes) (by have := length.isLt; simp; omega)
    (by rw [hkept.buf, hwf])
  rw [← hds] at hresult
  refine ⟨_, hresult, rfl, rfl, by rw [hrec.buslog, ← opened_buslog ht.acks], fun i => ?_,
    hrec.rsp.trans hkept.rsp, hrec.pc.trans hkept.pc⟩
  rw [hrec.buf_of_zero rfl, bufRead_of_buf hkept.buf]

end

theorem getD_eq_ite (ds : List Byte) (i : Nat) (v w : Byte) :
    ds.getD i v = if i < ds.length then ds.getD i w else v := by
  split_ifs with hi <;> simp [hi]

/-- Settles O50: the inner write is a `wrmem` without payload, whose failures are returned; then the read phase. -/
theorem twrdmemOutcomes : Obligations.TwrdmemOutcomes := by
  intro s rsz slave length reg rest ds more hs hbuf hlen hok
  have hexec := exec_twrdmem hs hlen rsz slave reg
  have ⟨hquiet, _⟩ := hs
  have hfair := hquiet.fair
  have ⟨hrstart, hslaw, hdata⟩ : s.par.twOk ≠ s.par.st.rstart ∧ s.par.twOk ≠ s.par.st.slawNack ∧
      s.par.twOk ≠ s.par.st.dataTxNack := by simpa using hok
  have hfails : ∀ {v log}, FailsWith s (rdmemResult rsz slave length reg s) v log →
      ∃ t, exec (.twrdmem rsz slave length reg) s = .next t ∧ t.buslog = log ∧ Responded s t v 0x00 ∧
        SameBuf s t ∧ t.pending = .stop := fun hfail => ⟨_, hexec, hfail.answer⟩
  refine ⟨fun hfree hds hbytes hacks => ?_,
    fun hheld => hfails (rdmem_fails_inner (wrmem_fails_held hfair hheld) hrstart), fun hfree hacks => ?_,
    fun k hfree hk hacks => ?_, fun hfree hacks => ?_⟩
  · rw [show 2 + (regBytes rsz reg).length = 1 + (regBytes rsz reg).length + 1 by omega, List.replicate_succ',
      List.append_assoc] at hacks
    obtain ⟨t, hresult, ht⟩ := rdmemResult_of_written (slave := slave) (length := length) hfair hfree hacks
    have ⟨hwf, _⟩ := hbuf
    obtain ⟨u, hread, hphase, hpend, hlog, hstored, hrsp, hpc⟩ := read_succeeds ht hds hbytes hwf
    rw [hresult, hread] at hexec
    rw [ht.openedLog hfree] at hlog
    exact ⟨_, hexec, hlog, fun i => (hstored i).trans (getD_eq_ite ..), responded_answer hrsp hpc, hphase, hpend⟩
  · rw [← openedLog_of_free hfree]
    exact hfails (rdmem_fails_inner (wrmem_fails_address hfair hfree hacks) hslaw)
  · rw [← openedLog_of_free hfree]
    rw [← wrmemBytes_zero rsz reg s] at hk ⊢
    exact hfails (rdmem_fails_inner (wrmem_fails_byte hfair hfree hk hacks) hdata)
  · obtain ⟨t, hresult, ht⟩ := rdmemResult_of_written (slave := slave) (length := length) hfair hfree hacks
    have hfail := read_fails_address (length := length) ht
    rw [← hresult, ht.openedLog hfree] at hfail
    exact hfails hfail

end Sys2Proof.Machine
end

/-! SUPPORT. The bytes written to `TW_CTRL` and their refusals (R200, R202, R237); the engine's turn (R204 to R212),
each operation as one step of the machine; and commands that poll for an engine that has no step or refuses (R209,
R210, R213, R243). -/

section
namespace Sys2Proof.Machine

/-! ### Bytes written to TW_CTRL (R200, R202, R237) -/

/-- A control word's byte has the flag, the enable and the word's own flag (R200). -/
theorem testBit_ctrlWordByte (b : CtrlBits) (w : CtrlWord) (n : BitIx) :
    testBit (ctrlWordByte b w) n = true ↔
      n = b.int ∨ n = b.en ∨ (w = .start ∧ n = b.sta) ∨ (w = .stop ∧ n = b.sto) ∨ (w = .xferAck ∧ n = b.ea) := by
  cases w <;> simp [ctrlWordByte, testBit_oneHot, or_assoc]

/-- Every other byte is refused, by the name the interrupt enable decides (R202, R237). -/
theorem decodeCtrlWord_of_ne {b : CtrlBits} {v : Byte} (h : ∀ w, v ≠ ctrlWordByte b w) :
    decodeCtrlWord b v = .error (if testBit v b.ie then .interruptEnableSet else .ctrlWordNotAdmitted) := by
  unfold decodeCtrlWord
  split
  · rfl
  · rw [if_neg (h .start), if_neg (h .stop), if_neg (h .xferNack), if_neg (h .xferAck)]

theorem ctrlTurn_of_error {s : State} {v : Byte} {e : DecodeError} (h : decodeCtrlWord s.par.bits v = .error e)
    (a : Byte) : ctrlTurn s a v = none := by
  simp [ctrlTurn, decodeCtrl, h, Except.map, Except.toOption]

/-- A byte that is no control word, written by `Other`, is refused as the decoder names it (R202). -/
theorem step_ctrlByte_refused {s : State} {rest : List Turn} {v : Byte} {e : DecodeError}
    (hok : paramsOk s.par = true) (ho : s.par.otherPresent = true)
    (hp : s.plan = .other (.write s.par.twCtrl v) :: rest) (h : decodeCtrlWord s.par.bits v = .error e) :
    step s = .refused (decodeRefusal e) := by
  have hat : regAt s.par s.par.twCtrl = some .twCtrl := regAt_regAddr hok .twCtrl
  have hbus : busOp (.write s.par.twCtrl v) { s with plan := rest } = .refused (decodeRefusal e) := by
    simp only [busOp, hat, h]
  have hstep : step s = betweenCommands (.other (.write s.par.twCtrl v)) { s with plan := rest } := by
    simp only [step, stepState, hp, ctrlTurn_of_error h]
  rw [hstep, betweenCommands, agentTurn_other (s := { s with plan := rest }) ho, hbus, orPass]

/-- Settles O8: the byte is an `OR` of one-hot masks, and what the decoder of `TW_CTRL` refuses, the write does. -/
theorem controlBytesAndTheirRefusals : Obligations.ControlBytesAndTheirRefusals := by
  refine ⟨fun par w n _ => testBit_ctrlWordByte par.bits w n, fun s rest v hok ho hp hv => ?_⟩
  rw [step_ctrlByte_refused hok ho hp (decodeCtrlWord_of_ne hv)]
  split <;> rfl

/-! ### The engine's turn (R204 to R209) -/

section
variable {s t : State} {rest : List Turn}

theorem step_engine (hp : s.plan = .engine :: rest) : step s = betweenCommands .engine { s with plan := rest } := by
  simp only [step, stepState, hp]

theorem step_engine_done (hp : s.plan = .engine :: rest) (h : engineStep { s with plan := rest } = .done t) :
    step s = .next t := by
  rw [step_engine hp, betweenCommands, agentTurn, h, orPass]

theorem step_engine_refused {r : Refusal} (hp : s.plan = .engine :: rest)
    (h : engineStep { s with plan := rest } = .refused r) : step s = .refused r := by
  rw [step_engine hp, betweenCommands, agentTurn, h, orPass]

end

/-- A start is a repeated start where the phase is not IDLE (R204). -/
theorem engineStart_eq (s : State) :
    engineStart s = { s with
      ctrl := { s.ctrl with int := true },
      twCode := codeField (if s.phase = .idle then s.par.st.start else s.par.st.rstart), phase := .startSent,
      nack := false, pending := .none, buslog := s.buslog ++ [if s.phase = .idle then .start else .rstart] } := by
  by_cases h : s.phase = .idle
  · rw [engineStart_idle h, if_pos h, if_pos h]
  · rw [engineStart_held h, if_neg h, if_neg h]

/-- A pending stop is done from any phase, and no bus fault takes its place (R205, R212). -/
theorem engineStep_pendingStop {s : State} (hen : s.ctrl.en = true) (hint : s.ctrl.int = false)
    (hpend : s.pending = .stop) : engineStep s = .done (engineStop s) := by
  simp [engineStep, hen, hint, hpend]

/-- Settles O35: the engine's turn is the start step, or the stop step (R204, R205). -/
theorem engineStartAndStopSteps : Obligations.EngineStartAndStopSteps := by
  refine fun s rest hp hen hint => ⟨fun hfaults hpend => ?_, fun hpend => ?_⟩
  · rw [step_engine_done hp (engineStep_start ⟨hen, hint, hfaults⟩ hpend), engineStart_eq]
  · rw [step_engine_done hp (engineStep_pendingStop hen hint hpend), engineStop_eq]

theorem drawAck_plan (k : AckKind) (b : Byte) (rest : List Turn) (s : State) :
    (drawAck k b { s with plan := rest }).1 = (drawAck k b s).1 :=
  drawAck_congr (s := s) (t := { s with plan := rest }) rfl rfl rfl k b

theorem drawByte_plan (rest : List Turn) (s : State) : (drawByte { s with plan := rest }).1 = (drawByte s).1 :=
  drawByte_congr (s := s) (t := { s with plan := rest }) rfl rfl rfl

theorem addressStatus_byteDir (c : StatusCodes) (b : Byte) (a : Ack) :
    addressStatus c (byteDir b) a =
      if b.getLsbD 0 then (if a = .ack then c.slarAck else c.slarNack)
      else (if a = .ack then c.slawAck else c.slawNack) := by
  unfold byteDir
  cases a <;> split <;> rfl

theorem txStatus_eq (c : StatusCodes) (a : Ack) : txStatus c a = if a = .ack then c.dataTxAck else c.dataTxNack := by
  cases a <;> rfl

/-- Settles O36: the engine's turn is the step that phase and direction select; the answers are drawn (R206 to R208). -/
theorem engineTransferSteps : Obligations.EngineTransferSteps := by
  intro s rest hp hfaults hen hint hpend done a b d
  have henabled : Enabled { s with plan := rest } := ⟨hen, hint, hfaults⟩
  refine ⟨fun hphase => ?_, fun hphase hdir => ?_, fun hphase hdir hnack => ?_⟩
  · rw [step_engine_done hp (engineStep_address henabled hpend hphase), engineAddress_eq, addressStatus_byteDir,
      drawAck_plan]
    rfl
  · rw [step_engine_done hp (engineStep_transmit henabled hpend hphase hdir), engineTransmit_eq, txStatus_eq,
      drawAck_plan]
  · rw [step_engine_done hp (engineStep_receive henabled hpend hphase hdir hnack), engineReceive_eq, drawByte_plan]

/-! ### Bus faults (R212) -/

/-- An enabled start or transfer is a completion step, to which the bus faults are alternatives (R212). -/
theorem engineStep_withFaults {s : State} (hen : s.ctrl.en = true) (hint : s.ctrl.int = false)
    (h : s.pending = .start ∨ (s.pending = .xfer ∧ (s.phase = .startSent ∨
      (s.dir = .W ∧ (s.phase = .addrSent ∨ s.phase = .dataSent)) ∨
      (s.dir = .R ∧ s.nack = false ∧ (s.phase = .addrSent ∨ s.phase = .dataReceived))))) :
    ∃ f, engineStep s = .done (withFaults f s) := by
  rcases h with hpend | ⟨hpend, hphase | ⟨hdir, hphase⟩ | ⟨hdir, hnack, hphase⟩⟩
  · exact ⟨engineStart, by simp [engineStep, hen, hint, hpend]⟩
  · exact ⟨engineAddress, by simp [engineStep, engineXfer, hen, hint, hpend, hphase]⟩
  · refine ⟨engineTransmit, ?_⟩
    rcases hphase with hphase | hphase <;> simp [engineStep, engineXfer, hen, hint, hpend, hphase, hdir]
  · refine ⟨engineReceive, ?_⟩
    rcases hphase with hphase | hphase <;> simp [engineStep, engineXfer, hen, hint, hpend, hphase, hdir, hnack]

section
variable {s : State} {more : List EngineOutcome}

theorem withFaults_arbLost (hfaults : s.par.busFaults = true) (h : s.outcomes = .arbLost :: more)
    (f : State → State) : withFaults f s = engineArbLost { s with outcomes := more } := by
  simp only [withFaults, if_pos hfaults, drawOutcome, h]

theorem withFaults_busError (hfaults : s.par.busFaults = true) (h : s.outcomes = .busError :: more)
    (f : State → State) : withFaults f s = engineBusError { s with outcomes := more } := by
  simp only [withFaults, if_pos hfaults, drawOutcome, h]

end

/-- Settles O37: the engine's turn is a completion step, and the listed outcome takes the place of its normal one. -/
theorem busFaultOutcomes : Obligations.BusFaultOutcomes := by
  intro s rest more hp hfaults hen hint henabled done
  obtain ⟨f, hf⟩ := engineStep_withFaults (s := { s with plan := rest }) hen hint henabled
  rw [step_engine_done hp hf]
  refine ⟨fun ho => ?_, fun ho => ?_⟩
  · rw [withFaults_arbLost (s := { s with plan := rest }) hfaults ho]
    rfl
  · rw [withFaults_busError (s := { s with plan := rest }) hfaults ho]
    rfl

/-! ### Commands that poll (R161) for an engine that does not complete its operation -/

section
variable {code : Lines} {s t : State} {u : Nat} {o : Host.Outcome State Fault Refusal}

/-- A command comes to what every run from a state it reaches comes to. -/
theorem Reaches.perform_eq {n : Nat} (hu : s.upc = 0) (hp : s.plan = []) (hn : n + 1 ≤ turnBudget)
    (h : Reaches code n { s with upc := 1 } t) (hend : ∀ k, run (k + 1) code t = o) : Machine.perform code s = o := by
  obtain ⟨j, hj, hrun⟩ := h.run_eq (k := turnBudget) (by omega)
  obtain ⟨k, rfl⟩ : ∃ k, j = k + 1 := ⟨j - 1, by omega⟩
  rw [perform_start hu hp, hrun, hend]

/-- A busy sequencer goes on from where it is (R29). -/
theorem perform_resumed (hu : s.upc ≠ 0) (hend : ∀ k, run (k + 1) code s = o) : perform code s = o := by
  rw [perform, if_neg hu]
  exact hend (s.plan.length + 4095)

/-- A control write that launches an operation other than a stop (R201). -/
theorem Reaches.launch {w : CtrlWord} (hw : w ≠ .stop) (hp : s.plan = []) (hu : s.upc = u + 1)
    (h : code[u]? = some (.ctrl w)) (hf : EngineFree s) : Reaches code 1 s (launched w u s) := by
  have hctrl := Reaches.ctrlFree hp hu h hf
  rwa [if_neg hw] at hctrl

/-- A poll is held while the flag is 0 (R161). -/
theorem lineStep_poll_held (hok : paramsOk s.par = true) (hint : s.ctrl.int = false) :
    lineStep .poll s = .held s := by
  simp [lineStep, intFlag_eq s hok, hint]

/-- A held line gives the engine its chance, and what the engine refuses, the turn refuses (R213). -/
theorem turn_engine_refused {l : Line} {r : Refusal} (hp : s.plan = []) (hl : lineAt code s = some l)
    (hheld : lineStep l s = .held t) (hchance : engineChance t = .refused r) : turn code s = .refused r := by
  simp [turn, hp, sequencerStep, hl, hheld, hchance]

section
variable (hp : s.plan = []) (hok : paramsOk s.par = true) (hint : s.ctrl.int = false) (hu : s.upc = u + 1)
  (hpoll : code[u]? = some .poll)
include hp hok hint hu hpoll

/-- Where the engine has no step, the command waits at its poll, without a response (R243). -/
theorem run_poll_waits (hchance : engineChance s = .held t) (k : Nat) : run (k + 1) code s = .next t :=
  run_waits (by omega) (turn_waits hp (lineAt_of hu hpoll) (lineStep_poll_held hok hint) hchance)

/-- What the engine refuses, the command that polls for it refuses. -/
theorem run_poll_refused {r : Refusal} (hchance : engineChance s = .refused r) (k : Nat) :
    run (k + 1) code s = .refused r :=
  run_refused (by omega) (turn_engine_refused hp (lineAt_of hu hpoll) (lineStep_poll_held hok hint) hchance)

end

end

/-- Both words of `rx` launch a transfer (R165). -/
theorem pendingOf_rxWord (more : Bool) : pendingOf (if more then .xferAck else .xferNack) = .xfer := by
  cases more <;> rfl

theorem reaches_twrx_launched {s : State} (more : Bool) (hp : s.plan = []) (hf : EngineFree s) :
    Reaches (twrxLines more) 1 { s with upc := 1 }
      (launched (if more then .xferAck else .xferNack) 0 { s with upc := 1 }) :=
  Reaches.launch (s := { s with upc := 1 }) (ne_stop_of_pendingOf (pendingOf_rxWord more)) hp rfl rfl hf

/-! ### A transfer after a NACK in read direction (R209) -/

theorem engineStep_readNack {s : State} (hen : s.ctrl.en = true) (hint : s.ctrl.int = false) (hpend : s.pending = .xfer)
    (hdir : s.dir = .R) (hnack : s.nack = true) (hphase : s.phase = .addrSent ∨ s.phase = .dataReceived) :
    engineStep s = .refused .xferAfterReadNack := by
  rcases hphase with hphase | hphase <;> simp [engineStep, engineXfer, hen, hint, hpend, hdir, hnack, hphase]

/-- A transfer launched from there is refused at the poll that follows its control write. -/
theorem run_launched_readNack {code : Lines} {s : State} {u : Nat} {w : CtrlWord} (hs : Fair s)
    (hw : pendingOf w = .xfer) (hdir : s.dir = .R) (hnack : s.nack = true)
    (hphase : s.phase = .addrSent ∨ s.phase = .dataReceived) (hpoll : code[u + 1]? = some .poll) (k : Nat) :
    run (k + 1) code (launched w u s) = .refused .xferAfterReadNack :=
  run_poll_refused (s := launched w u s) hs.plan hs.params rfl rfl hpoll
    ((engineChance_fair (s := launched w u s) hs.engine).trans (engineStep_readNack rfl rfl hw hdir hnack hphase)) k

/-- Settles O38: the engine refuses the transfer, in its own turn and at the poll of `rx` and of `tx` (R209). -/
theorem transferAfterReadNackRefused : Obligations.TransferAfterReadNackRefused := by
  refine ⟨fun s rest hp hen hint hpend hdir hnack hphase => step_engine_refused hp
    (engineStep_readNack hen hint hpend hdir hnack hphase), fun s more v hquiet hnone hdir hnack hphase => ?_⟩
  have ⟨⟨hu, hp, _⟩, _⟩ := hquiet
  have hfair := hquiet.fair
  have hfree : EngineFree s := ⟨hnone, by rcases hphase with h | h <;> simp [h]⟩
  constructor
  · exact (reaches_twrx_launched more hp hfree).perform_eq hu hp (by decide)
      (run_launched_readNack (hfair.withUpc 1) (pendingOf_rxWord more) hdir hnack hphase rfl)
  · intro hint
    have hstore := Reaches.store (code := twtxLines v) (s := { s with upc := 1 }) (u := 0) hp rfl
      (txAt_twtxLines v).data hint
    have hlaunch := Reaches.launch (code := twtxLines v) (s := { s with twData := v, upc := 2 }) (u := 1)
      (w := .xferNack) CtrlWord.noConfusion hp rfl rfl hfree
    exact (hstore.trans hlaunch).perform_eq hu hp (by decide)
      (run_launched_readNack ⟨hfair.plan, hfair.faults, hfair.engine, hfair.params⟩ rfl hdir hnack hphase rfl)

/-! ### A transfer with nothing started (R210) -/

theorem engineStep_idleXfer {s : State} (hpend : s.pending = .xfer) (hphase : s.phase = .idle) :
    engineStep s = .held s := by
  simp [engineStep, engineXfer, hpend, hphase]

/-- No liveness of the engine helps where it has no step (R210, R213). -/
theorem engineChance_idleXfer {s : State} (hpend : s.pending = .xfer) (hphase : s.phase = .idle) :
    ∃ d, engineChance s = .held { s with draws := d } := by
  rcases engineChance_cases s with h | h | h | h
  · exact ⟨s.draws, h.trans (engineStep_idleXfer hpend hphase)⟩
  · exact ⟨s.draws, h⟩
  · exact ⟨s.draws + 1, h.trans (engineStep_idleXfer (s := { s with draws := s.draws + 1 }) hpend hphase)⟩
  · exact ⟨s.draws + 1, h⟩

/-- Settles O39: `TWRX` launches the transfer and waits at its poll, and goes on waiting there (R210). -/
theorem transferInIdleHangs : Obligations.TransferInIdleHangs := by
  refine ⟨fun s => engineStep_idleXfer, fun s more hu hp hok hphase hnone => ?_,
    fun s more hu hp hok hphase hpend hint => ?_⟩
  · have hlaunch := reaches_twrx_launched more hp ⟨hnone, by simp [hphase]⟩
    have hw := pendingOf_rxWord more
    obtain ⟨d, hd⟩ := engineChance_idleXfer (s := launched _ 0 { s with upc := 1 }) hw hphase
    refine ⟨d, (hlaunch.perform_eq hu hp (by decide) (run_poll_waits hp hok rfl rfl rfl hd)).trans ?_⟩
    rw [launched, hw]
    rfl
  · obtain ⟨d, hd⟩ := engineChance_idleXfer hpend hphase
    exact ⟨d, perform_resumed (by omega) (run_poll_waits hp hok hint hu rfl hd)⟩

/-! ### An engine that never steps (R213) -/

/-- Settles O40: `TWSTART` launches the start and waits at its poll, and goes on waiting there (R243). -/
theorem stuckEngineNeverAnswers : Obligations.StuckEngineNeverAnswers := by
  refine ⟨fun s hu hp hok hstuck hfree => ?_, fun s hu hp hok hstuck hint => ?_⟩
  · have hlaunch := Reaches.launch (code := twstartLines) (s := { s with upc := 1 }) (u := 0) (w := .start)
      CtrlWord.noConfusion hp rfl rfl hfree
    exact hlaunch.perform_eq hu hp (by decide) (run_poll_waits hp hok rfl rfl rfl (engineChance_stuck hstuck))
  · exact perform_resumed (by omega) (run_poll_waits hp hok hint hu rfl (engineChance_stuck hstuck))

end Sys2Proof.Machine
end

/-! SUPPORT. The reset input as one step of the machine (R260), the reset values of its registers (R261), and the
invariant in the reset state (R263). -/

section
namespace Sys2Proof.Machine

/-! ### Reset values (R261) -/

/-- With all its flags at 0, `TW_CTRL` reads 0 wherever the parameters put them. -/
theorem ctrlByte_reset (b : CtrlBits) : ctrlByte b .reset = 0 := by
  simp [ctrlByte, TwCtrl.reset, flagAt]

theorem getPort_reset (p : Port) : getPort State.reset p = .reset := by
  cases p <;> rfl

/-- The pads are the environment's, so they outlive the reset (log 22). -/
theorem getPort_applyReset (s : State) (p : Port) :
    getPort (applyReset s) p = { PortRegs.reset with ext := (getPort s p).ext } := by
  cases p <;> rfl

theorem statusByte_reset : statusByte State.reset = 0 := by decide

/-- Code and prescaler are reset, so the byte is that of the reset state. -/
theorem statusByte_applyReset (s : State) : statusByte (applyReset s) = 0 := statusByte_reset

/-- The pair (0, 0) is an input without pull-up (R12). -/
theorem pinState_reset (p : Port) (n : BitIx) : pinState State.reset p n = .inPullupOff := by
  have hdir : testBit (getPort State.reset p).dir n = false := by rw [getPort_reset]; exact testBit_zero n
  have hout : testBit (getPort State.reset p).out n = false := by rw [getPort_reset]; exact testBit_zero n
  simp only [pinState, pinPair, hdir, hout, pairState]

/-- Settles O11, register by register (R261). -/
theorem resetValues : Obligations.ResetValues := by
  refine ⟨fun p => ?_, pinState_reset, ctrlByte_reset _, statusByte_reset, rfl, rfl, rfl, rfl, rfl, rfl, rfl, rfl,
    rfl, rfl, rfl⟩
  rw [getPort_reset]
  exact ⟨rfl, rfl⟩

/-! ### The reset input (R260) -/

/-- The reset input is no instruction, so its turn is a step of its own for an idle and for a busy sequencer. -/
theorem step_reset {s : State} {rest : List Turn} (hp : s.plan = .reset :: rest) :
    step s = .next (applyReset { s with plan := rest }) := by
  simp only [step, stepState, hp, betweenCommands, agentTurn]

/-- Settles O10: the step applies the reset, which leaves only the pads, the buffer and the program (log 22). -/
theorem resetInputResetsEverything : Obligations.ResetInputResetsEverything := by
  intro s rest hp
  refine ⟨applyReset { s with plan := rest }, step_reset hp, fun p => ?_, ctrlByte_reset _, statusByte_applyReset _,
    rfl, rfl, rfl, rfl, rfl, rfl, rfl, rfl, rfl, rfl, rfl, rfl, rfl, rfl⟩
  rw [getPort_applyReset]
  exact ⟨rfl, rfl, by cases p <;> rfl⟩

/-! ### The invariant after reset (R263) -/

/-- With nothing pending, an idle phase and all flags at 0, each clause of the engine's invariant holds. -/
theorem engineOk_reset : EngineOk State.reset := by decide

/-- Settles O56: the engine is at rest, the log and the program are empty, and an idle sequencer needs no line. -/
theorem resetMeetsTheInvariant : Obligations.ResetMeetsTheInvariant := by
  have hlog : LogOk State.reset := rfl
  have hbuf : BufOk State.reset := ⟨reset_buf_wf, rfl⟩
  have hprog : ProgOk State.reset := ⟨Nat.zero_le _, fun busy => absurd rfl busy⟩
  exact ⟨⟨engineOk_reset, hlog, hbuf, hprog⟩, lineOk_of_idle rfl⟩

end Sys2Proof.Machine
end
